-- ==== Sys2Proof/Word.lean ====
section
/-! DEFINITION. The bit-vector widths of the block (spec/00_scope.md R12). -/

namespace Sys2Proof

/-- Register data, buffer bytes and bus bytes are 8 bits wide (R12). -/
abbrev Byte := BitVec 8

/-- Command words and port registers are 32 bits wide (R12). -/
abbrev Word := BitVec 32

end Sys2Proof
end

