-- ==== Sys2Proof/Syntax.lean ====
section
/-! DEFINITION. The instructions: one constructor per row of spec/opcode_table.json, each field as wide
as the encoding gives it (spec/30_encoding.md R111, R112, R116-R118). -/

namespace Sys2Proof

/-- Every row of the opcode table: the commands a host writes to a port (R123), the two
pseudo-instructions (R125), and the three bus transactions (R116-R118). -/
inductive Instr where
  /-- `pwm.init ADDR7` (R200). -/
  | pwmInit (addr7 : BitVec 7)
  /-- `pwm.freq HZ` (R210). -/
  | pwmFreq (hz : BitVec 16)
  /-- `pwm.chan CH, DUTY` (R220). -/
  | pwmChan (ch : BitVec 8) (duty : BitVec 12)
  /-- `ws.enc m8, N` (R250). -/
  | wsEncM8 (n : BitVec 16)
  /-- `ws.enc m4, N` (R250). -/
  | wsEncM4 (n : BitVec 16)
  /-- `ws.enc auto, N` (R250). -/
  | wsEncAuto (n : BitVec 16)
  /-- `ws.tx` (R255). -/
  | wsTx
  /-- `ws.show m8, N` (R260). -/
  | wsShowM8 (n : BitVec 16)
  /-- `ws.show m4, N` (R260). -/
  | wsShowM4 (n : BitVec 16)
  /-- `ws.show auto, N` (R260). -/
  | wsShowAuto (n : BitVec 16)
  /-- `pwm.zero CH`, another spelling of `pwm.chan CH, 0` (R125). -/
  | pwmZero (ch : BitVec 8)
  /-- `ws.frame N`, another spelling of `ws.show auto, N` (R125). -/
  | wsFrame (n : BitVec 16)
  /-- One register-write transaction (R116, R142). -/
  | i2cWr (addr : BitVec 7) (reg : Byte) (data : Byte)
  /-- One register-read transaction (R117, R143); the data byte is the slave's, not an operand. -/
  | i2cRd (addr : BitVec 7) (reg : Byte)
  /-- One general-call write (R118, R141). -/
  | i2cGc (data : Byte)
  deriving DecidableEq, Repr, Inhabited

/-- The core instruction a pseudo-instruction expands to; any other instruction is its own
expansion (R125). -/
def Instr.expand : Instr → Instr
  | .pwmZero ch => .pwmChan ch 0
  | .wsFrame n => .wsShowAuto n
  | i => i

end Sys2Proof
end

