-- ==== Sys2Proof/WellFormed.lean ====
section
/-! DEFINITION. Which instruction terms are forms the spec admits. The fields of a command are exactly
as wide as its encoding, so every command term is well-formed (spec/30_encoding.md R115: an invalid
operand VALUE is a legal encoding, rejected by the command itself). The checks left are on the bus
transactions: the address 0x00 is the general call and no device address (R112, R140), and the only
general-call data byte admitted is 0x06 (R118, R141). -/

namespace Sys2Proof

/-- A register transaction names a device: the address is not the general-call address (R140). -/
def WellFormed.deviceAddress (a : BitVec 7) : Bool := a != 0

/-- The general-call data byte is the software reset (R118). -/
def WellFormed.generalCallData (d : Byte) : Bool := d == 0x06

/-- The instruction is a form the spec admits. -/
def Instr.wellFormed : Instr → Bool
  | .pwmInit _ => true
  | .pwmFreq _ => true
  | .pwmChan _ _ => true
  | .wsEncM8 _ => true
  | .wsEncM4 _ => true
  | .wsEncAuto _ => true
  | .wsTx => true
  | .wsShowM8 _ => true
  | .wsShowM4 _ => true
  | .wsShowAuto _ => true
  | .pwmZero _ => true
  | .wsFrame _ => true
  | .i2cWr a _ _ => WellFormed.deviceAddress a
  | .i2cRd a _ => WellFormed.deviceAddress a
  | .i2cGc d => WellFormed.generalCallData d

end Sys2Proof
end

