-- ==== Sys2Proof/Decode.lean ====
section
/-! DEFINITION. Decoding of command words and of bus frames, and the encoder (spec/30_encoding.md).
A command word and a bus frame are two separate inputs: a word is written to a port, a frame is put on
the I2C bus. Both decoders are total and reject by name. -/

namespace Sys2Proof

/-- Why a word or a frame is no instruction. -/
inductive DecodeError where
  /-- R114 item 1: the opcode is not one of the six. -/
  | unknownOpcode
  /-- R114 item 2: a reserved bit is 1. -/
  | reservedBits
  /-- R114 item 3: `MODE` = 3. -/
  | reservedMode
  /-- 40_pwm_slave.md R158: a transaction form with other than one data byte, or a read with no register byte. -/
  | multibyteForm
  /-- 40_pwm_slave.md R140: a transaction that begins as a read at address 0x00. -/
  | generalCallRead
  deriving DecidableEq, Repr

/-- What an instruction looks like outside the machine: a 32-bit word for a port (R110), or one I2C
transaction: for each START or repeated START, the bytes that follow it, in bus order (R116-R118). -/
inductive Wire where
  | word (w : Word)
  | frame (segments : List (List Byte))
  deriving DecidableEq, Repr

/-- `w[lo+len-1 : lo]` (00_scope.md R13). -/
def bits (w : Word) (lo len : Nat) : BitVec len := w.extractLsb' lo len

/-- The command for the `MODE` field of `ws.enc` and `ws.show` (R112); `MODE` = 3 is illegal (R114). -/
def byMode (mode : BitVec 2) (m8 m4 auto : Instr) : Except DecodeError Instr :=
  if mode = 0 then .ok m8 else if mode = 1 then .ok m4 else if mode = 2 then .ok auto
  else .error .reservedMode

/-- `ok` when the reserved field is zero, else rejected (R114 item 2). -/
def guardReserved {len : Nat} (field : BitVec len) (i : Except DecodeError Instr) : Except DecodeError Instr :=
  if field = 0 then i else .error .reservedBits

/-- A command word, by the operand layout of R111 and the illegal encodings of R114. Which port the word
is written to is not the decoder's question (R113 is checked at issue). -/
def decodeWord (w : Word) : Except DecodeError Instr :=
  let opc := bits w 24 8
  if opc = 0x01 then guardReserved (bits w 7 17) (.ok (.pwmInit (bits w 0 7)))
  else if opc = 0x02 then guardReserved (bits w 16 8) (.ok (.pwmFreq (bits w 0 16)))
  else if opc = 0x03 then guardReserved (bits w 12 4) (.ok (.pwmChan (bits w 16 8) (bits w 0 12)))
  else if opc = 0x10 then
    guardReserved (bits w 18 6)
      (byMode (bits w 16 2) (.wsEncM8 (bits w 0 16)) (.wsEncM4 (bits w 0 16)) (.wsEncAuto (bits w 0 16)))
  else if opc = 0x11 then guardReserved (bits w 0 24) (.ok .wsTx)
  else if opc = 0x12 then
    guardReserved (bits w 18 6)
      (byMode (bits w 16 2) (.wsShowM8 (bits w 0 16)) (.wsShowM4 (bits w 0 16)) (.wsShowAuto (bits w 0 16)))
  else .error .unknownOpcode

/-- The 7-bit address of an address byte `{A, R/W}` (R116). -/
def addrOf (b : Byte) : BitVec 7 := b.extractLsb' 1 7

/-- The R/W bit of an address byte: 1 is a read (R116, R117). -/
def isRead (b : Byte) : Bool := b.getLsbD 0

/-- The address byte `{a, R/W}` (R116, R117). -/
def addrByte (a : BitVec 7) (read : Bool) : Byte := a ++ BitVec.ofBool read

/-- One transaction on the bus (R116-R118): a write or a general call is one segment, a register read is a
write of the register byte and, after a repeated START, the read at the same address of one byte. Every other
form is rejected (40_pwm_slave.md R140, R158). The spec gives no order between the reasons: a transaction that
begins as a read gets GENERAL_CALL_READ at address 0x00 and MULTIBYTE_FORM at any other address, before the
slave's own decode (DESIGN CHOICE, notes/assumptions/38.md). -/
def decodeFrame : List (List Byte) → Except DecodeError Instr
  | (b0 :: rest) :: more =>
    if b0 = 0x01 then .error .generalCallRead
    else if isRead b0 then .error .multibyteForm
    else match rest, more with
      | [d], [] => if b0 = 0x00 then .ok (.i2cGc d) else .error .multibyteForm
      | [r, d], [] => .ok (.i2cWr (addrOf b0) r d)
      | [r], [[b2, _]] =>
        if isRead b2 && addrOf b2 == addrOf b0 then .ok (.i2cRd (addrOf b0) r) else .error .multibyteForm
      | _, _ => .error .multibyteForm
  | _ => .error .multibyteForm

/-- Either input. -/
def decode : Wire → Except DecodeError Instr
  | .word w => decodeWord w
  | .frame segments => decodeFrame segments

/-- The encoder, from R111, R124 and R116-R118. A pseudo-instruction has its expansion's word (R125).
The data byte of a read frame is driven by the slave; the encoder leaves it 0. -/
def encode : Instr → Wire
  | .pwmInit a => .word (0x01#8 ++ 0#17 ++ a)
  | .pwmFreq hz => .word (0x02#8 ++ 0#8 ++ hz)
  | .pwmChan ch duty => .word (0x03#8 ++ ch ++ 0#4 ++ duty)
  | .wsEncM8 n => .word (0x10#8 ++ 0#6 ++ 0#2 ++ n)
  | .wsEncM4 n => .word (0x10#8 ++ 0#6 ++ 1#2 ++ n)
  | .wsEncAuto n => .word (0x10#8 ++ 0#6 ++ 2#2 ++ n)
  | .wsTx => .word (0x11#8 ++ 0#24)
  | .wsShowM8 n => .word (0x12#8 ++ 0#6 ++ 0#2 ++ n)
  | .wsShowM4 n => .word (0x12#8 ++ 0#6 ++ 1#2 ++ n)
  | .wsShowAuto n => .word (0x12#8 ++ 0#6 ++ 2#2 ++ n)
  | .pwmZero ch => .word (0x03#8 ++ ch ++ 0#4 ++ 0#12)
  | .wsFrame n => .word (0x12#8 ++ 0#6 ++ 2#2 ++ n)
  | .i2cWr a r d => .frame [[addrByte a false, r, d]]
  | .i2cRd a r => .frame [[addrByte a false, r], [addrByte a true, 0]]
  | .i2cGc d => .frame [[0x00, d]]

/-- The command word of an instruction; a bus transaction has none. -/
def encodeWord (i : Instr) : Option Word :=
  match encode i with
  | .word w => some w
  | .frame _ => none

/-- The `n` bytes of a number, most significant first: the order of the bytes on the bus (R116). -/
def bytesOf : Nat → Nat → List Byte
  | 0, _ => []
  | n + 1, w => BitVec.ofNat 8 (w / 256 ^ n) :: bytesOf n w

/-- The segments of a table row's bytes: the one four-byte row, `I2C_RD`, has a repeated START between its
second and third bytes (R117); the others have none. -/
def tableSegments : List Byte → List (List Byte)
  | [b0, b1, b2, b3] => [[b0, b1], [b2, b3]]
  | bytes => [bytes]

/-- The input a table row's `nbits`-bit pattern `w` is: a 32-bit pattern that is a legal command word is
that word; otherwise a pattern that reads as a bus frame is that frame; any other 32-bit pattern is an
(illegal) word (DESIGN CHOICE, notes/assumptions/16.md). -/
def tableWire (nbits w : Nat) : Wire :=
  let frame := tableSegments (bytesOf (nbits / 8) w)
  if nbits = 32 then
    match decodeWord (BitVec.ofNat 32 w), decodeFrame frame with
    | .ok _, _ => .word (BitVec.ofNat 32 w)
    | .error _, .ok _ => .frame frame
    | .error _, .error _ => .word (BitVec.ofNat 32 w)
  else .frame frame

/-- What the decoder reads from a row of spec/opcode_table.json whose bits are `w`. -/
def decodeTableWord (nbits w : Nat) : Option Instr := (decode (tableWire nbits w)).toOption

end Sys2Proof
end

