-- ==== Sys2Proof/Config.lean ====
section
/-! DEFINITION. The parameters of the block (spec/00_scope.md R11, 10_state.md R55, R58), the names they
are given in, and the free values: what the spec leaves to the environment or calls any value. -/

namespace Sys2Proof

/-- `DUTY_PAIR`: the register pair `pwm.chan` writes (R11, 92_eei_decisions.md D10). -/
inductive DutyPair where
  | on
  | off
  deriving DecidableEq, Repr, Inhabited

/-- The packing of encoded bytes (10_state.md R51). -/
inductive Packing where
  | m8
  | m4
  deriving DecidableEq, Repr, Inhabited

/-- The `MODE` operand of `ws.enc` and `ws.show` (30_encoding.md R112). -/
inductive EncMode where
  | m8
  | m4
  | auto
  deriving DecidableEq, Repr, Inhabited

/-- The slave's oscillator (10_state.md R47). -/
inductive Osc where
  | stopped
  | waking
  | running
  deriving DecidableEq, Repr, Inhabited

/-- The environment's draw for a transaction or a transfer (60_exceptions.md R357). -/
inductive Draw where
  | ok
  | fail
  | hang
  deriving DecidableEq, Repr, Inhabited

/-- `CHANNEL_ORDER`: a permutation of (R, G, B) (R11). -/
inductive ChannelOrder where
  | rgb
  | rbg
  | grb
  | gbr
  | brg
  | bgr
  deriving DecidableEq, Repr, Inhabited

/-- On whose behalf a word or a transaction runs: a PWM port, a W port of a strip, or no port (a bare
transaction on the bus). -/
inductive PortSel where
  | pwm (p : Nat)
  | ws (strip q : Nat)
  | direct
  deriving DecidableEq, Repr, Inhabited

/-- The agents that take steps (10_state.md R30): a host thread, the sequencer context of a PWM port, the
slave's oscillator, a W unit, and a bare bus master (none in the hardware: 92_eei_decisions.md D43). -/
inductive Agent where
  | host (k : Nat)
  | seq (p : Nat)
  | osc
  | unit (s : Nat)
  | master
  deriving DecidableEq, Repr, Inhabited

/-- A declared `channel`: an integer, or a value that is none (a fraction, a text), as it is written
(48_host_reference.md R302 item 3). -/
inductive ChannelValue where
  | int (n : Int)
  | other (declared : String)
  deriving DecidableEq, Repr, Inhabited

/-- The configuration keys of one servo, as declared; an absent key is `none` (48_host_reference.md R302). Pulses and
angles are rationals (R303). -/
structure RawActuator where
  name : String
  channel : Option ChannelValue
  minPulse : Option Rat
  maxPulse : Option Rat
  defaultAngle : Option Rat
  minAngle : Option Rat
  maxAngle : Option Rat
  deriving DecidableEq, Repr, Inhabited

/-- `OSC_WAIT_US` (R11). -/
def Config.oscWaitUs : Nat := 500
/-- `PRESCALE_TICKS` (R11). -/
def Config.prescaleTicks : Nat := 4096
/-- `PRESCALE_MIN` (R11). -/
def Config.prescaleMin : Nat := 3
/-- `PRESCALE_MAX` (R11). -/
def Config.prescaleMax : Nat := 255
/-- `SYM8_ONE` (R11, 30_encoding.md R120). -/
def Config.sym8One : Byte := 0xF8
/-- `SYM8_ZERO` (R11, 30_encoding.md R120). -/
def Config.sym8Zero : Byte := 0x80
/-- `NIB_ONE` (R11, 30_encoding.md R121). -/
def Config.nibOne : BitVec 4 := 0xE
/-- `NIB_ZERO` (R11, 30_encoding.md R121). -/
def Config.nibZero : BitVec 4 := 0x8
/-- `WHEEL_STEP` (R11). -/
def Config.wheelStep : Nat := 1

/-- The parameters of unit P, of the encoder and of the host (R11), the fixed ones apart. -/
structure Params where
  /-- `PRESCALE_NUM`. -/
  prescaleNum : Nat
  /-- `SLAVE_ADDR`. -/
  slaveAddr : BitVec 7
  /-- `CFG_PWM_ADDR`. -/
  cfgPwmAddr : BitVec 7
  /-- `I2C_BUS`, identification only. -/
  i2cBus : Nat
  /-- `DEFAULT_FREQ`, 1..65535 Hz. -/
  defaultFreq : BitVec 16
  /-- `DUTY_PAIR`. -/
  dutyPair : DutyPair
  /-- `ENC_AUTO_THRESHOLD`. -/
  encAutoThreshold : Nat
  /-- `T_LATCH_US`; no rule depends on it as time (70_reset_and_hazards.md R405, R416). -/
  tLatchUs : Nat
  /-- `FRAME_INTERVAL`; no rule depends on it as time (48_host_reference.md R313). -/
  frameInterval : Nat
  /-- `PORT_BASE[...]`: the base address of each port's window (20_memory.md R81, R91; 60_exceptions.md R363). -/
  portBase : List (PortSel × Nat)
  /-- `pwm.servos`, in declared order (48_host_reference.md R302). -/
  servos : List RawActuator
  deriving DecidableEq, Repr, Inhabited

/-- `StripConfig` of one strip with the parameters of its W unit (10_state.md R55, R11). -/
structure StripConfig where
  /-- `PIXEL_COUNT[s]`. -/
  pixelCount : Nat
  /-- `CLOCK_HZ[s]`. -/
  clockHz : Nat
  /-- `F_REF[s]`, Hz. -/
  fRef : Nat
  /-- `DIV_MAX[s]`. -/
  divMax : Nat
  /-- `BRIGHTNESS[s]`, 0..255. -/
  brightness : Byte
  /-- `CHANNEL_ORDER[s]`. -/
  channelOrder : ChannelOrder
  /-- The SPI controller, identification only. -/
  busId : Nat
  /-- The chip select, identification only. -/
  deviceId : Nat
  deriving DecidableEq, Repr, Inhabited

/-- All the parameters a model of RF-ACT takes (R11): `N_PWM_PORTS`, the strips with their `N_WS_PORTS`
(so `N_STRIPS` is the length of the list), and the rest. -/
structure Config where
  params : Params
  nPwmPorts : Nat
  strips : List (StripConfig × Nat)
  deriving DecidableEq, Repr, Inhabited

/-- The parameter values of the standard start state S0 (95_test_vectors.md section 0). They are the
values State.reset is built from; every statement is about every value of them. Where S0 names no value
(`PORT_BASE` among them) the model fills one in: DESIGN CHOICE, notes/assumptions/1.md. -/
def Config.standard : Config where
  params :=
    { prescaleNum := 2400, slaveAddr := 0x40, cfgPwmAddr := 0x40, i2cBus := 1, defaultFreq := 50
      dutyPair := .on, encAutoThreshold := 0, tLatchUs := 50, frameInterval := 0
      portBase := [(.pwm 0, 0x00), (.ws 0 0, 0x10)], servos := [] }
  nPwmPorts := 1
  strips :=
    [({ pixelCount := 1, clockHz := 800000, fRef := 250000000, divMax := 255, brightness := 255
        channelOrder := .grb, busId := 0, deviceId := 0 }, 1)]

/-- Free value: any 8-bit value, one per count (93_implementation_defined.md I1, I3, I4, I5). -/
opaque Config.freeByte : Nat → Byte
/-- Free value: any of the oscillator's three values (40_pwm_slave.md R157). -/
opaque Config.freeOsc : Nat → Osc
/-- Free value: the outcome of a transaction the schedule of draws says nothing about (60_exceptions.md R357). -/
opaque Config.freeDraw : Nat → Draw
/-- Free value: which agent moves when the schedule says nothing (41_pwm_commands.md R230, I18). -/
opaque Config.freeAgent : Nat → Agent

end Sys2Proof
end

