-- ==== Sys2Proof/Machine/State.lean ====
section
/-! DEFINITION. The state of RF-ACT as plain data, with its reset values (spec/10_state.md,
spec/70_reset_and_hazards.md R390, R391), the stops, and the host agents' own state
(spec/48_host_reference.md). INVENTORY.md, heading State, lists every field with its rule. -/

namespace Sys2Proof.Machine

/-- The completion codes (60_exceptions.md R350); no other value is ever written to `ERR`. -/
inductive ErrCode where
  | ok
  | busError
  | invalidChannel
  | invalidFrequency
  | illegalCommand
  | bufferRange
  | invalidAddress
  deriving DecidableEq, Repr, Inhabited

/-- `STATUS` (10_state.md R34, R48), its three fields; the reserved bits are in the view `statusWord`. -/
structure Status where
  busy : Bool
  failStep : Byte
  err : ErrCode
  deriving DecidableEq, Repr, Inhabited

/-- The value of a register write: a constant, or computed from `TMP` when performed as
`(TMP & mask) | set` (41_pwm_commands.md R193, R201, R211). -/
inductive WrVal where
  | imm (v : Byte)
  | tmp (mask set : Byte)
  deriving DecidableEq, Repr, Inhabited

/-- The micro-ops (41_pwm_commands.md R193-R196). -/
inductive MicroOp where
  | gc (d : Byte)
  | wait (us : Nat)
  | rd (reg : Byte)
  | wr (reg : Byte) (v : WrVal)
  deriving DecidableEq, Repr, Inhabited

/-- `OP` with its `ARG` (10_state.md R36): the opcode of a unit P command and its decoded operands. -/
inductive PwmCmd where
  | init (addr7 : BitVec 7)
  | freq (hz : BitVec 16)
  | chan (ch : BitVec 8) (duty : BitVec 12)
  deriving DecidableEq, Repr, Inhabited

/-- One PWM port (10_state.md R32-R36). -/
structure PwmPort where
  /-- `CMD`: the last word written; none until a command is issued (R33). -/
  cmd : Option Word
  /-- `STATUS` (R34). -/
  status : Status
  /-- `OP` and `ARG` (R36). -/
  op : Option PwmCmd
  /-- `SEQ` (R36). -/
  seq : List MicroOp
  /-- `upc` (R32). -/
  upc : Byte
  /-- `TMP`; none is the spec's "unwritten" (R36). -/
  tmp : Option Byte
  /-- `STAMP` (R36). -/
  stamp : Option Nat
  /-- A transaction of the active command was refused (60_exceptions.md R356): the command takes no further
  step (DESIGN CHOICE, notes/assumptions/11.md). -/
  stuck : Bool
  deriving DecidableEq, Repr, Inhabited

/-- `F_CONF` (10_state.md R38). -/
structure FConf where
  valid : Bool
  hz : BitVec 16
  deriving DecidableEq, Repr, Inhabited

/-- Unit P but for its slave (10_state.md R37-R40). -/
structure PwmUnit where
  devAddr : BitVec 7
  fConf : FConf
  issueCtr : Nat
  i2cHung : Bool
  ports : List PwmPort
  deriving DecidableEq, Repr, Inhabited

/-- The PCA9685 slave (10_state.md R41-R47). `sr` lists the registers that differ from their reset value. -/
structure Slave where
  sr : List Host.Cell
  osc : Osc
  deriving DecidableEq, Repr, Inhabited

/-- A command of a W unit (42_ws2812_encoder.md R250, R255, R260). -/
inductive WsCmd where
  | enc (mode : EncMode) (n : BitVec 16)
  | tx
  | display (mode : EncMode) (n : BitVec 16)
  deriving DecidableEq, Repr, Inhabited

/-- One W port (10_state.md R48, R32). -/
structure WPort where
  cmd : Option Word
  status : Status
  upc : Byte
  deriving DecidableEq, Repr, Inhabited

/-- `TXSTATE` (10_state.md R53). -/
inductive TxState where
  | idle
  | sending
  | latch
  deriving DecidableEq, Repr, Inhabited

/-- A wire event of `TRACE[s]` (10_state.md R60). -/
inductive TraceEvent where
  | xfer (bytes : List Byte) (div : Nat) (outcome : Draw)
  | latch
  deriving DecidableEq, Repr, Inhabited

/-- One W unit (10_state.md R48-R54, R60), with its `StripConfig` (R55), which never changes. -/
structure WUnit where
  conf : StripConfig
  /-- `IBUF`: the written bytes; an unlisted byte is unwritten (R49). -/
  ibuf : List Host.Cell
  /-- `OBUF`: the written bytes (R50). -/
  obuf : List Host.Cell
  /-- `OLEN` (R50). -/
  olen : Nat
  /-- `OMODE` (R51). -/
  omode : Packing
  /-- `DIV`; 0 is "not yet synthesized" (R52). -/
  div : Nat
  txState : TxState
  spiHung : Bool
  /-- An `ENC` read an unwritten byte: the W unit takes no further step (60_exceptions.md R355). -/
  stopped : Bool
  /-- `QUEUE`: port and command, oldest first (R54). -/
  queue : List (Nat × WsCmd)
  ports : List WPort
  /-- `TRACE`, oldest first (R60). -/
  trace : List TraceEvent
  deriving DecidableEq, Repr, Inhabited

/-- The kind of a bus transaction (10_state.md R60). -/
inductive BusKind where
  | wr
  | rd
  | gc
  deriving DecidableEq, Repr, Inhabited

/-- The outcome recorded for a bus transaction (10_state.md R60). -/
inductive BusOutcome where
  | ok
  | nack
  | fail
  | hang
  deriving DecidableEq, Repr, Inhabited

/-- One entry of `BUSLOG` (10_state.md R60). -/
structure BusEntry where
  kind : BusKind
  a7 : BitVec 7
  reg : Option Byte
  data : Option Byte
  outcome : BusOutcome
  deriving DecidableEq, Repr, Inhabited

/-- The sticky faults (60_exceptions.md R354, R355). -/
inductive FaultReason where
  | seqConflict
  | unwrittenRead
  deriving DecidableEq, Repr, Inhabited

/-- The sticky refusals (60_exceptions.md R356). -/
inductive RefuseReason where
  | cmdRead
  | statusWrite
  | freqWrite
  | portOffset
  | portWidth
  | ibufRange
  | generalCallRead
  | subaddressRead
  | generalCallData
  | reservedRegWrite
  | testmodeWrite
  | restartWrite
  | extclkWrite
  | multibyteForm
  deriving DecidableEq, Repr, Inhabited

/-- A result a host operation returns (48_host_reference.md R301). -/
inductive HostResult where
  | ok
  | status (e : ErrCode)
  | configurationError
  | unknownActuator
  | indexOutOfRange
  deriving DecidableEq, Repr, Inhabited

/-- An entry of the calibration table (48_host_reference.md R303). -/
structure Actuator where
  name : String
  channel : BitVec 8
  minPulse : Rat
  maxPulse : Rat
  minAngle : Rat
  maxAngle : Rat
  defaultAngle : Rat
  deriving DecidableEq, Repr, Inhabited

/-- A frame of `startup_demo()`: a `fill`, or wheel colours (48_host_reference.md R315), at the positions R313 gives a
frame with this offset (DESIGN CHOICE of the positions, notes/assumptions/23.md). -/
inductive DemoFrame where
  | fill (r g b : Byte)
  | wheel (offset : Nat)
  deriving DecidableEq, Repr, Inhabited

/-- What a host thread does next: the interactions of R300, and the operations built from them (R302-R316).
`π` is the port an operation issues on, `s` a strip. -/
inductive HostOp where
  /-- A write of `width` bits at an offset of a port window (20_memory.md R81, R86). -/
  | portWrite (π : PortSel) (offset width : Nat) (v : Word)
  /-- A read of `width` bits at an offset of a port window. -/
  | portRead (π : PortSel) (offset width : Nat)
  /-- Hold until the port's `BUSY` is 0, then read `STATUS` (R300); the tag names the actuator in `home_all()`. -/
  | await (π : PortSel) (tag : Option String)
  /-- A command line: write the word, then hold until it is done (30_encoding.md R124). -/
  | command (π : PortSel) (w : Word)
  /-- Write a pixel byte (20_memory.md R82). -/
  | ibufWrite (s i : Nat) (v : Byte)
  /-- Read a pixel byte (20_memory.md R82). -/
  | ibufRead (s i : Nat)
  /-- Return a result. -/
  | ret (tag : Option String) (r : HostResult)
  /-- A read or a write at an address: the port window that holds it (20_memory.md R81, R91), then as above. -/
  | addrRead (addr width : Nat)
  | addrWrite (addr width : Nat) (v : Word)
  /-- Configuration load (R302). -/
  | loadConfig
  /-- Go on only if the last result is no error (R309, 70_reset_and_hazards.md R395); else the thread drops all it still
  has to do (DESIGN CHOICE, notes/assumptions/22.md). -/
  | checkOk
  | moveToAngle (π : PortSel) (tag : Option String) (name : String) (angle : Rat)
  | moveToPulse (π : PortSel) (name : String) (u : Rat)
  /-- Issue `pwm.chan` with the duty of a pulse, from the `FREQ` just read (R304). -/
  | chanPulse (π : PortSel) (ch : BitVec 8) (u : Rat)
  | homeAll (π : PortSel)
  /-- The end of `home_all()` over `n` actuators: failure if any of the last `n` results is an error (R307). -/
  | homeReport (n : Nat)
  | setPixel (s i : Nat) (r g b : Byte)
  | fill (s : Nat) (r g b : Byte)
  | clear (s : Nat)
  | start (s : Nat)
  | pause (π : PortSel) (s : Nat)
  | resume (s : Nat)
  /-- One frame of the strip's animation, begun by its task while the animation runs (R313). -/
  | frame (s : Nat)
  /-- The end of a frame: advance the offset and the index, release the lock (R313). -/
  | frameDone (s : Nat)
  /-- Release the animation lock (R314). -/
  | unlock (s : Nat)
  | startupDemo (π : PortSel) (s : Nat) (frames : List DemoFrame)
  /-- The end of `startup_demo()` (R315). -/
  | demoDone (s : Nat)
  /-- The boot order (R309), with the demos to run: W port, strip, frames. -/
  | boot (π : PortSel) (demos : List (PortSel × Nat × List DemoFrame))
  deriving DecidableEq, Repr, Inhabited

/-- A host thread: the strip whose animation task it is, if any (R312), what it still does, what its last read
returned, and the results returned so far. -/
structure Thread where
  task : Option Nat
  prog : List HostOp
  got : Option Word
  results : List (Option String × HostResult)
  deriving DecidableEq, Repr, Inhabited

/-- The mode of a strip's animation (48_host_reference.md R312). -/
inductive AnimMode where
  | stopped
  | running
  | paused
  deriving DecidableEq, Repr, Inhabited

/-- How far `startup_demo()` of a strip is; it runs at most once (48_host_reference.md R315). -/
inductive DemoPhase where
  | notRun
  | running
  | done
  deriving DecidableEq, Repr, Inhabited

/-- The animation state of a strip (R312, R314): `AnimationState`, the lock's holder, and its
`startup_demo()` (R315). -/
structure Anim where
  mode : AnimMode
  running : Bool
  frameIndex : Nat
  frameOffset : Nat
  lock : Option Nat
  demo : DemoPhase
  deriving DecidableEq, Repr, Inhabited

/-- The configuration load (R302): not yet performed, performed with its calibration table (R303), or failed,
after which the host issues no command at all. -/
inductive Load where
  | pending
  | loaded (table : List Actuator)
  | failed
  deriving DecidableEq, Repr, Inhabited

/-- The host agents' state: threads, the configuration load, one animation per strip. -/
structure HostState where
  threads : List Thread
  load : Load
  anim : List Anim
  deriving DecidableEq, Repr, Inhabited

/-- The environment's choices: the schedule and the draws still to come, and the count at which the next
free value is drawn. The model's own fields, no state of the block (10_state.md R58). -/
structure Env where
  sched : List Agent
  outcomes : List Draw
  count : Nat
  deriving DecidableEq, Repr, Inhabited

/-- The whole machine with its agents. -/
structure State where
  /-- The parameters, fixed (R58). -/
  cfg : Params
  unitP : PwmUnit
  slave : Slave
  strips : List WUnit
  /-- `FAULTS`, no repeats (R57). -/
  faults : List FaultReason
  /-- `REFUSED`, no repeats (R57). -/
  refused : List RefuseReason
  /-- `BUSLOG`, oldest first (R60). -/
  busLog : List BusEntry
  host : HostState
  /-- The transactions a bare bus master will put on the bus, each as its segments; the hardware has no such
  master (DESIGN CHOICE, notes/assumptions/13.md). -/
  frames : List (List (List Byte))
  /-- The port on whose behalf `exec` runs. -/
  sel : PortSel
  env : Env
  deriving DecidableEq, Repr, Inhabited

/-- The machine stops with a fault. The block itself has no stopping fault: its faults are marks in
`State.faults` and it goes on (R57). -/
inductive Fault where
  /-- A command word or an access at a PWM port or W port that the platform does not have
  (10_state.md R33, R48: p < N_PWM_PORTS, s < N_STRIPS, q < N_WS_PORTS). Raised by every command's
  meaning and by the host's port accesses. Safe: no such location exists. -/
  | noSuchPort
  /-- A host access to the input buffer of a strip that the platform does not have (20_memory.md R82).
  Raised by the host's pixel accesses. Safe. -/
  | noSuchStrip
  deriving DecidableEq, Repr

/-- No meaning. The block's own refusals are marks in `State.refused` and it goes on (R356). -/
inductive Refusal where
  /-- An instruction with no meaning yet, by its mnemonic; raised by no arm of this model. Safe. -/
  | notModelled (mnemonic : String)
  deriving DecidableEq, Repr

/-- An idle `STATUS` at reset (R34, R48). -/
def Status.reset : Status := { busy := false, failStep := 0, err := .ok }

/-- A PWM port at reset (R390). -/
def PwmPort.reset : PwmPort :=
  { cmd := none, status := Status.reset, op := none, seq := [], upc := 0, tmp := none, stamp := none
    stuck := false }

/-- A W port at reset (R390). -/
def WPort.reset : WPort := { cmd := none, status := Status.reset, upc := 0 }

/-- The slave at power-on (R391): every register at its reset value, the oscillator stopped. -/
def Slave.reset : Slave := { sr := [], osc := .stopped }

/-- A W unit at reset (R390). -/
def WUnit.reset (conf : StripConfig) (nPorts : Nat) : WUnit :=
  { conf := conf, ibuf := [], obuf := [], olen := 0, omode := .m8, div := 0, txState := .idle
    spiHung := false, stopped := false, queue := [], ports := List.replicate nPorts WPort.reset, trace := [] }

/-- A host thread that has nothing to do, and is no strip's animation task. -/
def Thread.reset : Thread := { task := none, prog := [], got := none, results := [] }

/-- The threads of strip `i`'s W ports: the one of port 0 is the strip's animation task (R312 gives the task its
own W port; that it is port 0 is a DESIGN CHOICE, notes/assumptions/40.md). -/
def stripThreads (i nPorts : Nat) : List Thread :=
  (List.range nPorts).map fun q => { Thread.reset with task := if q = 0 then some i else none }

/-- The animation state at reset (48_host_reference.md R312). -/
def Anim.reset : Anim :=
  { mode := .stopped, running := false, frameIndex := 0, frameOffset := 0, lock := none, demo := .notRun }

/-- Power-on reset of a block with the given parameters (70_reset_and_hazards.md R390, R391); one host
thread per port (10_state.md R30), those of the PWM ports first, then those of each strip's W ports. -/
def State.resetOf (c : Config) : State :=
  { cfg := c.params
    unitP :=
      { devAddr := c.params.cfgPwmAddr, fConf := { valid := false, hz := 0 }, issueCtr := 0, i2cHung := false
        ports := List.replicate c.nPwmPorts PwmPort.reset }
    slave := Slave.reset
    strips := c.strips.map fun sc => WUnit.reset sc.1 sc.2
    faults := []
    refused := []
    busLog := []
    host :=
      { threads :=
          List.replicate c.nPwmPorts Thread.reset ++ (c.strips.mapIdx fun i sc => stripThreads i sc.2).flatten
        load := .pending
        anim := List.replicate c.strips.length Anim.reset }
    frames := []
    sel := .direct
    env := { sched := [], outcomes := [], count := 0 } }

/-- The machine right after reset, with the parameters of the standard start state S0. -/
def State.reset : State := State.resetOf Config.standard

end Sys2Proof.Machine
end

