-- ==== Sys2Proof/Machine/Flags.lean ====
section
/-! DEFINITION. The flags and status words (spec/10_state.md R34, R35, R48, R56, R57) and the set marks
of `FAULTS` and `REFUSED`. The block has no arithmetic flags (R56). -/

namespace Sys2Proof.Machine

/-- The numeric completion codes (60_exceptions.md R350). -/
def ErrCode.code : ErrCode → Byte
  | .ok => 0x00
  | .busError => 0x01
  | .invalidChannel => 0x02
  | .invalidFrequency => 0x03
  | .illegalCommand => 0x04
  | .bufferRange => 0x05
  | .invalidAddress => 0x06

/-- `STATUS` as the host reads it: `BUSY` 31, reserved 30:16, `FAIL_STEP` 15:8, `ERR` 7:0 (R34). -/
def statusWord (st : Status) : Word := BitVec.ofBool st.busy ++ 0#15 ++ st.failStep ++ st.err.code

/-- `FREQ` as the host reads it: bits 31:17 read 0, `VALID` 16, `HZ` 15:0 (R35). -/
def freqWord (f : FConf) : Word := 0#15 ++ BitVec.ofBool f.valid ++ f.hz

/-- The status of a completed command (41_pwm_commands.md R191, 42_ws2812_encoder.md R263). -/
def Status.completed (code : ErrCode) (step : Byte) : Status :=
  { busy := false, failStep := step, err := code }

/-- The status of a port whose command is active: `BUSY` is set, the rest is kept (R190, R254). -/
def Status.active (st : Status) : Status := { st with busy := true }

/-- Add to a list kept without repeats. -/
def addMark {α : Type} [DecidableEq α] (x : α) (l : List α) : List α := if x ∈ l then l else l ++ [x]

/-- `fault F`: set the sticky model fault (00_scope.md R18, 10_state.md R57). -/
def markFault (f : FaultReason) (s : State) : State := { s with faults := addMark f s.faults }

/-- `refuse R`: add the named reason to `REFUSED`, with no other effect (R18, R356). -/
def refuse (r : RefuseReason) (s : State) : State := { s with refused := addMark r s.refused }

/-- Append one entry to `BUSLOG` (41_pwm_commands.md R192, 10_state.md R60). R60 logs the transactions unit P has
performed; the model logs those of its bare master too, since they are on the same bus (DESIGN CHOICE,
notes/assumptions/37.md). -/
def logBus (e : BusEntry) (s : State) : State := { s with busLog := s.busLog ++ [e] }

/-- The refusal a rejected bus frame gets (40_pwm_slave.md R140, R158; one reason for each, in the order of
notes/assumptions/38.md). The first three errors are a word's and no frame has them. -/
def frameRefusal : DecodeError → RefuseReason
  | .unknownOpcode => .multibyteForm
  | .reservedBits => .multibyteForm
  | .reservedMode => .multibyteForm
  | .multibyteForm => .multibyteForm
  | .generalCallRead => .generalCallRead

end Sys2Proof.Machine
end

