-- ==== Sys2Proof/Machine/Ops.lean ====
section
/-! DEFINITION. The named operations over memory, ports and the environment, and completion: the block's
one way to report an error (it has no trap: spec/60_exceptions.md R360, 41_pwm_commands.md R191,
42_ws2812_encoder.md R263). -/

namespace Sys2Proof.Machine

/-! ### Memory: cells at strictly rising addresses, none equal to what an unlisted address reads as -/

/-- Read one byte; `d` is what an unlisted address reads as (none: no value). -/
def Memory.read (d : Nat → Option Byte) : List Host.Cell → Nat → Option Byte
  | [], a => d a
  | (k, v) :: rest, a => if k = a then some v else Memory.read d rest a

/-- Write one byte, keeping the canonical form: the value an unlisted address reads as removes the cell. -/
def Memory.write (d : Nat → Option Byte) : List Host.Cell → Nat → Byte → List Host.Cell
  | [], a, v => if d a = some v then [] else [(a, v)]
  | (k, w) :: rest, a, v =>
    if k < a then (k, w) :: Memory.write d rest a v
    else if k = a then (if d a = some v then rest else (a, v) :: rest)
    else if d a = some v then (k, w) :: rest else (a, v) :: (k, w) :: rest

/-- The canonical form. -/
abbrev Memory.wf (d : Nat → Option Byte) (m : List Host.Cell) : Prop :=
  (m.map Prod.fst).Pairwise (· < ·) ∧ ∀ c ∈ m, d c.1 ≠ some c.2

/-- Write bytes at rising addresses. -/
def Memory.writeBytes (d : Nat → Option Byte) (m : List Host.Cell) : Nat → List Byte → List Host.Cell
  | _, [] => m
  | a, v :: vs => Memory.writeBytes d (Memory.write d m a v) (a + 1) vs

/-- Read `n` bytes at rising addresses; none if one of them has no value. -/
def Memory.readBytes (d : Nat → Option Byte) (m : List Host.Cell) : Nat → Nat → Option (List Byte)
  | _, 0 => some []
  | a, n + 1 =>
    match Memory.read d m a, Memory.readBytes d m (a + 1) n with
    | some v, some vs => some (v :: vs)
    | _, _ => none

/-- Buffer bytes are unwritten at reset (10_state.md R49, R50): an unlisted byte has no value. -/
def unwritten : Nat → Option Byte := fun _ => none

/-- The slave's reset values (10_state.md R41-R46): what an unlisted register reads as. The reserved,
broadcast and test addresses hold nothing. -/
def slaveReset (r : Nat) : Option Byte :=
  if r = 0x00 then some 0x11
  else if r = 0x01 then some 0x04
  else if r = 0x02 then some 0xE2
  else if r = 0x03 then some 0xE4
  else if r = 0x04 then some 0xE8
  else if r = 0x05 then some 0xE0
  else if r ≤ 0x45 then (if (r - 0x06) % 4 = 3 then some 0x10 else some 0x00)
  else if r = 0xFE then some 0x1E
  else none

/-- `SR[r]` (00_scope.md R15) of an implemented register; the rules read no other. -/
def srRead (sl : Slave) (r : Nat) : Byte := (Memory.read slaveReset sl.sr r).getD 0

/-- `SR[r] <- v` (R15). -/
def srWrite (r : Nat) (v : Byte) (sl : Slave) : Slave := { sl with sr := Memory.write slaveReset sl.sr r v }

/-- The addresses of the registers with a reset value (10_state.md R41). -/
def implementedRegs : List Nat := List.range 0x46 ++ [0xFE]

/-! ### The environment -/

/-- The free byte number `i` from the current count (any value: 93_implementation_defined.md Part A). -/
def freeByte (s : State) (i : Nat) : Byte := Config.freeByte (s.env.count + i)

/-- Move the count past `n` free values. -/
def advance (n : Nat) (s : State) : State := { s with env := { s.env with count := s.env.count + n } }

/-- The environment's next draw (60_exceptions.md R357): the head of the draws to come, else a free value. -/
def nextDraw (s : State) : Draw :=
  match s.env.outcomes with
  | o :: _ => o
  | [] => Config.freeDraw s.env.count

/-- The state after a draw. -/
def afterDraw (s : State) : State :=
  match s.env.outcomes with
  | _ :: rest => { s with env := { s.env with outcomes := rest } }
  | [] => advance 1 s

/-- What the bus log and the trace record for a draw. -/
def Draw.outcome : Draw → BusOutcome
  | .ok => .ok
  | .fail => .fail
  | .hang => .hang

/-! ### Ports -/

/-- Replace PWM port `p`. -/
def setPort (p : Nat) (P : PwmPort) (s : State) : State :=
  { s with unitP := { s.unitP with ports := s.unitP.ports.set p P } }

/-- Replace W unit `i`. -/
def setStrip (i : Nat) (u : WUnit) (s : State) : State := { s with strips := s.strips.set i u }

/-- Replace W port `q` of a unit. -/
def setWPort (q : Nat) (P : WPort) (u : WUnit) : WUnit := { u with ports := u.ports.set q P }

/-- `IBUF_SIZE[s]` (00_scope.md R11). -/
def ibufSize (c : StripConfig) : Nat := 3 * c.pixelCount

/-! ### Completion: the block's only error path (60_exceptions.md R350-R353, R360) -/

/-- The effect of the completion of a command on `F_CONF` (41_pwm_commands.md R213). -/
def completeEffect (op : Option PwmCmd) (code : ErrCode) (f : FConf) : FConf :=
  match op, code with
  | some (.freq hz), .ok => { valid := true, hz := hz }
  | some (.freq _), .busError => { f with valid := false }
  | _, _ => f

/-- `Complete(p, code, step)` (41_pwm_commands.md R191). A port that is not there completes nothing. -/
def completePwm (p : Nat) (code : ErrCode) (step : Byte) (s : State) : State :=
  match s.unitP.ports[p]? with
  | none => s
  | some P =>
    { s with
      unitP :=
        { s.unitP with
          fConf := completeEffect P.op code s.unitP.fConf
          ports := s.unitP.ports.set p { P with status := Status.completed code step, seq := [] } } }

/-- Remove the command of port `q` from the queue, if it is there (42_ws2812_encoder.md R263). -/
def dropQueued (q : Nat) (l : List (Nat × WsCmd)) : List (Nat × WsCmd) := l.eraseP fun e => e.1 == q

/-- `WComplete(s, q, code, step)` on the unit (42_ws2812_encoder.md R263). -/
def completeUnit (q : Nat) (code : ErrCode) (step : Byte) (u : WUnit) : WUnit :=
  match u.ports[q]? with
  | none => u
  | some P =>
    { u with
      ports := u.ports.set q { P with status := Status.completed code step }
      queue := dropQueued q u.queue }

/-- `WComplete(s, q, code, step)` (42_ws2812_encoder.md R263). -/
def completeWs (i q : Nat) (code : ErrCode) (step : Byte) (s : State) : State :=
  match s.strips[i]? with
  | none => s
  | some u => setStrip i (completeUnit q code step u) s

/-! ### What a transaction returns (00_scope.md R17) -/

/-- The return of a bus primitive: done (with the byte read, for a read), failed, or never (R17); or no
transaction took place: the form is refused (R356), or the bus is hung (41_pwm_commands.md R231). -/
inductive TxReturn where
  | ok (data : Option Byte)
  | fail
  | hang
  | refused
  | held
  deriving DecidableEq, Repr

/-- A port that waits for a micro-op: it is busy, has a next micro-op (41_pwm_commands.md R192), and none of its
command's transactions was refused (notes/assumptions/11.md). -/
def PwmPort.pending (P : PwmPort) : Bool := P.status.busy && decide (P.upc.toNat < P.seq.length) && !P.stuck

/-- What `MicroStep` does with the outcome of the micro-op of port `p` (41_pwm_commands.md R192): advance
and perhaps complete, complete with `BUS_ERROR`, or stay. A read stores its byte in `TMP` (R194). After a refused
transaction the command stays where it is for good (DESIGN CHOICE, notes/assumptions/11.md). -/
def settle (p : Nat) (r : TxReturn) (s : State) : State :=
  match s.unitP.ports[p]? with
  | none => s
  | some P =>
    if P.pending then
      match r with
      | .ok data =>
        let s' := setPort p { P with upc := P.upc + 1, tmp := data.or P.tmp } s
        if P.upc.toNat + 1 = P.seq.length then completePwm p .ok 0 s' else s'
      | .fail => completePwm p .busError P.upc s
      | .hang => s
      | .refused => setPort p { P with stuck := true } s
      | .held => s
    else s

/-- Hand the outcome of a transaction to whoever it was performed for: the sequencer context of a PWM
port; a bare transaction has nobody waiting. -/
def deliver (r : TxReturn) (s : State) : State :=
  match s.sel with
  | .pwm p => settle p r s
  | .ws _ _ => s
  | .direct => s

end Sys2Proof.Machine
end

