-- ==== Sys2Proof/Machine/Operands.lean ====
section
/-! DEFINITION. The operand forms and what is computed from them: value checks, micro-op sequences, the
prescale, the duty registers, the automatic packing, the symbols and the clock divider
(spec/41_pwm_commands.md, spec/42_ws2812_encoder.md, spec/60_exceptions.md R367). -/

namespace Sys2Proof.Machine

/-! ### Unit P -/

/-- The value checks (41_pwm_commands.md R200, R210, R220; 60_exceptions.md R358): none, or the code. -/
def validate : PwmCmd → Option ErrCode
  | .init a => if a = 0 then some .invalidAddress else none
  | .freq hz => if hz = 0 then some .invalidFrequency else none
  | .chan ch _ => if 15 < ch.toNat then some .invalidChannel else none

/-- The integer nearest to `n / d`, a tie going to the even one (00_scope.md R14), for `d > 0`. -/
def roundHalfEven (n d : Int) : Int :=
  let f := n / d
  let r := n % d
  if 2 * r < d then f else if d < 2 * r then f + 1 else if f % 2 = 0 then f else f + 1

/-- `clamp(v, lo, hi)` (00_scope.md R14). -/
def clamp (v lo hi : Int) : Int := min (max v lo) hi

/-- `Prescale(hz)` (41_pwm_commands.md R212): `PRESCALE_NUM / (4096 hz) - 1`, rounded half to even, clamped
to 3..255. The quotient is kept as one fraction with denominator `4096 hz`. -/
def prescale (num hz : Nat) : Byte :=
  let d : Int := Config.prescaleTicks * hz
  BitVec.ofInt 8 (clamp (roundHalfEven (num - d) d) Config.prescaleMin Config.prescaleMax)

/-- `L(c)`: the low duty register of a channel (41_pwm_commands.md R221). -/
def dutyReg (pair : DutyPair) (ch : Nat) : Nat :=
  match pair with
  | .on => 0x06 + 4 * ch
  | .off => 0x08 + 4 * ch

/-- The micro-op sequence of a command (41_pwm_commands.md R201, R211, R221). -/
def commandSeq (cfg : Params) : PwmCmd → List MicroOp
  | .init _ =>
    [.gc 0x06, .wait Config.oscWaitUs, .rd 0x00, .wr 0x00 (.tmp 0x6F 0x00), .wait Config.oscWaitUs]
  | .freq hz =>
    [.rd 0x00, .wr 0x00 (.tmp 0x6F 0x10), .wr 0xFE (.imm (prescale cfg.prescaleNum hz.toNat)),
      .wr 0x00 (.tmp 0x6F 0x00), .wait Config.oscWaitUs]
  | .chan ch duty =>
    let lo := dutyReg cfg.dutyPair ch.toNat
    [.wr (BitVec.ofNat 8 lo) (.imm (duty.extractLsb' 0 8)),
      .wr (BitVec.ofNat 8 (lo + 1)) (.imm ((duty.extractLsb' 8 4).setWidth 8))]

/-- The byte of a register write (41_pwm_commands.md R193). `TMP` is written before it is read
(10_state.md R36); where it is not, the byte is `free`. -/
def wrValue (tmp : Option Byte) (free : Byte) : WrVal → Byte
  | .imm v => v
  | .tmp mask set => (tmp.getD free &&& mask) ||| set

/-- The 12-bit duty view of a channel (10_state.md R45, 40_pwm_slave.md R159). -/
def duty (pair : DutyPair) (sl : Slave) (n : Nat) : BitVec 12 :=
  (srRead sl (dutyReg pair n + 1)).extractLsb' 0 4 ++ srRead sl (dutyReg pair n)

/-! ### W units -/

/-- `AutoMode(n)` (42_ws2812_encoder.md R253). -/
def autoMode (threshold n : Nat) : Packing := if 8 * n < threshold then .m4 else .m8

/-- The packing of an `ENC` step (42_ws2812_encoder.md R251). -/
def packing (threshold : Nat) (mode : EncMode) (n : Nat) : Packing :=
  match mode with
  | .m8 => .m8
  | .m4 => .m4
  | .auto => autoMode threshold n

/-- The 8-bit symbol of a data bit (30_encoding.md R120). -/
def sym8 (b : Bool) : Byte := if b then Config.sym8One else Config.sym8Zero

/-- The 4-bit symbol of a data bit (30_encoding.md R121). -/
def nib (b : Bool) : BitVec 4 := if b then Config.nibOne else Config.nibZero

/-- The output bytes of one input byte, bit 7 first (20_memory.md R84, 42_ws2812_encoder.md R251). -/
def symbols (m : Packing) (b : Byte) : List Byte :=
  match m with
  | .m8 => (List.range 8).map fun k => sym8 (b.getLsbD (7 - k))
  | .m4 => (List.range 4).map fun j => nib (b.getLsbD (7 - 2 * j)) ++ nib (b.getLsbD (6 - 2 * j))

/-- The output bytes of a buffer, in increasing index (20_memory.md R84). -/
def encodeBytes (m : Packing) (bytes : List Byte) : List Byte := bytes.flatMap (symbols m)

/-- Inverse lookup in the 8-bit table (30_encoding.md R122). -/
def unsym8 (v : Byte) : Option (List Bool) :=
  if v = Config.sym8One then some [true] else if v = Config.sym8Zero then some [false] else none

/-- Inverse lookup in the 4-bit table (30_encoding.md R122). -/
def unsym4 (v : Byte) : Option (List Bool) :=
  if v = 0x88 then some [false, false]
  else if v = 0x8E then some [false, true]
  else if v = 0xE8 then some [true, false]
  else if v = 0xEE then some [true, true]
  else none

/-- Decoding of a symbol stream by inverse table lookup (30_encoding.md R122); no unit decodes. -/
def unsymbols (m : Packing) : List Byte → Option (List Bool)
  | [] => some []
  | v :: vs =>
    match (match m with | .m8 => unsym8 v | .m4 => unsym4 v), unsymbols m vs with
    | some bs, some rest => some (bs ++ rest)
    | _, _ => none

/-- The data bits of a byte, bit 7 first (20_memory.md R84). -/
def bitsOf (b : Byte) : List Bool := (List.range 8).map fun k => b.getLsbD (7 - k)

/-- SPI bits per data bit (42_ws2812_encoder.md R256). -/
def bitsPerSymbol : Packing → Nat
  | .m8 => 8
  | .m4 => 4

/-- `ceil(a / b)` for `b > 0`. -/
def ceilDiv (a b : Nat) : Nat := (a + b - 1) / b

/-- `SYNTH`: the SPI clock divider (42_ws2812_encoder.md R256). -/
def divider (c : StripConfig) (m : Packing) : Nat :=
  min (max (ceilDiv c.fRef (c.clockHz * bitsPerSymbol m)) 1) c.divMax

/-- The steps of a W command (42_ws2812_encoder.md R259). -/
inductive WStep where
  | enc (mode : EncMode) (n : BitVec 16)
  | synth
  | xfer
  | latch
  deriving DecidableEq, Repr

/-- The numbered steps of a W command (42_ws2812_encoder.md R250, R255, R259, R260). -/
def wsSteps : WsCmd → List WStep
  | .enc mode n => [.enc mode n]
  | .tx => [.synth, .xfer, .latch]
  | .display mode n => [.enc mode n, .synth, .xfer, .latch]

/-- The byte count of a W command (42_ws2812_encoder.md R250, R260); `ws.tx` has none. -/
def WsCmd.count : WsCmd → Nat
  | .enc _ n => n.toNat
  | .tx => 0
  | .display _ n => n.toNat

end Sys2Proof.Machine
end

