-- ==== Sys2Proof/Machine/HostMath.lean ====
section
/-! DEFINITION. The host's arithmetic (spec/48_host_reference.md): calibration load, servo mapping, pixel
storage, the colour wheel and frame positions. It is exact: rationals and integers (R300, 60 R367). -/

namespace Sys2Proof.Machine

/-! ### Calibration (R302, R303) -/

/-- One actuator of the configuration, checked (R302 items 1-4); a `channel` that is no integer fails. -/
def loadActuator (r : RawActuator) : Option Actuator :=
  match r.channel, r.minPulse, r.maxPulse, r.defaultAngle with
  | some (.int ch), some lo, some hi, some dflt =>
    let loA := r.minAngle.getD 0
    let hiA := r.maxAngle.getD 180
    if 0 ≤ ch ∧ ch ≤ 15 ∧ lo < hi ∧ loA < hiA then
      some { name := r.name, channel := BitVec.ofInt 8 ch, minPulse := lo, maxPulse := hi
             minAngle := loA, maxAngle := hiA, defaultAngle := dflt }
    else none
  | _, _, _, _ => none

/-- Every actuator in declared order; none if one fails. -/
def loadActuators : List RawActuator → Option (List Actuator)
  | [] => some []
  | r :: rs =>
    match loadActuator r, loadActuators rs with
    | some a, some as => some (a :: as)
    | _, _ => none

/-- Configuration load (R302): none is `ConfigurationError`; item 5, no two actuators share a channel. -/
def loadCalibration (raws : List RawActuator) : Option (List Actuator) :=
  match loadActuators raws with
  | none => none
  | some table => if (table.map (·.channel)).Nodup then some table else none

/-- The entry of a name. -/
def findActuator (table : List Actuator) (name : String) : Option Actuator :=
  table.find? fun a => decide (a.name = name)

/-! ### Servo mapping (R304-R306) -/

/-- `clamp(v, lo, hi)` on rationals (00_scope.md R14). -/
def clampRat (v lo hi : Rat) : Rat := min (max v lo) hi

/-- The frequency the host assumes: `FREQ.HZ` if `FREQ.VALID`, else `DEFAULT_FREQ` (R304). -/
def assumedFreq (default : BitVec 16) (freq : Option Word) : Nat :=
  match freq with
  | some w => if w.getLsbD 16 then (w.extractLsb' 0 16).toNat else default.toNat
  | none => default.toNat

/-- `PulseToDuty(u)` at frequency `f` (R304). -/
def pulseToDuty (f : Nat) (u : Rat) : BitVec 12 :=
  BitVec.ofInt 12 (clamp (u * 4096 * (f : Rat) / 1000000).floor 0 4095)

/-- The pulse of an angle: clamped, then interpolated exactly (R305). -/
def anglePulse (e : Actuator) (a : Rat) : Rat :=
  e.minPulse + (clampRat a e.minAngle e.maxAngle - e.minAngle) / (e.maxAngle - e.minAngle) * (e.maxPulse - e.minPulse)

/-- The pulse of `move_to_pulse`: clamped (R306). -/
def clampPulse (e : Actuator) (u : Rat) : Rat := clampRat u e.minPulse e.maxPulse

/-! ### Pixels (R310, R311, R316) -/

/-- A colour component after brightness scaling, rounded down (R310). -/
def scaled (brightness v : Byte) : Byte := BitVec.ofNat 8 (v.toNat * brightness.toNat / 255)

/-- A triple in the strip's channel order (R310): GRB stores green first. -/
def permute (o : ChannelOrder) (r g b : Byte) : List Byte :=
  match o with
  | .rgb => [r, g, b]
  | .rbg => [r, b, g]
  | .grb => [g, r, b]
  | .gbr => [g, b, r]
  | .brg => [b, r, g]
  | .bgr => [b, g, r]

/-- The three bytes a pixel stores (R310). -/
def pixelBytes (c : StripConfig) (r g b : Byte) : List Byte :=
  permute c.channelOrder (scaled c.brightness r) (scaled c.brightness g) (scaled c.brightness b)

/-- `wheel(p)` for `p` in 0..255 (R316). -/
def wheel (p : Nat) : Byte × Byte × Byte :=
  if p < 85 then (BitVec.ofNat 8 (255 - 3 * p), BitVec.ofNat 8 (3 * p), 0)
  else if p < 170 then (0, BitVec.ofNat 8 (255 - 3 * (p - 85)), BitVec.ofNat 8 (3 * (p - 85)))
  else (BitVec.ofNat 8 (3 * (p - 170)), 0, BitVec.ofNat 8 (255 - 3 * (p - 170)))

/-- The wheel position of pixel `i` of `n` (R313). -/
def wheelPos (n i offset : Nat) : Nat := (i * 256 / n + offset) % 256

/-- The output frequency of the PCA9685 for a stored prescale, informative (40_pwm_slave.md R160). -/
def outputFreq (prescaleReg : Byte) : Rat := 25000000 / (4096 * ((prescaleReg.toNat : Rat) + 1))

end Sys2Proof.Machine
end

