-- ==== Sys2Proof/Machine/Slave.lean ====
section
/-! DEFINITION. The PCA9685 slave (spec/40_pwm_slave.md): address decode, the effect of each register
read and write, and what a failed transaction leaves; then one bus transaction of each form as a whole
(spec/41_pwm_commands.md R193-R195). -/

namespace Sys2Proof.Machine

/-! ### Device-address decode -/

/-- The result of device-address decode (R140). -/
inductive AddrHit where
  | generalCall
  | selected
  | nack
  | refuse (r : RefuseReason)
  deriving DecidableEq, Repr

/-- An enabled all-call or sub-address matches (R140): `MODE1` bits 0, 3, 2, 1 with the addresses in bits
7:1 of 0x05, 0x02, 0x03, 0x04. -/
def alternateHit (sl : Slave) (a : BitVec 7) : Bool :=
  let mode1 := srRead sl 0x00
  (mode1.getLsbD 0 && a == (srRead sl 0x05).extractLsb' 1 7)
    || (mode1.getLsbD 3 && a == (srRead sl 0x02).extractLsb' 1 7)
    || (mode1.getLsbD 2 && a == (srRead sl 0x03).extractLsb' 1 7)
    || (mode1.getLsbD 1 && a == (srRead sl 0x04).extractLsb' 1 7)

/-- `Decode(A, RW)` (R140). -/
def decodeAddr (slaveAddr : BitVec 7) (sl : Slave) (a : BitVec 7) (read : Bool) : AddrHit :=
  if a = 0 then (if read then .refuse .generalCallRead else .generalCall)
  else if a = slaveAddr then .selected
  else if alternateHit sl a then (if read then .refuse .subaddressRead else .selected)
  else .nack

/-! ### Registers -/

/-- `MODE1.SLEEP` (10_state.md R42). -/
def asleep (sl : Slave) : Bool := (srRead sl 0x00).getLsbD 4

/-- The oscillator after `SLEEP` goes from `old` to `new` (R144, 10_state.md R47). -/
def oscAfter (old new : Bool) (o : Osc) : Osc :=
  if !old && new then .stopped else if old && !new then .waking else o

/-- `Mode1Write(d)` (R144). -/
def mode1Write (d : Byte) (sl : Slave) : Except RefuseReason Slave :=
  if d.getLsbD 7 then .error .restartWrite
  else if d.getLsbD 6 then .error .extclkWrite
  else .ok { srWrite 0x00 (d &&& 0x3F) sl with osc := oscAfter (asleep sl) (d.getLsbD 4) sl.osc }

/-- The write of one LED register (R148, R149): a low register takes all bits, a high one bits 4:0. -/
def ledWrite (r : Nat) (d : Byte) (sl : Slave) : Slave :=
  if (r - 0x06) % 2 = 0 then srWrite r d sl else srWrite r (d &&& 0x1F) sl

/-- `AllLedWrite(k, d)` for the channels below `n` (R150). -/
def allLedWrite (k : Nat) (d : Byte) : Nat → Slave → Slave
  | 0, sl => sl
  | n + 1, sl => ledWrite (0x06 + 4 * n + k) d (allLedWrite k d n sl)

/-- `PrescaleWrite(d)` (R152): dropped while awake; a value below the minimum is stored as the minimum. -/
def prescaleWrite (d : Byte) (sl : Slave) : Slave :=
  if asleep sl then srWrite 0xFE (if d.toNat < Config.prescaleMin then BitVec.ofNat 8 Config.prescaleMin else d) sl
  else sl

/-- `SlaveWrite(r, d)` (R142). -/
def slaveWrite (reg d : Byte) (sl : Slave) : Except RefuseReason Slave :=
  let r := reg.toNat
  if r = 0x00 then mode1Write d sl
  else if r = 0x01 then .ok (srWrite 0x01 (d &&& 0x1F) sl)
  else if r ≤ 0x05 then .ok (srWrite r d sl)
  else if r ≤ 0x45 then .ok (ledWrite r d sl)
  else if r ≤ 0xF9 then .error .reservedRegWrite
  else if r ≤ 0xFD then .ok (allLedWrite (r - 0xFA) d 16 sl)
  else if r = 0xFE then .ok (prescaleWrite d sl)
  else .error .testmodeWrite

/-- `SlaveRead(r)` (R143); the bits and bytes the spec draws come from `free`. -/
def slaveRead (reg free : Byte) (sl : Slave) : Byte :=
  let r := reg.toNat
  if r = 0x00 then (free &&& 0x80) ||| (srRead sl 0x00 &&& 0x3F)
  else if r = 0x01 then srRead sl 0x01
  else if r ≤ 0x05 then (srRead sl r &&& 0xFE) ||| (free &&& 0x01)
  else if r ≤ 0x45 then srRead sl r
  else if r = 0xFE then srRead sl 0xFE
  else free

/-- `GeneralCall(d)` (R141): every register to its reset value, the oscillator stopped. -/
def generalCall (d : Byte) : Except RefuseReason Slave :=
  if d = 0x06 then .ok { sr := [], osc := .stopped } else .error .generalCallData

/-! ### Failed transactions -/

/-- Write free bytes to registers, one each: the byte for register `r` is number `r` from the count. -/
def scrambleRegs (count : Nat) : List Nat → Slave → Slave
  | [], sl => sl
  | r :: rs, sl => scrambleRegs count rs (srWrite r (Config.freeByte (count + r)) sl)

/-- The registers a register write could change (R157, R142). -/
def writeTargets (reg : Byte) : List Nat :=
  let r := reg.toNat
  if r ≤ 0x45 then [r]
  else if r ≤ 0xF9 then []
  else if r ≤ 0xFD then (List.range 16).map fun n => 0x06 + 4 * n + (r - 0xFA)
  else if r = 0xFE then [r]
  else []

/-- The slave after a failed register write (R157). -/
def scrambleWrite (count : Nat) (reg : Byte) (sl : Slave) : Slave :=
  let sl' := scrambleRegs count (writeTargets reg) sl
  if reg = 0x00 then { sl' with osc := Config.freeOsc count } else sl'

/-- The slave after a failed software reset (R157): everything holds any value. -/
def scrambleAll (count : Nat) (sl : Slave) : Slave :=
  { scrambleRegs count implementedRegs sl with osc := Config.freeOsc count }

/-- The free values one transaction may use: one for each register address. -/
def freePerTransaction : Nat := 256

/-! ### One transaction -/

/-- Put the slave's new state into the machine, moving past the transaction's free values. -/
def withSlave (sl : Slave) (s : State) : State := advance freePerTransaction { s with slave := sl }

/-- Record a hung I2C bus (41_pwm_commands.md R192, 10_state.md R40). -/
def hangBus (s : State) : State := { s with unitP := { s.unitP with i2cHung := true } }

/-- `I2C_WR(a, reg, d)` on the bus (41_pwm_commands.md R193): the draw, the address decode, the slave, the
log. With the bus hung no transaction takes place (R231). Address 0x00 is the general call and selects no device:
a register transaction there is not acknowledged (10_state.md R37, 60_exceptions.md R352; DEDUCED,
notes/assumptions/9.md). -/
def transactWr (a : BitVec 7) (reg d : Byte) (s : State) : TxReturn × State :=
  if s.unitP.i2cHung then (.held, s)
  else
    let s1 := afterDraw s
    let entry (o : BusOutcome) : BusEntry := { kind := .wr, a7 := a, reg := some reg, data := some d, outcome := o }
    match decodeAddr s.cfg.slaveAddr s.slave a false with
    | .nack | .generalCall => (.fail, logBus (entry .nack) s1)
    | .refuse r => (.refused, refuse r s1)
    | .selected =>
      match nextDraw s with
      | .ok =>
        match slaveWrite reg d s.slave with
        | .error r => (.refused, refuse r s1)
        | .ok sl => (.ok none, logBus (entry .ok) (withSlave sl s1))
      | .fail => (.fail, logBus (entry .fail) (withSlave (scrambleWrite s1.env.count reg s.slave) s1))
      | .hang => (.hang, logBus (entry .hang) (hangBus (withSlave (scrambleWrite s1.env.count reg s.slave) s1)))

/-- `I2C_RD(a, reg)` on the bus (41_pwm_commands.md R194). A read changes no slave state, failed or not
(40_pwm_slave.md R143, R157). Address 0x00 is not acknowledged (notes/assumptions/9.md); when a read through an
alternate address is refused: notes/assumptions/10.md. -/
def transactRd (a : BitVec 7) (reg : Byte) (s : State) : TxReturn × State :=
  if s.unitP.i2cHung then (.held, s)
  else
    let s1 := afterDraw s
    let entry (v : Option Byte) (o : BusOutcome) : BusEntry :=
      { kind := .rd, a7 := a, reg := some reg, data := v, outcome := o }
    match decodeAddr s.cfg.slaveAddr s.slave a false with
    | .nack | .generalCall => (.fail, logBus (entry none .nack) s1)
    | .refuse r => (.refused, refuse r s1)
    | .selected =>
      match nextDraw s with
      | .ok =>
        match decodeAddr s.cfg.slaveAddr s.slave a true with
        | .refuse r => (.refused, refuse r s1)
        | .selected | .generalCall | .nack =>
          let v := slaveRead reg (freeByte s1 0) s.slave
          (.ok (some v), logBus (entry (some v) .ok) (advance freePerTransaction s1))
      | .fail => (.fail, logBus (entry none .fail) s1)
      | .hang => (.hang, logBus (entry none .hang) (hangBus s1))

/-- `I2C_GC(d)` on the bus (41_pwm_commands.md R195). The general-call address is always acknowledged; a data
byte other than 0x06 is refused (40_pwm_slave.md R141), whatever the draw (DEDUCED, notes/assumptions/9.md). -/
def transactGc (d : Byte) (s : State) : TxReturn × State :=
  if s.unitP.i2cHung then (.held, s)
  else
    let s1 := afterDraw s
    let entry (o : BusOutcome) : BusEntry := { kind := .gc, a7 := 0, reg := none, data := some d, outcome := o }
    match generalCall d with
    | .error r => (.refused, refuse r s1)
    | .ok sl =>
      match nextDraw s with
      | .ok => (.ok none, logBus (entry .ok) (withSlave sl s1))
      | .fail => (.fail, logBus (entry .fail) (withSlave (scrambleAll s1.env.count s.slave) s1))
      | .hang => (.hang, logBus (entry .hang) (hangBus (withSlave (scrambleAll s1.env.count s.slave) s1)))

/-- Perform a transaction for whoever `sel` names and hand over its outcome (41_pwm_commands.md R192). -/
def perform (tx : State → TxReturn × State) (s : State) : State := deliver (tx s).1 (tx s).2

end Sys2Proof.Machine
end

