-- ==== Sys2Proof/Machine/I2c.lean ====
section
/-! DEFINITION. The meanings of the three bus transactions (spec/30_encoding.md R116-R118): one atomic
transaction, performed for the sequencer context or for the bare master that `sel` names. -/

namespace Sys2Proof.Machine

/-- `I2C_WR` (40_pwm_slave.md R142, R157; 41_pwm_commands.md R192, R193). -/
def execI2cWr (a : BitVec 7) (reg d : Byte) (s : State) : Host.Outcome State Fault Refusal :=
  .next (perform (transactWr a reg d) s)

/-- `I2C_RD` (40_pwm_slave.md R143, R157; 41_pwm_commands.md R192, R194). -/
def execI2cRd (a : BitVec 7) (reg : Byte) (s : State) : Host.Outcome State Fault Refusal :=
  .next (perform (transactRd a reg) s)

/-- `I2C_GC` (40_pwm_slave.md R141, R157; 41_pwm_commands.md R192, R195). -/
def execI2cGc (d : Byte) (s : State) : Host.Outcome State Fault Refusal :=
  .next (perform (transactGc d) s)

end Sys2Proof.Machine
end

