-- ==== Sys2Proof/Machine/Issue.lean ====
section
/-! DEFINITION. The issue step shared by the commands (spec/41_pwm_commands.md R190, R233;
spec/42_ws2812_encoder.md R254): the port is held while busy, an illegal word and a value error complete
at once, and an accepted command is fixed in its port or queued at its strip. -/

namespace Sys2Proof.Machine

/-- Some other PWM port has an active command that `test` picks out (R233). -/
def otherActive (ports : List PwmPort) (p : Nat) (test : Option PwmCmd → Bool) : Bool :=
  (List.range ports.length).any fun q =>
    q != p && match ports[q]? with
      | some Q => Q.status.busy && test Q.op
      | none => false

/-- `pwm.init` and `pwm.freq` are the exclusive commands (R233). -/
def exclusive : Option PwmCmd → Bool
  | some (.init _) => true
  | some (.freq _) => true
  | some (.chan _ _) => false
  | none => false

/-- `CheckExclusive(p, op)`: does the issue of `c` on port `p` conflict (R233)? -/
def conflicts (ports : List PwmPort) (p : Nat) (c : PwmCmd) : Bool :=
  if exclusive (some c) then otherActive ports p fun _ => true else otherActive ports p exclusive

/-- `IssueEffect(op, w)` (R200, R210): `pwm.init` takes the device address and clears `F_CONF.VALID`. -/
def issueEffect (c : PwmCmd) (u : PwmUnit) : PwmUnit :=
  match c with
  | .init a => { u with devAddr := a, fConf := { u.fConf with valid := false } }
  | .freq _ => u
  | .chan _ _ => u

/-- The port of an accepted command (R190). -/
def acceptedPort (cfg : Params) (c : PwmCmd) (stamp : Nat) (P : PwmPort) : PwmPort :=
  { P with
    status := P.status.active, op := some c, seq := commandSeq cfg c, upc := 0, tmp := none, stamp := some stamp
    stuck := false }

/-- An accepted command on port `p`, whose contents are `P` (R190). -/
def acceptPwm (p : Nat) (P : PwmPort) (c : PwmCmd) (s : State) : State :=
  let s1 := if conflicts s.unitP.ports p c then markFault .seqConflict s else s
  { s1 with
    unitP :=
      issueEffect c
        { s.unitP with
          issueCtr := s.unitP.issueCtr + 1
          ports := s.unitP.ports.set p (acceptedPort s.cfg c s.unitP.issueCtr P) } }

/-- An illegal word at the port `sel` names: `ILLEGAL_COMMAND` and nothing else (30_encoding.md R114); a busy
port holds (60_exceptions.md R358). -/
def issueIllegal (s : State) : Host.Outcome State Fault Refusal :=
  match s.sel with
  | .pwm p =>
    match s.unitP.ports[p]? with
    | none => .fault .noSuchPort
    | some P => .next (if P.status.busy then s else completePwm p .illegalCommand 0 s)
  | .ws i q =>
    match s.strips[i]? with
    | none => .fault .noSuchPort
    | some u =>
      match u.ports[q]? with
      | none => .fault .noSuchPort
      | some P => .next (if P.status.busy then s else completeWs i q .illegalCommand 0 s)
  | .direct => .fault .noSuchPort

/-- Issue of a unit P command at the port `sel` names (R190). At a W port the word is illegal
(30_encoding.md R113, R114). -/
def issuePwm (c : PwmCmd) (s : State) : Host.Outcome State Fault Refusal :=
  match s.sel with
  | .pwm p =>
    match s.unitP.ports[p]? with
    | none => .fault .noSuchPort
    | some P =>
      .next
        (if P.status.busy then s
        else match validate c with
          | some code => completePwm p code 0 s
          | none => acceptPwm p P c s)
  | .ws _ _ => issueIllegal s
  | .direct => .fault .noSuchPort

/-- An accepted command on W port `q`: the port is busy and the command is the last of the queue (R254). -/
def acceptWs (q : Nat) (P : WPort) (c : WsCmd) (u : WUnit) : WUnit :=
  { u with
    ports := u.ports.set q { P with status := P.status.active, upc := 0 }
    queue := u.queue ++ [(q, c)] }

/-- Issue of a W command at the port `sel` names (R254). At a PWM port the word is illegal
(30_encoding.md R113, R114). -/
def issueWs (c : WsCmd) (s : State) : Host.Outcome State Fault Refusal :=
  match s.sel with
  | .pwm _ => issueIllegal s
  | .ws i q =>
    match s.strips[i]? with
    | none => .fault .noSuchPort
    | some u =>
      match u.ports[q]? with
      | none => .fault .noSuchPort
      | some P =>
        .next
          (if P.status.busy then s
          else if ibufSize u.conf < c.count then completeWs i q .bufferRange 0 s
          else setStrip i (acceptWs q P c u) s)
  | .direct => .fault .noSuchPort

end Sys2Proof.Machine
end

