-- ==== Sys2Proof/Machine/Pwm.lean ====
section
/-! DEFINITION. The meanings of the unit P commands: the issue step of each (spec/41_pwm_commands.md R190).
The micro-ops the command then runs are steps of its port's sequencer context (Machine/Sequencer.lean). -/

namespace Sys2Proof.Machine

/-- `pwm.init ADDR7` (R200). -/
def execPwmInit (addr7 : BitVec 7) (s : State) : Host.Outcome State Fault Refusal := issuePwm (.init addr7) s

/-- `pwm.freq HZ` (R210). -/
def execPwmFreq (hz : BitVec 16) (s : State) : Host.Outcome State Fault Refusal := issuePwm (.freq hz) s

/-- `pwm.chan CH, DUTY` (R220). -/
def execPwmChan (ch : BitVec 8) (duty : BitVec 12) (s : State) : Host.Outcome State Fault Refusal :=
  issuePwm (.chan ch duty) s

/-- `pwm.zero CH` is `pwm.chan CH, 0` (30_encoding.md R125). -/
def execPwmZero (ch : BitVec 8) (s : State) : Host.Outcome State Fault Refusal := issuePwm (.chan ch 0) s

end Sys2Proof.Machine
end

