-- ==== Sys2Proof/Machine/Ws.lean ====
section
/-! DEFINITION. The meanings of the W commands: the issue step of each (spec/42_ws2812_encoder.md R254).
The steps the command then runs are steps of its strip's W unit (Machine/Transmitter.lean). -/

namespace Sys2Proof.Machine

/-- `ws.enc m8, N` (R250). -/
def execWsEncM8 (n : BitVec 16) (s : State) : Host.Outcome State Fault Refusal := issueWs (.enc .m8 n) s

/-- `ws.enc m4, N` (R250). -/
def execWsEncM4 (n : BitVec 16) (s : State) : Host.Outcome State Fault Refusal := issueWs (.enc .m4 n) s

/-- `ws.enc auto, N` (R250). -/
def execWsEncAuto (n : BitVec 16) (s : State) : Host.Outcome State Fault Refusal := issueWs (.enc .auto n) s

/-- `ws.tx` (R255). -/
def execWsTx (s : State) : Host.Outcome State Fault Refusal := issueWs .tx s

/-- `ws.show m8, N` (R260). -/
def execWsShowM8 (n : BitVec 16) (s : State) : Host.Outcome State Fault Refusal := issueWs (.display .m8 n) s

/-- `ws.show m4, N` (R260). -/
def execWsShowM4 (n : BitVec 16) (s : State) : Host.Outcome State Fault Refusal := issueWs (.display .m4 n) s

/-- `ws.show auto, N` (R260). -/
def execWsShowAuto (n : BitVec 16) (s : State) : Host.Outcome State Fault Refusal := issueWs (.display .auto n) s

/-- `ws.frame N` is `ws.show auto, N` (30_encoding.md R125). -/
def execWsFrame (n : BitVec 16) (s : State) : Host.Outcome State Fault Refusal := issueWs (.display .auto n) s

end Sys2Proof.Machine
end

