-- ==== Sys2Proof/Machine/Dispatch.lean ====
section
/-! DEFINITION. The dispatch: one arm per constructor of Instr, each one call of its meaning. -/

namespace Sys2Proof.Machine

def exec (i : Instr) (s : State) : Host.Outcome State Fault Refusal :=
  match i with
  | .pwmInit addr7 => Sys2Proof.Machine.execPwmInit addr7 s
  | .pwmFreq hz => Sys2Proof.Machine.execPwmFreq hz s
  | .pwmChan ch duty => Sys2Proof.Machine.execPwmChan ch duty s
  | .wsEncM8 n => Sys2Proof.Machine.execWsEncM8 n s
  | .wsEncM4 n => Sys2Proof.Machine.execWsEncM4 n s
  | .wsEncAuto n => Sys2Proof.Machine.execWsEncAuto n s
  | .wsTx => Sys2Proof.Machine.execWsTx s
  | .wsShowM8 n => Sys2Proof.Machine.execWsShowM8 n s
  | .wsShowM4 n => Sys2Proof.Machine.execWsShowM4 n s
  | .wsShowAuto n => Sys2Proof.Machine.execWsShowAuto n s
  | .pwmZero ch => Sys2Proof.Machine.execPwmZero ch s
  | .wsFrame n => Sys2Proof.Machine.execWsFrame n s
  | .i2cWr addr reg data => Sys2Proof.Machine.execI2cWr addr reg data s
  | .i2cRd addr reg => Sys2Proof.Machine.execI2cRd addr reg s
  | .i2cGc data => Sys2Proof.Machine.execI2cGc data s

end Sys2Proof.Machine
end

