-- ==== Sys2Proof/Machine/Sequencer.lean ====
section
/-! DEFINITION. The sequencer context of a PWM port: one micro-op a step (spec/41_pwm_commands.md R192-R196,
R230-R232). A micro-op that is a transaction runs that transaction's instruction. -/

namespace Sys2Proof.Machine

/-- A port has an active `pwm.chan` on channel `ch` with an earlier stamp (R232). -/
def earlierSameChannel (ch : BitVec 8) (stamp : Option Nat) (Q : PwmPort) : Bool :=
  Q.status.busy && match Q.op, Q.stamp, stamp with
    | some (.chan ch' _), some earlier, some mine => ch' == ch && decide (earlier < mine)
    | _, _, _ => false

/-- The same-channel hold of port `p`, whose contents are `P` (R232). -/
def heldByChannel (ports : List PwmPort) (p : Nat) (P : PwmPort) : Bool :=
  match P.op with
  | some (.chan ch _) =>
    (List.range ports.length).any fun q =>
      q != p && match ports[q]? with
        | some Q => earlierSameChannel ch P.stamp Q
        | none => false
  | some (.init _) => false
  | some (.freq _) => false
  | none => false

/-- The next micro-op of a port that may take a step, as far as the port and its neighbours decide it
(R192, R232). -/
def nextMicroOp (ports : List PwmPort) (p : Nat) : Option MicroOp :=
  match ports[p]? with
  | none => none
  | some P => if P.pending && !heldByChannel ports p P then P.seq[P.upc.toNat]? else none

/-- The instruction a micro-op runs; a wait runs none (R193-R196). -/
def microInstr (devAddr : BitVec 7) (tmp : Option Byte) (free : Byte) : MicroOp → Option Instr
  | .gc d => some (.i2cGc d)
  | .rd reg => some (.i2cRd devAddr reg)
  | .wr reg v => some (.i2cWr devAddr reg (wrValue tmp free v))
  | .wait _ => none

/-- `TMP` of a port. -/
def portTmp (ports : List PwmPort) (p : Nat) : Option Byte := (ports[p]?).bind (·.tmp)

/-- `WAIT(t)` is not enabled while a start-up wait is due and the oscillator is waking (R196). -/
def waitEnabled (o : Osc) (us : Nat) : Bool := !(decide (Config.oscWaitUs ≤ us) && o == .waking)

/-- One step of the sequencer context of port `p` (R192): the micro-op, if it is enabled; else nothing. A
transaction while the bus is hung is not enabled: its instruction then leaves the state as it is (R231). -/
def seqStep (p : Nat) (s : State) : Host.Outcome State Fault Refusal :=
  match nextMicroOp s.unitP.ports p with
  | none => .next s
  | some (.wait us) => .next (if waitEnabled s.slave.osc us then settle p (.ok none) s else s)
  | some m =>
    match microInstr s.unitP.devAddr (portTmp s.unitP.ports p) (freeByte s 0) m with
    | none => .next s
    | some i => exec i { s with sel := .pwm p }

/-- The oscillator's own step (40_pwm_slave.md R156): from waking to running. -/
def oscStep (s : State) : State :=
  match s.slave.osc with
  | .waking => { s with slave := { s.slave with osc := .running } }
  | .stopped => s
  | .running => s

/-- The reason that refuses a bare register transaction at the general-call address 0x00: a write there has two
data bytes (40_pwm_slave.md R158), a read there is a general-call read (R140). DEDUCED, notes/assumptions/9.md. -/
def bareRefusal : Instr → Option RefuseReason
  | .i2cWr a _ _ => if a = 0 then some .multibyteForm else none
  | .i2cRd a _ => if a = 0 then some .generalCallRead else none
  | _ => none

/-- A bare master puts its next frame on the bus: the frame's instruction, or the refusal of its form
(40_pwm_slave.md R140, R158). With the bus hung the frame waits. The hardware has no such master
(92_eei_decisions.md D43, notes/assumptions/13.md). -/
def masterStep (s : State) : Host.Outcome State Fault Refusal :=
  match s.frames with
  | [] => .next s
  | f :: rest =>
    if s.unitP.i2cHung then .next s
    else match decodeFrame f with
      | .ok i =>
        match bareRefusal i with
        | some r => .next (refuse r { s with frames := rest })
        | none => exec i { s with frames := rest, sel := .direct }
      | .error e => .next (refuse (frameRefusal e) { s with frames := rest })

end Sys2Proof.Machine
end

