-- ==== Sys2Proof/Machine/HostAgent.lean ====
section
/-! DEFINITION. The host threads (spec/48_host_reference.md): the interactions with the block (R300), with
the accesses that are refused (60_exceptions.md R356), and the operations as programs of them (R302-R316). -/

namespace Sys2Proof.Machine

/-! ### Threads -/

/-- Replace thread `k`. -/
def setThread (k : Nat) (t : Thread) (s : State) : State :=
  { s with host := { s.host with threads := s.host.threads.set k t } }

/-- Add a result to a thread. -/
def Thread.returns (t : Thread) (tag : Option String) (r : HostResult) : Thread :=
  { t with results := t.results ++ [(tag, r)] }

/-- A result is an error (R301). -/
def HostResult.isError : HostResult → Bool
  | .ok => false
  | .status e => e != .ok
  | .configurationError => true
  | .unknownActuator => true
  | .indexOutOfRange => true

/-- The host-side code of a result (R301; 60_exceptions.md R350). -/
def HostResult.code : HostResult → Byte
  | .ok => 0x00
  | .status e => e.code
  | .configurationError => 0x10
  | .unknownActuator => 0x11
  | .indexOutOfRange => 0x12

/-! ### Port accesses (20_memory.md R81, R86) -/

/-- `STATUS` of the port, if the platform has it. -/
def portStatus (s : State) : PortSel → Option Status
  | .pwm p => (s.unitP.ports[p]?).map (·.status)
  | .ws i q => (s.strips[i]?).bind fun u => (u.ports[q]?).map (·.status)
  | .direct => none

/-- Keep the word the host writes in the port's `CMD` register (10_state.md R33, R48). -/
def storeCmd (π : PortSel) (w : Word) (s : State) : State :=
  match π with
  | .pwm p =>
    match s.unitP.ports[p]? with
    | none => s
    | some P => setPort p { P with cmd := some w } s
  | .ws i q =>
    match s.strips[i]? with
    | none => s
    | some u =>
      match u.ports[q]? with
      | none => s
      | some P => setStrip i (setWPort q { P with cmd := some w } u) s
  | .direct => s

/-- The command a word is, or none when it is illegal at every port (30_encoding.md R114). -/
def runWord (π : PortSel) (w : Word) (s : State) : Host.Outcome State Fault Refusal :=
  match decodeWord w with
  | .ok i => exec i { storeCmd π w s with sel := π }
  | .error _ => issueIllegal { storeCmd π w s with sel := π }

/-- The port window's registers (20_memory.md R81). -/
inductive PortReg where
  | cmd
  | status
  | freq
  deriving DecidableEq, Repr

/-- The register an access reaches, or why it is refused: its width or alignment first (R86), then the
offset (R81). A W port has no `FREQ`. -/
def portReg (π : PortSel) (offset width : Nat) : Except RefuseReason PortReg :=
  if width ≠ 32 ∨ offset % 4 ≠ 0 then .error .portWidth
  else if offset = 0 then .ok .cmd
  else if offset = 4 then .ok .status
  else if offset = 8 then
    match π with
    | .pwm _ => .ok .freq
    | .ws _ _ => .error .portOffset
    | .direct => .error .portOffset
  else .error .portOffset

/-- A host write to a port window, by thread `k`, which then is `t` (R300). A write of `CMD` issues the word
and is held while the port is busy (41_pwm_commands.md R190); the other registers refuse writes (R356). -/
def portWrite (k : Nat) (t : Thread) (π : PortSel) (offset width : Nat) (v : Word) (s : State) :
    Host.Outcome State Fault Refusal :=
  match portStatus s π with
  | none => .fault .noSuchPort
  | some st =>
    match portReg π offset width with
    | .error r => .next (refuse r (setThread k t s))
    | .ok .cmd => if st.busy then .next s else runWord π v (setThread k t s)
    | .ok .status => .next (refuse .statusWrite (setThread k t s))
    | .ok .freq => .next (refuse .freqWrite (setThread k t s))

/-- A host read from a port window (R300): `STATUS` and `FREQ` give their word, `CMD` refuses (R356). -/
def portRead (k : Nat) (t : Thread) (π : PortSel) (offset width : Nat) (s : State) :
    Host.Outcome State Fault Refusal :=
  match portStatus s π with
  | none => .fault .noSuchPort
  | some st =>
    match portReg π offset width with
    | .error r => .next (refuse r (setThread k { t with got := none } s))
    | .ok .cmd => .next (refuse .cmdRead (setThread k { t with got := none } s))
    | .ok .status => .next (setThread k { t with got := some (statusWord st) } s)
    | .ok .freq => .next (setThread k { t with got := some (freqWord s.unitP.fConf) } s)

/-- The bytes of a port's window: three words, or two (R81). -/
def windowSize : PortSel → Nat
  | .pwm _ => 12
  | .ws _ _ => 8
  | .direct => 0

/-- The port whose window holds an address, with the offset in it (R81); `bases` is `PORT_BASE`. Where the platform
lets two windows overlap the first listed counts (DESIGN CHOICE, notes/assumptions/26.md). -/
def portAt : List (PortSel × Nat) → Nat → Option (PortSel × Nat)
  | [], _ => none
  | (π, base) :: rest, addr =>
    if base ≤ addr ∧ addr < base + windowSize π then some (π, addr - base) else portAt rest addr

/-- Why an access at an address in no window is refused (93_implementation_defined.md I10; R86 first). -/
def outsideWindow (addr width : Nat) : RefuseReason :=
  if width ≠ 32 ∨ addr % 4 ≠ 0 then .portWidth else .portOffset

/-- A host write at an address (R81, R91). -/
def addrWrite (k : Nat) (t : Thread) (addr width : Nat) (v : Word) (s : State) : Host.Outcome State Fault Refusal :=
  match portAt s.cfg.portBase addr with
  | some (π, offset) => portWrite k t π offset width v s
  | none => .next (refuse (outsideWindow addr width) (setThread k t s))

/-- A host read at an address (R81, R91). -/
def addrRead (k : Nat) (t : Thread) (addr width : Nat) (s : State) : Host.Outcome State Fault Refusal :=
  match portAt s.cfg.portBase addr with
  | some (π, offset) => portRead k t π offset width s
  | none => .next (refuse (outsideWindow addr width) (setThread k { t with got := none } s))

/-- Hold until `BUSY` is 0, then read `STATUS` and return its code (R300, R301). -/
def await (k : Nat) (t : Thread) (π : PortSel) (tag : Option String) (s : State) :
    Host.Outcome State Fault Refusal :=
  match portStatus s π with
  | none => .fault .noSuchPort
  | some st =>
    .next
      (if st.busy then s
      else setThread k ({ t with got := some (statusWord st) }.returns tag (.status st.err)) s)

/-! ### Pixel bytes (20_memory.md R82) -/

/-- A host write of `IBUF[i][idx]`. -/
def ibufWrite (k : Nat) (t : Thread) (i idx : Nat) (v : Byte) (s : State) : Host.Outcome State Fault Refusal :=
  match s.strips[i]? with
  | none => .fault .noSuchStrip
  | some u =>
    .next
      (if idx < ibufSize u.conf then
        setThread k t (setStrip i { u with ibuf := Memory.write unwritten u.ibuf idx v } s)
      else refuse .ibufRange (setThread k t s))

/-- A host read of `IBUF[i][idx]`: an unwritten byte faults and returns no value. -/
def ibufRead (k : Nat) (t : Thread) (i idx : Nat) (s : State) : Host.Outcome State Fault Refusal :=
  match s.strips[i]? with
  | none => .fault .noSuchStrip
  | some u =>
    .next
      (if idx < ibufSize u.conf then
        match Memory.read unwritten u.ibuf idx with
        | some v => setThread k { t with got := some (v.setWidth 32) } s
        | none => markFault .unwrittenRead (setThread k { t with got := none } s)
      else refuse .ibufRange (setThread k { t with got := none } s))

/-! ### Operations as programs -/

/-- The command line of an instruction at a port (30_encoding.md R124); a bus transaction is no command. -/
def commandLine (π : PortSel) (i : Instr) : List HostOp :=
  match encodeWord i with
  | some w => [.command π w]
  | none => []

/-- The writes of one pixel (R310). -/
def pixelOps (s : Nat) (c : StripConfig) (i : Nat) (r g b : Byte) : List HostOp :=
  (pixelBytes c r g b).mapIdx fun j v => .ibufWrite s (3 * i + j) v

/-- The writes of `fill` (R311). -/
def fillOps (s : Nat) (c : StripConfig) (r g b : Byte) : List HostOp :=
  (List.range c.pixelCount).flatMap fun i => pixelOps s c i r g b

/-- The writes of `clear()` (R311). -/
def clearOps (s : Nat) (c : StripConfig) : List HostOp := fillOps s c 0 0 0

/-- The writes of wheel colours at an offset (R313). -/
def wheelOps (s : Nat) (c : StripConfig) (offset : Nat) : List HostOp :=
  (List.range c.pixelCount).flatMap fun i =>
    let rgb := wheel (wheelPos c.pixelCount i offset)
    pixelOps s c i rgb.1 rgb.2.1 rgb.2.2

/-- `ws.show auto, 3n` for the whole strip (R313-R315), `3n` cut to the 16 bits of N (DEDUCED,
notes/assumptions/24.md). -/
def showOps (π : PortSel) (c : StripConfig) : List HostOp :=
  commandLine π (.wsShowAuto (BitVec.ofNat 16 (3 * c.pixelCount)))

/-- The writes of a demo frame (R315). Wheel colours are spread over the strip as in R313 (DESIGN CHOICE,
notes/assumptions/23.md). -/
def demoOps (s : Nat) (c : StripConfig) : DemoFrame → List HostOp
  | .fill r g b => fillOps s c r g b
  | .wheel offset => wheelOps s c offset

/-- `startup_demo()` with the given frames, then the black frame (R315). It goes on after a frame whose command failed,
and is done after the last one all the same (DESIGN CHOICE, notes/assumptions/23.md). -/
def startupOps (π : PortSel) (s : Nat) (c : StripConfig) (frames : List DemoFrame) : List HostOp :=
  (frames.flatMap fun f => demoOps s c f ++ showOps π c) ++ clearOps s c ++ showOps π c ++ [.demoDone s]

/-- The boot order (R309): load, `pwm.init`, `pwm.freq`, clear every buffer, demos, start. After an error of one of the
two commands the thread drops all it had left, of boot and after it (DESIGN CHOICE, notes/assumptions/22.md); an error in
a demo does not stop boot (notes/assumptions/23.md). -/
def bootOps (π : PortSel) (demos : List (PortSel × Nat × List DemoFrame)) (s : State) : List HostOp :=
  [.loadConfig] ++ commandLine π (.pwmInit s.cfg.cfgPwmAddr) ++ [.checkOk]
    ++ commandLine π (.pwmFreq s.cfg.defaultFreq) ++ [.checkOk]
    ++ (s.strips.mapIdx fun i u => clearOps i u.conf).flatten
    ++ (demos.map fun d => .startupDemo d.1 d.2.1 d.2.2)
    ++ (List.range s.strips.length).map .start

/-- `move_to_angle` once the name is looked up (R305): read `FREQ`, issue, hold until done. -/
def moveOps (π : PortSel) (tag : Option String) (ch : BitVec 8) (u : Rat) : List HostOp :=
  [.portRead π 8 32, .chanPulse π ch u, .await π tag]

/-- The last result is no error. -/
def lastOk (t : Thread) : Bool :=
  match t.results.getLast? with
  | none => true
  | some (_, r) => !r.isError

/-- What `home_all()` over `n` actuators reports after their results: the first error among them, else `OK` (R307).
That the report is a result of its own is a DESIGN CHOICE (notes/assumptions/39.md). -/
def homeResult (n : Nat) (t : Thread) : HostResult :=
  (((t.results.drop (t.results.length - n)).map (·.2)).find? HostResult.isError).getD .ok

/-- What an operation does to the host's own state: the thread's new contents (its program with the
operation replaced by what it stands for) and the strip's animation; none is "hold". -/
structure HostEffect where
  thread : Thread
  anim : Option (Nat × Anim) := none

/-- Put an effect into the state. -/
def applyEffect (k : Nat) (e : HostEffect) (s : State) : State :=
  { s with
    host :=
      { s.host with
        threads := s.host.threads.set k e.thread
        anim := match e.anim with | some (i, a) => s.host.anim.set i a | none => s.host.anim } }

/-- Configuration load by thread `k`, which then has `t` left (R302). After a failure no thread has anything left
to do, so that the host issues no command at all. -/
def loadConfig (k : Nat) (t : Thread) (s : State) : State :=
  { s with
    host :=
      match loadCalibration s.cfg.servos with
      | some table =>
        { s.host with threads := s.host.threads.set k (t.returns none .ok), load := .loaded table }
      | none =>
        { s.host with
          threads := (s.host.threads.set k (t.returns none .configurationError)).map fun t => { t with prog := [] }
          load := .failed } }

/-- `start()`, `resume()` (R312): from the mode given to running; in any other mode, nothing. -/
def animRun (frm : AnimMode) (i : Nat) (t : Thread) (a : Anim) : HostEffect :=
  { thread := t.returns none .ok
    anim := if a.mode = frm then some (i, { a with mode := .running, running := true }) else none }

/-- `pause()` with the lock free (R314); its result is that of the black frame's command. -/
def animPause (k : Nat) (π : PortSel) (i : Nat) (c : StripConfig) (t : Thread) (a : Anim) : HostEffect :=
  if a.mode = .running then
    { thread := { t with prog := clearOps i c ++ showOps π c ++ [.unlock i] ++ t.prog }
      anim := some (i, { a with mode := .paused, running := false, lock := some k }) }
  else { thread := t.returns none .ok }

/-- The W port of a strip's animation task (R312; which of the strip's ports it is: notes/assumptions/40.md). -/
def taskPort (i : Nat) : PortSel := .ws i 0

/-- One turn of the animation task of strip `i`, with the lock free: a frame under the lock if the animation
runs, else nothing (R313, R314). -/
def animFrame (k i : Nat) (c : StripConfig) (t : Thread) (a : Anim) : HostEffect :=
  if a.mode = .running then
    { thread := { t with prog := wheelOps i c a.frameOffset ++ showOps (taskPort i) c ++ [.frameDone i] ++ t.prog }
      anim := some (i, { a with lock := some k }) }
  else { thread := t }

/-- `startup_demo()` (R315): at most once, before `start()`, which holds until the demo is done. -/
def animDemo (π : PortSel) (i : Nat) (c : StripConfig) (frames : List DemoFrame) (t : Thread) (a : Anim) : HostEffect :=
  if a.mode = .stopped ∧ a.demo = .notRun then
    { thread := { t with prog := startupOps π i c frames ++ t.prog }, anim := some (i, { a with demo := .running }) }
  else { thread := t.returns none .ok }

/-- The end of a frame (R313). -/
def frameDoneAnim (a : Anim) : Anim :=
  { a with
    frameOffset := (a.frameOffset + Config.wheelStep) % 256, frameIndex := a.frameIndex + 1, lock := none }

/-- A strip's configuration with its animation, if the platform has the strip. -/
def stripAnim (s : State) (i : Nat) : Option (StripConfig × Anim) :=
  match s.strips[i]?, s.host.anim[i]? with
  | some u, some a => some (u.conf, a)
  | _, _ => none

/-- The calibration table; before the load, and after a failed one, there is no entry. -/
def calibration (s : State) : List Actuator :=
  match s.host.load with
  | .loaded table => table
  | .pending => []
  | .failed => []

/-- What an operation of R303-R316 does, for thread `k` that then has `t` left; none is "hold". An operation
on a strip that the platform does not have does nothing (notes/assumptions/20.md); one that issues no command
returns one result (notes/assumptions/39.md). The interactions of R300 and the load are not here. -/
def expandOp (k : Nat) (t : Thread) (s : State) : HostOp → Option HostEffect
  | .command π w => some { thread := { t with prog := [.portWrite π 0 32 w, .await π none] ++ t.prog } }
  | .ret tag r => some { thread := t.returns tag r }
  | .checkOk => some { thread := if lastOk t then t else { t with prog := [] } }
  | .moveToAngle π tag name a =>
    match findActuator (calibration s) name with
    | none => some { thread := t.returns tag .unknownActuator }
    | some e => some { thread := { t with prog := moveOps π tag e.channel (anglePulse e a) ++ t.prog } }
  | .moveToPulse π name u =>
    match findActuator (calibration s) name with
    | none => some { thread := t.returns none .unknownActuator }
    | some e => some { thread := { t with prog := moveOps π none e.channel (clampPulse e u) ++ t.prog } }
  | .chanPulse π ch u =>
    let d := pulseToDuty (assumedFreq s.cfg.defaultFreq t.got) u
    some
      { thread :=
          { t with
            prog := ((encodeWord (.pwmChan ch d)).toList.map fun w => HostOp.portWrite π 0 32 w) ++ t.prog } }
  | .homeAll π =>
    some
      { thread :=
          { t with
            prog :=
              ((calibration s).map fun e => HostOp.moveToAngle π (some e.name) e.name e.defaultAngle)
                ++ [.homeReport (calibration s).length] ++ t.prog } }
  | .homeReport n => some { thread := t.returns none (homeResult n t) }
  | .setPixel i idx r g b =>
    match stripAnim s i with
    | none => some { thread := t }
    | some (c, _) =>
      if idx < c.pixelCount then
        some { thread := { t with prog := pixelOps i c idx r g b ++ [.ret none .ok] ++ t.prog } }
      else some { thread := t.returns none .indexOutOfRange }
  | .fill i r g b =>
    match stripAnim s i with
    | none => some { thread := t }
    | some (c, _) => some { thread := { t with prog := fillOps i c r g b ++ [.ret none .ok] ++ t.prog } }
  | .clear i =>
    match stripAnim s i with
    | none => some { thread := t }
    | some (c, _) => some { thread := { t with prog := clearOps i c ++ [.ret none .ok] ++ t.prog } }
  | .start i =>
    match stripAnim s i with
    | none => some { thread := t }
    | some (_, a) => if a.demo = .running then none else some (animRun .stopped i t a)
  | .resume i =>
    match stripAnim s i with
    | none => some { thread := t }
    | some (_, a) => some (animRun .paused i t a)
  | .pause π i =>
    match stripAnim s i with
    | none => some { thread := t }
    | some (c, a) => if a.lock = none then some (animPause k π i c t a) else none
  | .frame i =>
    match stripAnim s i with
    | none => some { thread := t }
    | some (c, a) =>
      if t.task = some i then (if a.lock = none then some (animFrame k i c t a) else none) else some { thread := t }
  | .frameDone i =>
    match stripAnim s i with
    | none => some { thread := t }
    | some (_, a) => some { thread := t, anim := some (i, frameDoneAnim a) }
  | .unlock i =>
    match stripAnim s i with
    | none => some { thread := t }
    | some (_, a) => some { thread := t, anim := some (i, { a with lock := none }) }
  | .startupDemo π i frames =>
    match stripAnim s i with
    | none => some { thread := t }
    | some (c, a) => some (animDemo π i c frames t a)
  | .demoDone i =>
    match stripAnim s i with
    | none => some { thread := t }
    | some (_, a) => some { thread := t, anim := some (i, { a with demo := .done }) }
  | .boot π demos => some { thread := { t with prog := bootOps π demos s ++ t.prog } }
  | .portWrite _ _ _ _ => none
  | .portRead _ _ _ => none
  | .await _ _ => none
  | .ibufWrite _ _ _ => none
  | .ibufRead _ _ => none
  | .addrRead _ _ => none
  | .addrWrite _ _ _ => none
  | .loadConfig => none

/-- A thread `t` that has returned from its last operation: if it is a strip's animation task it begins the next
frame while the animation runs (R312, R313), else it has no step. After a failed load there is none (R302). -/
def idleStep (k : Nat) (t : Thread) (s : State) : State :=
  match t.task, s.host.load with
  | none, _ => s
  | some _, .failed => s
  | some i, _ =>
    match expandOp k t s (.frame i) with
    | none => s
    | some e => applyEffect k e s

/-- One step of host thread `k`: its next interaction, or its next operation replaced by what it stands for;
nothing while it is held or has nothing to do. -/
def hostStep (k : Nat) (s : State) : Host.Outcome State Fault Refusal :=
  match s.host.threads[k]? with
  | none => .next s
  | some t0 =>
    match t0.prog with
    | [] => .next (idleStep k t0 s)
    | op :: rest =>
      let t := { t0 with prog := rest }
      match op with
      | .portWrite π offset width v => portWrite k t π offset width v s
      | .portRead π offset width => portRead k t π offset width s
      | .await π tag => await k t π tag s
      | .ibufWrite i idx v => ibufWrite k t i idx v s
      | .ibufRead i idx => ibufRead k t i idx s
      | .addrRead addr width => addrRead k t addr width s
      | .addrWrite addr width v => addrWrite k t addr width v s
      | .loadConfig => .next (loadConfig k t s)
      | op =>
        match expandOp k t s op with
        | none => .next s
        | some e => .next (applyEffect k e s)

end Sys2Proof.Machine
end

