-- ==== Sys2Proof/Machine/Transmitter.lean ====
section
/-! DEFINITION. The W unit's steps (spec/42_ws2812_encoder.md R251, R255-R263): encode, clock synthesis,
transfer and latch, one a step, of the command at the head of the strip's queue. -/

namespace Sys2Proof.Machine

/-- `ENC(s, mode, n)` when every input byte is written (R251). -/
def encodeInto (m : Packing) (bytes : List Byte) (u : WUnit) : WUnit :=
  let out := encodeBytes m bytes
  { u with obuf := Memory.writeBytes unwritten u.obuf 0 out, olen := out.length, omode := m }

/-- `SYNTH(s)` (R256). -/
def synth (u : WUnit) : WUnit := { u with div := divider u.conf u.omode }

/-- `OBUF[s][0..OLEN)` (R258). Every such byte has been written (60_exceptions.md R355); where one has not,
it is free. -/
def frameBytes (s : State) (u : WUnit) : List Byte :=
  (List.range u.olen).map fun i => (Memory.read unwritten u.obuf i).getD (freeByte s i)

/-- A step that completed with `OK` advances the step counter of W port `q`, whose contents are `P`
(10_state.md R32). -/
def bumpStep (q : Nat) (P : WPort) (u : WUnit) : WUnit := setWPort q { P with upc := P.upc + 1 } u

/-- The `ENC` step of the head command `c` of port `q` on strip `i`: the unwritten-byte fault stops the unit
(R250, R355); the command completes if it was `ws.enc` or if there is nothing to send (R250, R260). -/
def encStep (i q : Nat) (P : WPort) (c : WsCmd) (mode : EncMode) (n : BitVec 16) (u : WUnit) (s : State) : State :=
  match Memory.readBytes unwritten u.ibuf 0 n.toNat with
  | none => markFault .unwrittenRead (setStrip i { u with stopped := true } s)
  | some bytes =>
    let u' := encodeInto (packing s.cfg.encAutoThreshold mode n.toNat) bytes u
    let last := decide ((wsSteps c).length = 1) || u'.olen == 0
    setStrip i (if last then completeUnit q .ok 0 (bumpStep q P u') else bumpStep q P u') s

/-- The `XFER` step (R258). -/
def xferStep (i q : Nat) (P : WPort) (u : WUnit) (s : State) : State :=
  let draw := nextDraw s
  let s1 := afterDraw s
  let sent := { u with trace := u.trace ++ [TraceEvent.xfer (frameBytes s1 u) u.div draw] }
  advance u.olen
    (setStrip i
      (match draw with
        | .ok => bumpStep q P { sent with txState := .latch }
        | .fail => completeUnit q .busError P.upc { sent with txState := .idle }
        | .hang => { sent with txState := .sending, spiHung := true })
      s1)

/-- The `LATCH` step ends the frame and the command (R257). -/
def latchUnit (q : Nat) (P : WPort) (u : WUnit) : WUnit :=
  completeUnit q .ok 0 (bumpStep q P { u with trace := u.trace ++ [TraceEvent.latch], txState := .idle })

/-- `ws.tx` with nothing to send completes at once (R255), having performed no step. -/
def emptyTx (c : WsCmd) (P : WPort) (u : WUnit) : Bool := c == .tx && P.upc == 0 && u.olen == 0

/-- The next step of the head command, on a unit that may step (R262). -/
def headStep (i q : Nat) (P : WPort) (c : WsCmd) (u : WUnit) (s : State) : State :=
  if emptyTx c P u then setStrip i (completeUnit q .ok 0 u) s
  else match (wsSteps c)[P.upc.toNat]? with
    | none => s
    | some (.enc mode n) => encStep i q P c mode n u s
    | some .synth => setStrip i (bumpStep q P (synth u)) s
    | some .xfer => xferStep i q P u s
    | some .latch => setStrip i (latchUnit q P u) s

/-- One step of the W unit of strip `i` (R262): nothing when its queue is empty, its SPI bus is hung (R258,
R267) or an `ENC` has stopped it (R355). -/
def unitStep (i : Nat) (s : State) : State :=
  match s.strips[i]? with
  | none => s
  | some u =>
    if u.stopped || u.spiHung then s
    else match u.queue with
      | [] => s
      | (q, c) :: _ =>
        match u.ports[q]? with
        | none => s
        | some P => headStep i q P c u s

end Sys2Proof.Machine
end

