-- ==== Sys2Proof/Machine/Agents.lean ====
section
/-! DEFINITION. Which agent moves, its step (spec/10_state.md R30, spec/41_pwm_commands.md R230), and where an
instruction is put so that the next step runs it. -/

namespace Sys2Proof.Machine

/-- The agent that moves next: the head of the schedule, else a free choice (R230, 93 I18). -/
def pickAgent (s : State) : Agent :=
  match s.env.sched with
  | a :: _ => a
  | [] => Config.freeAgent s.env.count

/-- The state once the agent is picked. -/
def afterPick (s : State) : State :=
  match s.env.sched with
  | _ :: rest => { s with env := { s.env with sched := rest } }
  | [] => advance 1 s

/-- One step of an agent. An agent that has no enabled step leaves the state as it is. -/
def agentStep (a : Agent) (s : State) : Host.Outcome State Fault Refusal :=
  match a with
  | .host k => hostStep k s
  | .seq p => seqStep p s
  | .osc => .next (oscStep s)
  | .unit i => .next (unitStep i s)
  | .master => masterStep s

/-- The port the opcode of a word belongs to (30_encoding.md R113): a W port for 0x10..0x12, else a PWM port. -/
def fetchPort (w : Word) : PortSel :=
  let opc := bits w 24 8
  if opc = 0x10 ∨ opc = 0x11 ∨ opc = 0x12 then .ws 0 0 else .pwm 0

/-- Put a host write of the word to that port first in thread 0, and that thread first in the schedule. -/
def placeWord (w : Word) (s : State) : State :=
  { s with
    host :=
      { s.host with
        threads := s.host.threads.modifyHead fun t => { t with prog := .portWrite (fetchPort w) 0 32 w :: t.prog } }
    env := { s.env with sched := .host 0 :: s.env.sched } }

/-- Put a frame first before the bare master, and the master first in the schedule. -/
def placeFrame (f : List (List Byte)) (s : State) : State :=
  { s with frames := f :: s.frames, env := { s.env with sched := .master :: s.env.sched } }

/-- Put either input where the next step takes it. -/
def placeWire (x : Wire) (s : State) : State :=
  match x with
  | .word w => placeWord w s
  | .frame f => placeFrame f s

end Sys2Proof.Machine
end

