-- ==== Sys2Proof/Machine/Step.lean ====
section
/-! DEFINITION. One step of the machine: the next agent of the schedule takes its step. -/

namespace Sys2Proof.Machine

/-- One step (spec/41_pwm_commands.md R230): one agent, one atomic action. -/
def step (s : State) : Host.Outcome State Fault Refusal := agentStep (pickAgent s) (afterPick s)

/-- The state with an instruction of the opcode table, given by its row's bits, where the next step takes it:
a command word as the next host write to its port, a bus transaction as the next frame of the bare master. -/
def State.withFetchWord (s : State) (nbits w : Nat) : State := placeWire (tableWire nbits w) s

end Sys2Proof.Machine
end

