-- ==== Sys2Proof/Safety.lean ====
section
/-! DEFINITION. The terms claims about runs use: the launch premises, enabled steps, weak fairness and the end of a
run (spec/70_reset_and_hazards.md R405, R415; spec/60_exceptions.md R357), and the invariants (spec/10_state.md). -/

namespace Sys2Proof.Safety

open Sys2Proof.Machine

/-! ### Premises -/

/-- `NO_FAULT` (R415). -/
abbrev NoFault (s : State) : Prop := s.faults = []

/-- `NO_REFUSAL` (R415). -/
abbrev NoRefusal (s : State) : Prop := s.refused = []

/-- `SLAVE_AT_RESET` (R391). -/
abbrev SlaveAtReset (s : State) : Prop := s.slave = Slave.reset

/-- `BUS_OK` for the next `n` draws (R357). -/
abbrev BusOk (n : Nat) (s : State) : Prop := n ≤ s.env.outcomes.length ∧ ∀ o ∈ s.env.outcomes.take n, o = .ok

/-- `BUS_COMPLETES` for the next `n` draws (R357). -/
abbrev BusCompletes (n : Nat) (s : State) : Prop :=
  n ≤ s.env.outcomes.length ∧ ∀ o ∈ s.env.outcomes.take n, o ≠ .hang

/-- `BUS_COMPLETES` of the whole run that ended in `s`, read off its histories (R357, 10_state.md R60): no draw of
a transaction or of a transfer was `HANG`. -/
abbrev BusCompleted (s : State) : Prop :=
  (∀ e ∈ s.busLog, e.outcome ≠ .hang) ∧ ∀ u ∈ s.strips, ∀ bytes div, TraceEvent.xfer bytes div .hang ∉ u.trace

/-- `BUS_OK` of the whole run that ended in `s`, read off its histories (R357): no draw was `FAIL` or `HANG`. -/
abbrev BusWasOk (s : State) : Prop :=
  BusCompleted s ∧ (∀ e ∈ s.busLog, e.outcome ≠ .fail)
    ∧ ∀ u ∈ s.strips, ∀ bytes div, TraceEvent.xfer bytes div .fail ∉ u.trace

/-- A run may start at `s` (R415): the power-on reset state of a platform (R390), with any programs for the host
threads, any choices of the environment still to come, and any slave (R391: `SlaveAtReset` is a premise apart). -/
def Launch (c : Config) (s : State) : Prop :=
  { s with
    slave := Slave.reset, env := (State.resetOf c).env
    host := { s.host with threads := s.host.threads.map fun t => { t with prog := [] } } } = State.resetOf c

/-! ### Enabled steps, runs and fairness -/

/-- Agent `a` has an enabled step: its step does something, be it a stop of the model. A step that changes nothing
(but perhaps `sel`, which is no state of the block) is the model's empty step, and no step of RF-ACT
(notes/assumptions/6.md). -/
def Enabled (a : Agent) (s : State) : Prop := ∀ t, agentStep a s = .next t → { t with sel := s.sel } ≠ s

/-- No agent has an enabled step: a run ends here (R415). -/
def Ended (s : State) : Prop := ∀ a, ¬Enabled a s

/-- `t` is reached from `s` by enabled steps, in any order of agents and with any draws: a finite run (41 R230). -/
inductive Reaches (s : State) : State → Prop where
  | start : Reaches s s
  | next (t u : State) (a : Agent) (env : Env) (h : Reaches s t) (he : Enabled a { t with env := env })
      (hs : agentStep a { t with env := env } = .next u) : Reaches s u

/-- An infinite run: at each moment `n` the agent `agents n` takes an enabled step, the environment's choices being
`envs n`. -/
def InfiniteRun (agents : Nat → Agent) (envs : Nat → Env) (states : Nat → State) : Prop :=
  ∀ n, Enabled (agents n) { states n with env := envs n }
    ∧ agentStep (agents n) { states n with env := envs n } = .next (states (n + 1))

/-- Weak fairness (R405): a micro-op, a W step, the oscillator's step or a host step that stays enabled is eventually
taken. The bare master is no agent of RF-ACT (notes/assumptions/13.md). -/
def WeaklyFair (agents : Nat → Agent) (envs : Nat → Env) (states : Nat → State) : Prop :=
  ∀ (a : Agent) (n : Nat), a ≠ .master → (∀ m, n ≤ m → Enabled a { states m with env := envs m }) →
    ∃ m, n ≤ m ∧ agents m = a

/-- Termination from the states `start` picks out (R415): no infinite weakly fair run begins at one of them. -/
def Terminates (start : State → Prop) : Prop :=
  ∀ agents envs states, start (states 0) → InfiniteRun agents envs states → ¬WeaklyFair agents envs states

/-! ### The end of a run -/

/-- Every port of a unit is idle and nothing is queued or hung. -/
abbrev WUnit.Settled (u : WUnit) : Prop :=
  (∀ P ∈ u.ports, P.status.busy = false) ∧ u.queue = [] ∧ u.spiHung = false

/-- The conditions of a final end (R415 items 1-6). An animation task between two frames, stopped or paused, has
returned from its last operation: its thread has nothing left in its program (R317; DESIGN CHOICE,
notes/assumptions/40.md). -/
abbrev Completed (s : State) : Prop :=
  (∀ t ∈ s.host.threads, t.prog = []) ∧ (∀ P ∈ s.unitP.ports, P.status.busy = false)
    ∧ (∀ u ∈ s.strips, WUnit.Settled u) ∧ s.slave.osc ≠ .waking ∧ s.unitP.i2cHung = false
    ∧ s.faults = [] ∧ s.refused = []

/-- The end of a run is final (R415): no agent has an enabled step, and the conditions hold. -/
def Final (s : State) : Prop := Ended s ∧ Completed s

/-- A run is stuck here (R415): no agent has an enabled step, and the end is not final (a hang, a fault, a refusal). -/
def Stuck (s : State) : Prop := Ended s ∧ ¬Completed s

/-! ### Conditions the statements use -/

/-- An encoding that is illegal at every port: R114 items 1-3, the fields of R111 as numbers. -/
abbrev ReservedWord (w : Word) : Prop :=
  let n := w.toNat
  let opc := n / 2 ^ 24
  (opc ≠ 0x01 ∧ opc ≠ 0x02 ∧ opc ≠ 0x03 ∧ opc ≠ 0x10 ∧ opc ≠ 0x11 ∧ opc ≠ 0x12)
    ∨ (opc = 0x01 ∧ n / 2 ^ 7 % 2 ^ 17 ≠ 0)
    ∨ (opc = 0x02 ∧ n / 2 ^ 16 % 2 ^ 8 ≠ 0)
    ∨ (opc = 0x03 ∧ n / 2 ^ 12 % 2 ^ 4 ≠ 0)
    ∨ ((opc = 0x10 ∨ opc = 0x12) ∧ n / 2 ^ 18 % 2 ^ 6 ≠ 0)
    ∨ (opc = 0x11 ∧ n % 2 ^ 24 ≠ 0)
    ∨ ((opc = 0x10 ∨ opc = 0x12) ∧ n / 2 ^ 16 % 4 = 3)

/-- The slave answers a write to address `a`: `Decode(a, 0) = SELECTED` (40_pwm_slave.md R140). -/
abbrev Selects (s : State) (a : BitVec 7) : Prop :=
  let reg (r : Nat) : Nat := (srRead s.slave r).toNat
  a ≠ 0 ∧ (a = s.cfg.slaveAddr
    ∨ ((reg 0).testBit 0 = true ∧ a.toNat = reg 5 / 2) ∨ ((reg 0).testBit 3 = true ∧ a.toNat = reg 2 / 2)
    ∨ ((reg 0).testBit 2 = true ∧ a.toNat = reg 3 / 2) ∨ ((reg 0).testBit 1 = true ∧ a.toNat = reg 4 / 2))

/-- Register `r` is one that a write to register `reg` could change (40_pwm_slave.md R142, R157). -/
abbrev WriteReaches (reg : Byte) (r : Nat) : Prop :=
  (reg.toNat ≤ 0x45 ∧ r = reg.toNat) ∨ (reg = 0xFE ∧ r = 0xFE)
    ∨ (0xFA ≤ reg.toNat ∧ reg.toNat ≤ 0xFD ∧ ∃ n < 16, r = 0x06 + 4 * n + (reg.toNat - 0xFA))

/-- The low duty register of a channel, by `DUTY_PAIR` (41_pwm_commands.md R221). -/
abbrev lowDuty (cfg : Params) (ch : Nat) : Nat := (if cfg.dutyPair = .on then 0x06 else 0x08) + 4 * ch

/-- The three bytes a pixel stores (48_host_reference.md R310): each component scaled by the brightness and rounded
down, in the strip's channel order. -/
abbrev storedPixel (c : StripConfig) (r g b : Byte) : Byte × Byte × Byte :=
  let e (v : Byte) : Byte := BitVec.ofNat 8 (v.toNat * c.brightness.toNat / 255)
  match c.channelOrder with
  | .rgb => (e r, e g, e b)
  | .rbg => (e r, e b, e g)
  | .grb => (e g, e r, e b)
  | .gbr => (e g, e b, e r)
  | .brg => (e b, e r, e g)
  | .bgr => (e b, e g, e r)

/-- The writes of pixel `j` of strip `i` (R310): bytes `3 j` to `3 j + 2`. -/
abbrev pixelWrites (i : Nat) (c : StripConfig) (j : Nat) (r g b : Byte) : List HostOp :=
  let x := storedPixel c r g b
  [.ibufWrite i (3 * j) x.1, .ibufWrite i (3 * j + 1) x.2.1, .ibufWrite i (3 * j + 2) x.2.2]

/-- The writes of a black strip (R311). -/
abbrev blackWrites (i : Nat) (c : StripConfig) : List HostOp :=
  (List.range c.pixelCount).flatMap fun j =>
    [.ibufWrite i (3 * j) 0, .ibufWrite i (3 * j + 1) 0, .ibufWrite i (3 * j + 2) 0]

/-! ### Invariants -/

/-- Every memory is in its canonical form. -/
abbrev MemoryForm (s : State) : Prop :=
  Memory.wf slaveReset s.slave.sr ∧ ∀ u ∈ s.strips, Memory.wf unwritten u.ibuf ∧ Memory.wf unwritten u.obuf

/-- The slave's memory lists only registers that hold a value (10_state.md R41). -/
abbrev SlaveForm (s : State) : Prop := ∀ c ∈ s.slave.sr, c.1 ∈ implementedRegs

/-- `FAIL_STEP` is 0 unless `ERR` is `BUS_ERROR` (10_state.md R34). -/
abbrev StatusForm (st : Status) : Prop := st.err ≠ .busError → st.failStep = 0

/-- A PWM port, of a unit with these parameters and this issue counter: an idle port has no sequence and is not stuck;
a busy port runs the sequence of its command, is not past its end, has a stamp, and has written `TMP` once its read
is past (10_state.md R32, R36, R39; 41_pwm_commands.md R190, R192). -/
def PortForm (cfg : Params) (ctr : Nat) (P : PwmPort) : Prop :=
  StatusForm P.status ∧ P.upc.toNat ≤ 5 ∧ (P.status.busy = false → P.seq = [] ∧ P.stuck = false)
    ∧ (P.status.busy = true → ∃ c k, P.op = some c ∧ validate c = none ∧ P.seq = commandSeq cfg c
        ∧ P.stamp = some k ∧ k < ctr ∧ P.upc.toNat < P.seq.length
        ∧ ∀ j < P.upc.toNat, ∀ reg, P.seq[j]? = some (.rd reg) → P.tmp ≠ none)

/-- Busy ports hold different stamps (10_state.md R39), so that one of two commands is the earlier (41 R232). -/
def StampsDiffer (ports : List PwmPort) : Prop :=
  ∀ (p q : Nat) (P Q : PwmPort), p ≠ q → ports[p]? = some P → ports[q]? = some Q →
    P.status.busy = true → Q.status.busy = true → P.stamp ≠ Q.stamp

/-- Every PWM port has its form, and the stamps of the busy ones differ. -/
def PortsForm (s : State) : Prop :=
  (∀ P ∈ s.unitP.ports, PortForm s.cfg s.unitP.issueCtr P) ∧ StampsDiffer s.unitP.ports

/-- The queue of a W unit (10_state.md R54; 42_ws2812_encoder.md R254, R262, R263): no port is queued twice,
the queued ports are the busy ones, a queued command is not past its end, only the head has started, and
its byte count fits. -/
def QueueForm (u : WUnit) : Prop :=
  (u.queue.map Prod.fst).Nodup
    ∧ (∀ e ∈ u.queue, ∃ P, u.ports[e.1]? = some P ∧ P.status.busy = true
        ∧ P.upc.toNat < (wsSteps e.2).length ∧ e.2.count ≤ ibufSize u.conf)
    ∧ (∀ q P, u.ports[q]? = some P → P.status.busy = true → ∃ c, (q, c) ∈ u.queue)
    ∧ (∀ e ∈ u.queue.tail, ∀ P, u.ports[e.1]? = some P → P.upc = 0)

/-- The buffers and registers of a W unit (10_state.md R49, R50, R52, R53): nothing outside `IBUF` and
`OBUF`, `OLEN` within `OBUF` with every byte below it written, `DIV` at most `DIV_MAX`, and `TXSTATE` is
`SENDING` exactly while the SPI bus is hung. -/
def BufferForm (u : WUnit) : Prop :=
  (∀ c ∈ u.ibuf, c.1 < ibufSize u.conf) ∧ (∀ c ∈ u.obuf, c.1 < 8 * ibufSize u.conf)
    ∧ u.olen ≤ 8 * ibufSize u.conf ∧ (∀ i < u.olen, Memory.read unwritten u.obuf i ≠ none)
    ∧ u.div ≤ u.conf.divMax ∧ (u.spiHung = true ↔ u.txState = .sending)

/-- A W port: `FAIL_STEP` as above, and `upc` at most 4, the length of the longest W command (10_state.md R32). -/
abbrev WPortForm (P : WPort) : Prop := StatusForm P.status ∧ P.upc.toNat ≤ 4

/-- Every W unit has its form. -/
def UnitsForm (s : State) : Prop := ∀ u ∈ s.strips, QueueForm u ∧ BufferForm u ∧ ∀ P ∈ u.ports, WPortForm P

end Sys2Proof.Safety
end

