-- ==== Sys2Proof/Certificates/Slice0/Obligations.lean ====
section
/-! DEFINITION. The statements for the provers, group by group: reset and encoding, the issue of a command, bus
transactions, steps, whole commands, the W unit, invariants of every step, and the host. -/

section

open Sys2Proof Sys2Proof.Machine Sys2Proof.Safety

/-! ### Reset and encoding -/

/-- Power-on reset, for every value of the parameters (70_reset_and_hazards.md R390, R391). The port's field `stuck`
is the model's own (notes/assumptions/11.md). -/
def Obligations.PowerOnReset : Prop :=
  ∀ c : Config,
    let s := State.resetOf c
    (s.unitP.ports.length = c.nPwmPorts
      ∧ (∀ P ∈ s.unitP.ports, P =
          { cmd := none, status := { busy := false, failStep := 0x00, err := .ok }, op := none, seq := [], upc := 0
            tmp := none, stamp := none, stuck := false })
      ∧ s.unitP.devAddr = c.params.cfgPwmAddr ∧ s.unitP.fConf = { valid := false, hz := 0 }
      ∧ freqWord s.unitP.fConf = 0x00000000 ∧ s.unitP.issueCtr = 0 ∧ s.unitP.i2cHung = false)
    ∧ (s.strips.map (·.conf) = c.strips.map Prod.fst
      ∧ ∀ u ∈ s.strips,
          (∀ P ∈ u.ports, P =
            { cmd := none, status := { busy := false, failStep := 0x00, err := .ok }, upc := 0 })
          ∧ (∀ i, Memory.read unwritten u.ibuf i = none) ∧ (∀ i, Memory.read unwritten u.obuf i = none)
          ∧ u.olen = 0 ∧ u.omode = .m8 ∧ u.div = 0 ∧ u.txState = .idle ∧ u.spiHung = false ∧ u.queue = []
          ∧ u.trace = [])
    ∧ (s.faults = [] ∧ s.refused = [] ∧ s.busLog = [])
    ∧ (srRead s.slave 0x00 = 0x11 ∧ srRead s.slave 0x01 = 0x04 ∧ srRead s.slave 0x02 = 0xE2
      ∧ srRead s.slave 0x03 = 0xE4 ∧ srRead s.slave 0x04 = 0xE8 ∧ srRead s.slave 0x05 = 0xE0
      ∧ (∀ n < 16, srRead s.slave (0x06 + 4 * n) = 0x00 ∧ srRead s.slave (0x07 + 4 * n) = 0x00
          ∧ srRead s.slave (0x08 + 4 * n) = 0x00 ∧ srRead s.slave (0x09 + 4 * n) = 0x10)
      ∧ srRead s.slave 0xFE = 0x1E ∧ s.slave.osc = .stopped)

/-- Every invariant of Safety.lean holds after reset: of the machine's reset state, and of the reset state of
every configuration. With no program in any thread that state is the final end of a run (70_reset_and_hazards.md
R415): no agent has an enabled step. -/
def Obligations.InvariantsAtReset : Prop :=
  (MemoryForm State.reset ∧ SlaveForm State.reset ∧ PortsForm State.reset ∧ UnitsForm State.reset)
    ∧ ∀ c : Config, MemoryForm (State.resetOf c) ∧ SlaveForm (State.resetOf c) ∧ PortsForm (State.resetOf c)
        ∧ UnitsForm (State.resetOf c) ∧ Final (State.resetOf c)

/-- Decoding an encoded well-formed instruction gives the instruction back, every operand at every value; a
pseudo-instruction gives its expansion (30_encoding.md R111, R116-R118, R125). -/
def Obligations.DecodeOfEncode : Prop :=
  ∀ i : Instr, i.wellFormed = true → decode (encode i) = .ok i.expand

/-- The converse: a word the decoder accepts is the encoding of what it decodes to, and the frames the decoder
accepts are exactly the three forms of R116-R118, a read with its repeated START. The last byte of a read is the
slave's, so that any byte is accepted there (DEDUCED, notes/assumptions/14.md); a register frame at address 0x00 has
the form too, and what it does there is notes/assumptions/9.md. -/
def Obligations.DecodedWireHasItsForm : Prop :=
  (∀ (w : Word) (i : Instr), decodeWord w = .ok i → i.wellFormed = true ∧ i.expand = i ∧ encode i = .word w)
    ∧ ∀ (f : List (List Byte)) (i : Instr), decodeFrame f = .ok i ↔
        (∃ a reg d, i = .i2cWr a reg d ∧ f = [[a ++ 0#1, reg, d]])
          ∨ (∃ a reg d, i = .i2cRd a reg ∧ f = [[a ++ 0#1, reg], [a ++ 1#1, d]])
          ∨ (∃ d, i = .i2cGc d ∧ f = [[0x00, d]])

/-- The words of R126, R125 and three frames written out by R116-R118 decode to what they stand for. -/
def Obligations.SpecWordsDecode : Prop :=
  decodeWord 0x01000040 = .ok (.pwmInit 0x40) ∧ decodeWord 0x02000032 = .ok (.pwmFreq 50)
    ∧ decodeWord 0x0303004C = .ok (.pwmChan 3 76) ∧ decodeWord 0x030F0FFF = .ok (.pwmChan 15 4095)
    ∧ decodeWord 0x03100000 = .ok (.pwmChan 16 0) ∧ decodeWord 0x03070000 = .ok (.pwmChan 7 0)
    ∧ decodeWord 0x10000003 = .ok (.wsEncM8 3) ∧ decodeWord 0x10010003 = .ok (.wsEncM4 3)
    ∧ decodeWord 0x10020003 = .ok (.wsEncAuto 3) ∧ decodeWord 0x11000000 = .ok .wsTx
    ∧ decodeWord 0x12000018 = .ok (.wsShowM8 24) ∧ decodeWord 0x12010018 = .ok (.wsShowM4 24)
    ∧ decodeWord 0x12020006 = .ok (.wsShowAuto 6) ∧ decodeWord 0x10030003 = .error .reservedMode
    ∧ decodeWord 0x01000080 = .error .reservedBits ∧ decodeWord 0x00000000 = .error .unknownOpcode
    ∧ decodeFrame [[0x80, 0x12, 0x4C]] = .ok (.i2cWr 0x40 0x12 0x4C)
    ∧ decodeFrame [[0x80, 0x00], [0x81, 0x11]] = .ok (.i2cRd 0x40 0x00)
    ∧ decodeFrame [[0x00, 0x06]] = .ok (.i2cGc 0x06)

/-- An illegal word written to an idle port completes at once with `ILLEGAL_COMMAND` and changes nothing else
(30_encoding.md R114): a reserved encoding at any port, a W opcode at a PWM port, a unit P opcode at a W port. The
port keeps the word in its write-only `CMD` (10_state.md R33), and `sel`, which is no state of the block, names
the port. -/
def Obligations.IllegalWordRejected : Prop :=
  (∀ w : Word, ReservedWord w ↔ ∃ e, decodeWord w = .error e)
    ∧ (∀ (s : State) (p : Nat) (P : PwmPort) (w : Word),
        s.unitP.ports[p]? = some P → P.status.busy = false → (ReservedWord w ∨ 0x10 ≤ w.toNat / 2 ^ 24) →
        runWord (.pwm p) w s =
          .next
            { s with
              sel := .pwm p
              unitP :=
                { s.unitP with
                  ports :=
                    s.unitP.ports.set p
                      { P with
                        cmd := some w, seq := []
                        status := { busy := false, failStep := 0x00, err := .illegalCommand } } } })
    ∧ ∀ (s : State) (i q : Nat) (u : WUnit) (P : WPort) (w : Word),
        s.strips[i]? = some u → QueueForm u → u.ports[q]? = some P → P.status.busy = false →
        (ReservedWord w ∨ w.toNat / 2 ^ 24 ≤ 0x03) →
        runWord (.ws i q) w s =
          .next
            { s with
              sel := .ws i q
              strips :=
                s.strips.set i
                  { u with
                    ports :=
                      u.ports.set q
                        { P with
                          cmd := some w
                          status := { busy := false, failStep := 0x00, err := .illegalCommand } } } }

/-! ### The issue of a command: an idle port -/

/-- `pwm.init` with an address other than 0 at an idle port: the issue step of R190 with the issue effect of R200
and the sequence of R201. Everything not named is unchanged. ConcurrentIssueMarked says when `SEQ_CONFLICT` is set. -/
def Obligations.PwmInitAccepted : Prop :=
  ∀ (s : State) (p : Nat) (P : PwmPort) (a : BitVec 7),
    s.sel = .pwm p → s.unitP.ports[p]? = some P → P.status.busy = false → a ≠ 0 →
    exec (.pwmInit a) s =
      .next
        { s with
          faults := if conflicts s.unitP.ports p (.init a) then addMark .seqConflict s.faults else s.faults
          unitP :=
            { s.unitP with
              devAddr := a
              fConf := { valid := false, hz := s.unitP.fConf.hz }
              issueCtr := s.unitP.issueCtr + 1
              ports :=
                s.unitP.ports.set p
                  { cmd := P.cmd
                    status := { busy := true, failStep := P.status.failStep, err := P.status.err }
                    op := some (.init a)
                    seq := [.gc 0x06, .wait 500, .rd 0x00, .wr 0x00 (.tmp 0x6F 0x00), .wait 500]
                    upc := 0, tmp := none, stamp := some s.unitP.issueCtr, stuck := false } } }

/-- `pwm.freq` with a frequency other than 0 at an idle port: the issue step of R190 with the sequence of R211, whose
prescale is R212's: rounded half to even, clamped to 3..255 (PrescaleValue states it). -/
def Obligations.PwmFreqAccepted : Prop :=
  ∀ (s : State) (p : Nat) (P : PwmPort) (hz : BitVec 16),
    s.sel = .pwm p → s.unitP.ports[p]? = some P → P.status.busy = false → hz ≠ 0 →
    exec (.pwmFreq hz) s =
      .next
        { s with
          faults := if conflicts s.unitP.ports p (.freq hz) then addMark .seqConflict s.faults else s.faults
          unitP :=
            { s.unitP with
              issueCtr := s.unitP.issueCtr + 1
              ports :=
                s.unitP.ports.set p
                  { cmd := P.cmd
                    status := { busy := true, failStep := P.status.failStep, err := P.status.err }
                    op := some (.freq hz)
                    seq :=
                      [.rd 0x00, .wr 0x00 (.tmp 0x6F 0x10), .wr 0xFE (.imm (prescale s.cfg.prescaleNum hz.toNat)),
                        .wr 0x00 (.tmp 0x6F 0x00), .wait 500]
                    upc := 0, tmp := none, stamp := some s.unitP.issueCtr, stuck := false } } }

/-- `pwm.chan`, and `pwm.zero` as `pwm.chan CH, 0` (R125), on channels 0..15 at an idle port: the issue step of R190
with the sequence of R221, low register first. -/
def Obligations.PwmChanAccepted : Prop :=
  ∀ (s : State) (p : Nat) (P : PwmPort) (ch : BitVec 8),
    s.sel = .pwm p → s.unitP.ports[p]? = some P → P.status.busy = false → ch.toNat ≤ 15 →
    let accepted (duty : BitVec 12) : State :=
      { s with
        faults := if conflicts s.unitP.ports p (.chan ch duty) then addMark .seqConflict s.faults else s.faults
        unitP :=
          { s.unitP with
            issueCtr := s.unitP.issueCtr + 1
            ports :=
              s.unitP.ports.set p
                { cmd := P.cmd
                  status := { busy := true, failStep := P.status.failStep, err := P.status.err }
                  op := some (.chan ch duty)
                  seq :=
                    [.wr (BitVec.ofNat 8 (lowDuty s.cfg ch.toNat)) (.imm (BitVec.ofNat 8 (duty.toNat % 256))),
                      .wr (BitVec.ofNat 8 (lowDuty s.cfg ch.toNat + 1)) (.imm (BitVec.ofNat 8 (duty.toNat / 256)))]
                  upc := 0, tmp := none, stamp := some s.unitP.issueCtr, stuck := false } } }
    (∀ duty : BitVec 12, exec (.pwmChan ch duty) s = .next (accepted duty)) ∧ exec (.pwmZero ch) s = .next (accepted 0)

/-- `ws.enc`, `ws.show` in each mode, `ws.frame` as `ws.show auto, N` (R125) and `ws.tx` at an idle W port, with a
byte count that fits: the command is the last of the strip's queue and the port is busy (42_ws2812_encoder.md R254).
Everything not named is unchanged. -/
def Obligations.WsCommandAccepted : Prop :=
  ∀ (s : State) (i q : Nat) (u : WUnit) (P : WPort),
    s.sel = .ws i q → s.strips[i]? = some u → u.ports[q]? = some P → P.status.busy = false →
    let accepted (c : WsCmd) : State :=
      { s with
        strips :=
          s.strips.set i
            { u with
              queue := u.queue ++ [(q, c)]
              ports :=
                u.ports.set q
                  { cmd := P.cmd
                    status := { busy := true, failStep := P.status.failStep, err := P.status.err }
                    upc := 0 } } }
    exec .wsTx s = .next (accepted .tx)
      ∧ ∀ n : BitVec 16, n.toNat ≤ 3 * u.conf.pixelCount →
          exec (.wsEncM8 n) s = .next (accepted (.enc .m8 n)) ∧ exec (.wsEncM4 n) s = .next (accepted (.enc .m4 n))
          ∧ exec (.wsEncAuto n) s = .next (accepted (.enc .auto n))
          ∧ exec (.wsShowM8 n) s = .next (accepted (.display .m8 n))
          ∧ exec (.wsShowM4 n) s = .next (accepted (.display .m4 n))
          ∧ exec (.wsShowAuto n) s = .next (accepted (.display .auto n))
          ∧ exec (.wsFrame n) s = .next (accepted (.display .auto n))

/-- Invalid operand values (30_encoding.md R115): the decoder accepts the word, and at an idle port the command
completes at once with its own code. Only the port's `STATUS` changes, and its `SEQ` is empty. -/
def Obligations.ValueErrorRejected : Prop :=
  (∀ i : Instr, (∃ w, encodeWord i = some w) → decode (encode i) = .ok i.expand)
    ∧ (∀ (s : State) (p : Nat) (P : PwmPort),
        s.sel = .pwm p → s.unitP.ports[p]? = some P → P.status.busy = false →
        let rejected (code : ErrCode) : State :=
          { s with
            unitP :=
              { s.unitP with
                ports :=
                  s.unitP.ports.set p
                    { P with status := { busy := false, failStep := 0x00, err := code }, seq := [] } } }
        exec (.pwmInit 0x00) s = .next (rejected .invalidAddress)
          ∧ exec (.pwmFreq 0) s = .next (rejected .invalidFrequency)
          ∧ ∀ ch : BitVec 8, 15 < ch.toNat →
              (∀ duty, exec (.pwmChan ch duty) s = .next (rejected .invalidChannel))
              ∧ exec (.pwmZero ch) s = .next (rejected .invalidChannel))
    ∧ ∀ (s : State) (i q : Nat) (u : WUnit) (P : WPort) (n : BitVec 16),
        s.sel = .ws i q → s.strips[i]? = some u → QueueForm u → u.ports[q]? = some P → P.status.busy = false →
        3 * u.conf.pixelCount < n.toNat →
        ∀ c ∈ [Instr.wsEncM8 n, .wsEncM4 n, .wsEncAuto n, .wsShowM8 n, .wsShowM4 n, .wsShowAuto n, .wsFrame n],
          exec c s =
            .next
              { s with
                strips :=
                  s.strips.set i
                    { u with
                      ports :=
                        u.ports.set q { P with status := { busy := false, failStep := 0x00, err := .bufferRange } } } }

/-- A command that its issue completes has a code other than `OK` and `BUS_ERROR` and has changed nothing but its
port (60_exceptions.md R351): the `CMD` word, the `STATUS` and the then empty `SEQ`. -/
def Obligations.RejectedChangesOnlyItsPort : Prop :=
  (∀ (s t : State) (p : Nat) (P Q : PwmPort) (w : Word),
      s.unitP.ports[p]? = some P → P.status.busy = false → runWord (.pwm p) w s = .next t →
      t.unitP.ports[p]? = some Q → Q.status.busy = false →
      (Q.status.err ≠ .ok ∧ Q.status.err ≠ .busError ∧ Q.status.failStep = 0)
        ∧ Q = { P with cmd := some w, status := Q.status, seq := [] }
        ∧ t = { s with sel := .pwm p, unitP := { s.unitP with ports := s.unitP.ports.set p Q } })
    ∧ ∀ (s t : State) (i q : Nat) (u v : WUnit) (P Q : WPort) (w : Word),
        s.strips[i]? = some u → QueueForm u → u.ports[q]? = some P → P.status.busy = false →
        runWord (.ws i q) w s = .next t →
        t.strips[i]? = some v → v.ports[q]? = some Q → Q.status.busy = false →
        (Q.status.err ≠ .ok ∧ Q.status.err ≠ .busError ∧ Q.status.failStep = 0)
          ∧ Q = { P with cmd := some w, status := Q.status }
          ∧ t = { s with sel := .ws i q, strips := s.strips.set i { u with ports := u.ports.set q Q } }

/-- An issue on a busy port holds (41_pwm_commands.md R190, 42_ws2812_encoder.md R254; 60_exceptions.md R358 item 1):
no command does anything at it, and the step of a host thread whose next write goes to it changes nothing. A command at
a port the platform does not have stops with the fault that says so: the model's own stop (notes/assumptions/20.md),
since no such location exists (10_state.md R33, R48). -/
def Obligations.BusyPortHoldsMissingPortFaults : Prop :=
  (∀ (s : State) (st : Status) (i : Instr) (w : Word),
      encodeWord i = some w → portStatus s s.sel = some st → st.busy = true → exec i s = .next s)
    ∧ (∀ (s : State) (k : Nat) (rest : List Agent) (t : Thread) (ops : List HostOp) (π : PortSel) (w : Word)
        (st : Status),
        s.env.sched = .host k :: rest → s.host.threads[k]? = some t → t.prog = .portWrite π 0 32 w :: ops →
        portStatus s π = some st → st.busy = true →
        step s = .next { s with env := { s.env with sched := rest } })
    ∧ ∀ (s : State) (i : Instr) (w : Word),
        encodeWord i = some w → portStatus s s.sel = none → exec i s = .fault .noSuchPort

/-- Exclusivity (41_pwm_commands.md R233): when a `pwm.init` or `pwm.freq` that passes its value check is issued at an
idle port, `SEQ_CONFLICT` is in `FAULTS` afterwards exactly if it was before or another port has an active command;
for a `pwm.chan`, exactly if it was before or another port has an active `pwm.init` or `pwm.freq`. The command is
accepted all the same: the port is busy afterwards. -/
def Obligations.ConcurrentIssueMarked : Prop :=
  ∀ (s t : State) (p : Nat) (P : PwmPort),
    s.sel = .pwm p → s.unitP.ports[p]? = some P → P.status.busy = false →
    let another (test : Option PwmCmd → Prop) : Prop :=
      ∃ q Q, q ≠ p ∧ s.unitP.ports[q]? = some Q ∧ Q.status.busy = true ∧ test Q.op
    let marked (test : Option PwmCmd → Prop) : Prop :=
      (.seqConflict ∈ t.faults ↔ .seqConflict ∈ s.faults ∨ another test)
        ∧ ∃ Q, t.unitP.ports[p]? = some Q ∧ Q.status.busy = true
    (∀ a, a ≠ 0 → exec (.pwmInit a) s = .next t → marked fun _ => True)
      ∧ (∀ hz, hz ≠ 0 → exec (.pwmFreq hz) s = .next t → marked fun _ => True)
      ∧ ∀ ch duty, ch.toNat ≤ 15 → exec (.pwmChan ch duty) s = .next t →
          marked fun op => (∃ a, op = some (.init a)) ∨ ∃ hz, op = some (.freq hz)

/-! ### Bus transactions

`deliver` hands the outcome to the sequencer context that waits for it; MicroOpOutcome states what that does. For a
transaction performed for no port it does nothing. `afterDraw s` is `s` with the environment's draw taken. -/

/-- A register write that the slave answers and the environment draws `OK`, to a register that admits it: the slave
takes the write (SlaveWrite, R142; the next statements give the values), one entry is added to `BUSLOG`, and nothing
else changes but what the outcome does to the waiting port (41_pwm_commands.md R193). The registers that admit a
write are 0x00..0x45, 0xFA..0xFD and 0xFE; `MODE1` admits no 1 in bits 7:6 (R144). -/
def Obligations.RegisterWriteCompletes : Prop :=
  ∀ (s : State) (a : BitVec 7) (reg d : Byte),
    s.unitP.i2cHung = false → nextDraw s = .ok → Selects s a →
    (reg.toNat ≤ 0x45 ∨ (0xFA ≤ reg.toNat ∧ reg.toNat ≤ 0xFE)) → (reg = 0x00 → d.toNat < 0x40) →
    ∃ sl, slaveWrite reg d s.slave = .ok sl
      ∧ exec (.i2cWr a reg d) s =
          .next
            (deliver (.ok none)
              { s with
                slave := sl
                busLog := s.busLog ++ [{ kind := .wr, a7 := a, reg := some reg, data := some d, outcome := .ok }]
                env := { (afterDraw s).env with count := (afterDraw s).env.count + 256 } })

/-- `MODE1` write (40_pwm_slave.md R144): bits 7 and 6 must be 0, or the write is refused by name; bits 5:0 are
stored, no other register changes, and the oscillator follows `SLEEP`, bit 4: asleep to awake wakes it, awake to
asleep stops it. -/
def Obligations.Mode1WriteValue : Prop :=
  ∀ (sl : Slave) (d : Byte),
    Memory.wf slaveReset sl.sr →
    (0x80 ≤ d.toNat → slaveWrite 0x00 d sl = .error .restartWrite)
      ∧ (0x40 ≤ d.toNat → d.toNat < 0x80 → slaveWrite 0x00 d sl = .error .extclkWrite)
      ∧ (d.toNat < 0x40 →
          ∃ sl', slaveWrite 0x00 d sl = .ok sl' ∧ srRead sl' 0x00 = d
            ∧ (∀ r, r ≠ 0x00 → srRead sl' r = srRead sl r)
            ∧ sl'.osc =
                (if (srRead sl 0x00).toNat.testBit 4 = false ∧ d.toNat.testBit 4 = true then .stopped
                else if (srRead sl 0x00).toNat.testBit 4 = true ∧ d.toNat.testBit 4 = false then .waking
                else sl.osc))

/-- Writes to `MODE2`, the four address registers and the LED registers (40_pwm_slave.md R142, R146-R149): `MODE2`
and the high LED registers store bits 4:0, the others all bits; no other register changes, nor the oscillator. Writes
to `ALL_LED_*` (R150): the write of the one register is done on all sixteen channels, nothing is stored at 0xFA..0xFD,
and nothing else changes. -/
def Obligations.PlainRegisterWriteValue : Prop :=
  (∀ (sl : Slave) (reg d : Byte),
      Memory.wf slaveReset sl.sr → 0x01 ≤ reg.toNat → reg.toNat ≤ 0x45 →
      ∃ sl', slaveWrite reg d sl = .ok sl' ∧ sl'.osc = sl.osc
        ∧ (∀ r, r ≠ reg.toNat → srRead sl' r = srRead sl r)
        ∧ (reg = 0x01 → (srRead sl' 0x01).toNat = d.toNat % 32)
        ∧ (0x02 ≤ reg.toNat → reg.toNat ≤ 0x05 → srRead sl' reg.toNat = d)
        ∧ (∀ n < 16, (reg.toNat = 0x06 + 4 * n ∨ reg.toNat = 0x08 + 4 * n) → srRead sl' reg.toNat = d)
        ∧ (∀ n < 16, (reg.toNat = 0x07 + 4 * n ∨ reg.toNat = 0x09 + 4 * n) →
            (srRead sl' reg.toNat).toNat = d.toNat % 32))
    ∧ ∀ (sl : Slave) (k : Nat) (d : Byte),
        Memory.wf slaveReset sl.sr → k < 4 →
        ∃ sl', slaveWrite (BitVec.ofNat 8 (0xFA + k)) d sl = .ok sl' ∧ sl'.osc = sl.osc
          ∧ (∀ n < 16, (srRead sl' (0x06 + 4 * n + k)).toNat = if k % 2 = 0 then d.toNat else d.toNat % 32)
          ∧ (∀ r, (∀ n < 16, r ≠ 0x06 + 4 * n + k) → srRead sl' r = srRead sl r)

/-- `PRE_SCALE` write (40_pwm_slave.md R152): while `SLEEP` is 1 the register takes the data, raised to 3 if it is
less; while `SLEEP` is 0 the write is dropped, still acknowledged. No other register changes, nor the oscillator. -/
def Obligations.PrescaleWriteValue : Prop :=
  ∀ (sl : Slave) (d : Byte),
    Memory.wf slaveReset sl.sr →
    ((srRead sl 0x00).toNat.testBit 4 = true →
        ∃ sl', slaveWrite 0xFE d sl = .ok sl' ∧ (srRead sl' 0xFE).toNat = max d.toNat 3 ∧ sl'.osc = sl.osc
          ∧ ∀ r, r ≠ 0xFE → srRead sl' r = srRead sl r)
      ∧ ((srRead sl 0x00).toNat.testBit 4 = false → slaveWrite 0xFE d sl = .ok sl)

/-- A register write that the slave answers but refuses (40_pwm_slave.md R144, R154, R155; 60_exceptions.md R356):
reserved registers, `TESTMODE`, and the two `MODE1` bits, each by its name. The reason is added to `REFUSED`, the draw
is taken and nothing else changes but a port that waited for it, which is stuck (notes/assumptions/11.md). -/
def Obligations.RegisterWriteRefused : Prop :=
  ∀ (s : State) (a : BitVec 7) (reg d : Byte),
    s.unitP.i2cHung = false → nextDraw s = .ok → Selects s a →
    let refusedAs (r : RefuseReason) : Prop :=
      exec (.i2cWr a reg d) s =
        .next (deliver .refused { s with refused := addMark r s.refused, env := (afterDraw s).env })
    (0x46 ≤ reg.toNat → reg.toNat ≤ 0xF9 → refusedAs .reservedRegWrite)
      ∧ (reg = 0xFF → refusedAs .testmodeWrite)
      ∧ (reg = 0x00 → 0x80 ≤ d.toNat → refusedAs .restartWrite)
      ∧ (reg = 0x00 → 0x40 ≤ d.toNat → d.toNat < 0x80 → refusedAs .extclkWrite)

/-- A register write that the slave answers and the environment draws `FAIL` or `HANG` (40_pwm_slave.md R157,
41_pwm_commands.md R192, R193): every register the write could not change keeps its value, and so does the oscillator
unless the register is `MODE1`; of the others nothing is said. The outcome is recorded; a hang sets `I2C_HUNG` and
delivers nothing. -/
def Obligations.FailedWriteSpoilsOnlyItsRegisters : Prop :=
  ∀ (s : State) (a : BitVec 7) (reg d : Byte),
    s.unitP.i2cHung = false → Selects s a → nextDraw s ≠ .ok →
    ∃ sl : Slave,
      (∀ r, ¬WriteReaches reg r → srRead sl r = srRead s.slave r) ∧ (reg ≠ 0x00 → sl.osc = s.slave.osc)
      ∧ let after (hung : Bool) (o : BusOutcome) : State :=
          { s with
            slave := sl
            unitP := { s.unitP with i2cHung := hung }
            busLog := s.busLog ++ [{ kind := .wr, a7 := a, reg := some reg, data := some d, outcome := o }]
            env := { (afterDraw s).env with count := (afterDraw s).env.count + 256 } }
        (nextDraw s = .fail → exec (.i2cWr a reg d) s = .next (deliver .fail (after false .fail)))
        ∧ (nextDraw s = .hang → exec (.i2cWr a reg d) s = .next (after true .hang))

/-- An address no slave answers (40_pwm_slave.md R140, R157; 10_state.md R37): a write and a read fail with outcome
`NACK` whatever the draw, and change no slave state. Address 0x00 is such an address, whatever registers the slave
compares with (DEDUCED, notes/assumptions/9.md). -/
def Obligations.UnansweredAddressFails : Prop :=
  ∀ (s : State) (a : BitVec 7) (reg d : Byte),
    s.unitP.i2cHung = false → ¬Selects s a →
    exec (.i2cWr a reg d) s =
        .next
          (deliver .fail
            { s with
              busLog := s.busLog ++ [{ kind := .wr, a7 := a, reg := some reg, data := some d, outcome := .nack }]
              env := (afterDraw s).env })
      ∧ exec (.i2cRd a reg) s =
          .next
            (deliver .fail
              { s with
                busLog := s.busLog ++ [{ kind := .rd, a7 := a, reg := some reg, data := none, outcome := .nack }]
                env := (afterDraw s).env })

/-- A register read at the slave's own address, drawn `OK` (40_pwm_slave.md R143): the slave is unchanged and the byte
is the register's, but for bit 7 of `MODE1`, bit 0 of the four address registers and the registers that hold nothing,
which read as any value; bit 6 of `MODE1` reads 0. The byte is recorded and delivered. -/
def Obligations.RegisterReadCompletes : Prop :=
  ∀ (s : State) (reg : Byte),
    s.unitP.i2cHung = false → nextDraw s = .ok → s.cfg.slaveAddr ≠ 0 →
    ∃ v : Byte,
      exec (.i2cRd s.cfg.slaveAddr reg) s =
        .next
          (deliver (.ok (some v))
            { s with
              busLog :=
                s.busLog
                  ++ [{ kind := .rd, a7 := s.cfg.slaveAddr, reg := some reg, data := some v, outcome := .ok }]
              env := { (afterDraw s).env with count := (afterDraw s).env.count + 256 } })
      ∧ (reg = 0x00 → v.toNat % 128 = (srRead s.slave 0x00).toNat % 64)
      ∧ (0x02 ≤ reg.toNat → reg.toNat ≤ 0x05 → v.toNat / 2 = (srRead s.slave reg.toNat).toNat / 2)
      ∧ (reg = 0x01 ∨ (0x06 ≤ reg.toNat ∧ reg.toNat ≤ 0x45) ∨ reg = 0xFE → v = srRead s.slave reg.toNat)

/-- A register read that gives no byte (40_pwm_slave.md R140, R157; 41_pwm_commands.md R194): at an address the slave
answers, a failed or hung read changes no slave state, and a read drawn `OK` that only a sub-address or the all-call
address selects is refused (notes/assumptions/10.md, 11.md). UnansweredAddressFails says what a read at any other
address does. -/
def Obligations.RegisterReadWithoutByte : Prop :=
  ∀ (s : State) (a : BitVec 7) (reg : Byte),
    s.unitP.i2cHung = false →
    let after (hung : Bool) (o : BusOutcome) : State :=
      { s with
        unitP := { s.unitP with i2cHung := hung }
        busLog := s.busLog ++ [{ kind := .rd, a7 := a, reg := some reg, data := none, outcome := o }]
        env := (afterDraw s).env }
    (Selects s a → nextDraw s = .fail → exec (.i2cRd a reg) s = .next (deliver .fail (after false .fail)))
      ∧ (Selects s a → nextDraw s = .hang → exec (.i2cRd a reg) s = .next (after true .hang))
      ∧ (Selects s a → nextDraw s = .ok → a ≠ s.cfg.slaveAddr →
          exec (.i2cRd a reg) s =
            .next
              (deliver .refused
                { s with refused := addMark .subaddressRead s.refused, env := (afterDraw s).env }))

/-- The software reset, drawn `OK` (40_pwm_slave.md R141, 70_reset_and_hazards.md R392): every register has its reset
value and the oscillator is stopped, whatever the slave's state was and whatever the addresses are; nothing else of the
block changes but what the outcome does to the waiting port. -/
def Obligations.GeneralCallResets : Prop :=
  ∀ s : State,
    s.unitP.i2cHung = false → nextDraw s = .ok →
    ∃ sl : Slave,
      exec (.i2cGc 0x06) s =
        .next
          (deliver (.ok none)
            { s with
              slave := sl
              busLog := s.busLog ++ [{ kind := .gc, a7 := 0, reg := none, data := some 0x06, outcome := .ok }]
              env := { (afterDraw s).env with count := (afterDraw s).env.count + 256 } })
      ∧ srRead sl 0x00 = 0x11 ∧ srRead sl 0x01 = 0x04 ∧ srRead sl 0x02 = 0xE2 ∧ srRead sl 0x03 = 0xE4
      ∧ srRead sl 0x04 = 0xE8 ∧ srRead sl 0x05 = 0xE0
      ∧ (∀ n < 16, srRead sl (0x06 + 4 * n) = 0x00 ∧ srRead sl (0x07 + 4 * n) = 0x00
          ∧ srRead sl (0x08 + 4 * n) = 0x00 ∧ srRead sl (0x09 + 4 * n) = 0x10)
      ∧ srRead sl 0xFE = 0x1E ∧ sl.osc = .stopped

/-- A general call that resets nothing: a data byte other than 0x06 is refused (40_pwm_slave.md R141), whatever the draw
(DEDUCED, notes/assumptions/9.md: 41_pwm_commands.md R195 draws first), and a port that waited for it is stuck
(notes/assumptions/11.md); a software reset drawn `FAIL` or `HANG` leaves the slave in any state (R157) and everything
else as its outcome says. -/
def Obligations.GeneralCallWithoutReset : Prop :=
  ∀ (s : State) (d : Byte),
    s.unitP.i2cHung = false →
    (d ≠ 0x06 →
        exec (.i2cGc d) s =
          .next (deliver .refused { s with refused := addMark .generalCallData s.refused, env := (afterDraw s).env }))
      ∧ (nextDraw s ≠ .ok →
          ∃ sl : Slave,
            let after (hung : Bool) (o : BusOutcome) : State :=
              { s with
                slave := sl
                unitP := { s.unitP with i2cHung := hung }
                busLog := s.busLog ++ [{ kind := .gc, a7 := 0, reg := none, data := some 0x06, outcome := o }]
                env := { (afterDraw s).env with count := (afterDraw s).env.count + 256 } }
            (nextDraw s = .fail → exec (.i2cGc 0x06) s = .next (deliver .fail (after false .fail)))
            ∧ (nextDraw s = .hang → exec (.i2cGc 0x06) s = .next (after true .hang)))

/-- While the I2C bus is hung no transaction takes place (10_state.md R40, 41_pwm_commands.md R231): a transaction
changes nothing, and so does the step of a sequencer context whose next micro-op is one. -/
def Obligations.HungBusHolds : Prop :=
  (∀ (s : State) (a : BitVec 7) (reg d : Byte), s.unitP.i2cHung = true →
      exec (.i2cWr a reg d) s = .next s ∧ exec (.i2cRd a reg) s = .next s ∧ exec (.i2cGc d) s = .next s)
    ∧ ∀ (s : State) (p : Nat) (rest : List Agent) (P : PwmPort) (m : MicroOp),
        s.unitP.i2cHung = true → s.env.sched = .seq p :: rest → s.unitP.ports[p]? = some P →
        P.seq[P.upc.toNat]? = some m → (∀ us, m ≠ .wait us) →
        ∃ t, step s = .next t ∧ t = { s with sel := t.sel, env := { s.env with sched := rest } }

/-! ### One step of an agent -/

/-- A host thread scheduled next that writes a word to the `CMD` register of an idle port (R190, R254; R97: the word
is consumed when it is written): the step is `exec` of the instruction the word decodes to, for that port, with the
word in `CMD` and the write gone from the thread; an illegal word is `issueIllegal` there (IllegalWordRejected). -/
def Obligations.StepRunsWrittenWord : Prop :=
  ∀ (s : State) (k : Nat) (rest : List Agent) (t : Thread) (ops : List HostOp) (π : PortSel) (w : Word) (st : Status),
    s.env.sched = .host k :: rest → s.host.threads[k]? = some t → t.prog = .portWrite π 0 32 w :: ops →
    portStatus s π = some st → st.busy = false →
    let s0 : State :=
      { s with
        env := { s.env with sched := rest }
        host := { s.host with threads := s.host.threads.set k { t with prog := ops } } }
    (∀ i, decodeWord w = .ok i → step s = exec i { storeCmd π w s0 with sel := π })
      ∧ ∀ e, decodeWord w = .error e → step s = issueIllegal { storeCmd π w s0 with sel := π }

/-- A transaction runs as the instruction it is. A sequencer context scheduled next whose port is busy, not past its
end, not stuck (notes/assumptions/11.md) and not held by R232 (41_pwm_commands.md R192-R195): the step is `exec` of the
transaction its micro-op stands for, at `DEV_ADDR`, for that port; a write from `TMP` writes `(TMP & mask) | set`. The
bare master scheduled next, with the bus not hung (notes/assumptions/13.md): the step is `exec` of the frame's
transaction, performed for no port; a frame of no admitted form is refused (40_pwm_slave.md R140, R158; which reason:
notes/assumptions/38.md), and so is a register frame at address 0x00 (notes/assumptions/9.md). -/
def Obligations.StepRunsTransaction : Prop :=
  (∀ (s : State) (p : Nat) (rest : List Agent) (P : PwmPort) (m : MicroOp),
      s.env.sched = .seq p :: rest → s.unitP.ports[p]? = some P → P.status.busy = true → P.stuck = false →
      P.seq[P.upc.toNat]? = some m → heldByChannel s.unitP.ports p P = false →
      let s0 : State := { s with env := { s.env with sched := rest }, sel := .pwm p }
      (∀ d, m = .gc d → step s = exec (.i2cGc d) s0)
        ∧ (∀ reg, m = .rd reg → step s = exec (.i2cRd s.unitP.devAddr reg) s0)
        ∧ (∀ reg v, m = .wr reg (.imm v) → step s = exec (.i2cWr s.unitP.devAddr reg v) s0)
        ∧ ∀ reg mask set b, m = .wr reg (.tmp mask set) → P.tmp = some b →
            step s = exec (.i2cWr s.unitP.devAddr reg ((b &&& mask) ||| set)) s0)
    ∧ ∀ (s : State) (rest : List Agent) (f : List (List Byte)) (fs : List (List (List Byte))),
        s.env.sched = .master :: rest → s.frames = f :: fs → s.unitP.i2cHung = false →
        let s0 : State := { s with env := { s.env with sched := rest }, frames := fs }
        let refusedAs (r : RefuseReason) : Prop := step s = .next { s0 with refused := addMark r s.refused }
        (∀ a reg d, decodeFrame f = .ok (.i2cWr a reg d) →
            if a = 0 then refusedAs .multibyteForm else step s = exec (.i2cWr a reg d) { s0 with sel := .direct })
          ∧ (∀ a reg, decodeFrame f = .ok (.i2cRd a reg) →
              if a = 0 then refusedAs .generalCallRead else step s = exec (.i2cRd a reg) { s0 with sel := .direct })
          ∧ (∀ d, decodeFrame f = .ok (.i2cGc d) → step s = exec (.i2cGc d) { s0 with sel := .direct })
          ∧ (decodeFrame f = .error .generalCallRead → refusedAs .generalCallRead)
          ∧ ∀ e, decodeFrame f = .error e → e ≠ .generalCallRead → refusedAs .multibyteForm

/-- `WAIT(t)` (41_pwm_commands.md R196): not enabled while `t` is at least `OSC_WAIT_US` = 500 and the oscillator is
waking; else it is done, with no transaction, and changes nothing but its port's progress; the bus being hung does not
matter. (A stuck port takes no step: notes/assumptions/11.md.) -/
def Obligations.WaitRule : Prop :=
  ∀ (s : State) (p : Nat) (rest : List Agent) (P : PwmPort) (us : Nat),
    s.env.sched = .seq p :: rest → s.unitP.ports[p]? = some P → P.status.busy = true → P.stuck = false →
    P.seq[P.upc.toNat]? = some (.wait us) → heldByChannel s.unitP.ports p P = false →
    let s0 : State := { s with env := { s.env with sched := rest } }
    (500 ≤ us ∧ s.slave.osc = .waking → step s = .next s0)
      ∧ (¬(500 ≤ us ∧ s.slave.osc = .waking) → step s = .next (settle p (.ok none) s0))

/-- The oscillator's own step (40_pwm_slave.md R156): from `WAKING` to `RUNNING`, and nothing else; in the other two
states it has no step. -/
def Obligations.OscillatorStep : Prop :=
  ∀ (s : State) (rest : List Agent),
    s.env.sched = .osc :: rest →
    step s =
      .next
        { s with
          env := { s.env with sched := rest }
          slave := { sr := s.slave.sr, osc := if s.slave.osc = .waking then .running else s.slave.osc } }

/-- Same-channel order (41_pwm_commands.md R232): a micro-op of a `pwm.chan` on channel c is taken only if no other
port has an active `pwm.chan` on c with a smaller `STAMP`; otherwise the step of its context changes nothing. Once no
such port is left, the micro-op is the port's next one (of a port that is not stuck: notes/assumptions/11.md). -/
def Obligations.SameChannelHold : Prop :=
  ∀ (s : State) (p : Nat) (rest : List Agent) (P : PwmPort) (c : BitVec 8) (duty : BitVec 12) (mine : Nat),
    s.env.sched = .seq p :: rest → s.unitP.ports[p]? = some P → P.op = some (.chan c duty) → P.stamp = some mine →
    let earlier : Prop :=
      ∃ q Q d k, q ≠ p ∧ s.unitP.ports[q]? = some Q ∧ Q.status.busy = true ∧ Q.op = some (.chan c d)
        ∧ Q.stamp = some k ∧ k < mine
    (earlier → step s = .next { s with env := { s.env with sched := rest } })
      ∧ (¬earlier → P.status.busy = true → P.stuck = false → P.upc.toNat < P.seq.length →
          nextMicroOp s.unitP.ports p = P.seq[P.upc.toNat]?)

/-- What the outcome of a micro-op does (41_pwm_commands.md R191, R192, R194): done, `upc` advances, a byte read goes
to `TMP`, and after the last one the command completes with `OK`; failed, it completes with `BUS_ERROR` and
`FAIL_STEP` = `upc`; hung or held, nothing. FreqCompletionEffect states the effect on `F_CONF`. After a refused
transaction, of which the spec says nothing, the port is stuck: busy, and its context takes no step
(DESIGN CHOICE, notes/assumptions/11.md). The outcome of a transaction is delivered so to the port it was performed
for, if that port waits for one, and to nobody else: a bare transaction, or a port that is idle, past its end, stuck or
absent, changes nothing by it. -/
def Obligations.MicroOpOutcome : Prop :=
  (∀ (s : State) (p : Nat) (rest : List Agent) (P : PwmPort),
        s.env.sched = .seq p :: rest → s.unitP.ports[p]? = some P → P.stuck = true →
        step s = .next { s with env := { s.env with sched := rest } })
    ∧ (∀ (s : State) (p : Nat) (r : TxReturn), s.sel = .pwm p →
        deliver r s = settle p r s
        ∧ ((∀ P, s.unitP.ports[p]? = some P →
              ¬(P.status.busy = true ∧ P.upc.toNat < P.seq.length ∧ P.stuck = false)) →
            deliver r s = s))
    ∧ (∀ (s : State) (r : TxReturn), (∀ p, s.sel ≠ .pwm p) → deliver r s = s)
    ∧ ∀ (s : State) (p : Nat) (P : PwmPort),
        s.unitP.ports[p]? = some P → P.status.busy = true → P.upc.toNat < P.seq.length → P.stuck = false →
        let portBecomes (f : FConf) (Q : PwmPort) : State :=
          { s with unitP := { s.unitP with fConf := f, ports := s.unitP.ports.set p Q } }
        (∀ data : Option Byte, P.upc.toNat + 1 < P.seq.length →
            settle p (.ok data) s = portBecomes s.unitP.fConf { P with upc := P.upc + 1, tmp := data.or P.tmp })
          ∧ (∀ data : Option Byte, P.upc.toNat + 1 = P.seq.length →
              settle p (.ok data) s =
                portBecomes (completeEffect P.op .ok s.unitP.fConf)
                  { P with
                    upc := P.upc + 1, tmp := data.or P.tmp, seq := []
                    status := { busy := false, failStep := 0x00, err := .ok } })
          ∧ settle p .fail s =
              portBecomes (completeEffect P.op .busError s.unitP.fConf)
                { P with seq := [], status := { busy := false, failStep := P.upc, err := .busError } }
          ∧ settle p .hang s = s ∧ settle p .held s = s
          ∧ settle p .refused s = portBecomes s.unitP.fConf { P with stuck := true }

/-- The completion effect of `pwm.freq` (41_pwm_commands.md R213): with `OK`, `F_CONF` is valid and holds the frequency;
with `BUS_ERROR` it is invalid and keeps the old one; with any other code, and for every other command, it does not
change. Said of completion itself, for every state, port and code. -/
def Obligations.FreqCompletionEffect : Prop :=
  ∀ (s : State) (p : Nat) (P : PwmPort) (code : ErrCode) (failStep : Byte),
    s.unitP.ports[p]? = some P →
    let f := (completePwm p code failStep s).unitP.fConf
    (∀ hz, P.op = some (.freq hz) →
        (code = .ok → f = { valid := true, hz := hz })
        ∧ (code = .busError → f = { valid := false, hz := s.unitP.fConf.hz })
        ∧ (code ≠ .ok → code ≠ .busError → f = s.unitP.fConf))
      ∧ ((∀ hz, P.op ≠ some (.freq hz)) → f = s.unitP.fConf)

/-! ### Whole commands -/

/-- A whole `pwm.init` (41_pwm_commands.md R202, 70_reset_and_hazards.md R393), from any state of the slave, at the
slave's own address, with every draw `OK` and no step of another agent in between but the oscillator's: after the issue
and six steps the slave is in the state R202 gives, the command has completed with `OK`, and the bus has seen the three
transactions of R201, the read giving 0x11 or 0x91. -/
def Obligations.PwmInitRun : Prop :=
  ∀ (s : State) (p : Nat) (P : PwmPort) (a : BitVec 7) (rest : List Agent) (draws : List Draw),
    s.sel = .pwm p → s.unitP.ports[p]? = some P → P.status.busy = false → a ≠ 0 → a = s.cfg.slaveAddr →
    s.unitP.i2cHung = false → s.env.outcomes = .ok :: .ok :: .ok :: draws →
    s.env.sched = .seq p :: .seq p :: .seq p :: .seq p :: .osc :: .seq p :: rest →
    ∃ (s1 t : State) (v : Byte) (Q : PwmPort),
      exec (.pwmInit a) s = .next s1 ∧ Host.Core.run core 6 s1 = .next t
      ∧ (v = 0x11 ∨ v = 0x91)
      ∧ t.busLog =
          s.busLog
            ++ [{ kind := .gc, a7 := 0, reg := none, data := some 0x06, outcome := .ok },
              { kind := .rd, a7 := a, reg := some 0x00, data := some v, outcome := .ok },
              { kind := .wr, a7 := a, reg := some 0x00, data := some 0x01, outcome := .ok }]
      ∧ srRead t.slave 0x00 = 0x01
      ∧ (∀ r, r ≠ 0x00 → srRead t.slave r = srRead Slave.reset r) ∧ t.slave.osc = .running
      ∧ t.unitP.devAddr = a ∧ t.unitP.fConf.valid = false
      ∧ t.unitP.ports[p]? = some Q ∧ Q.status = { busy := false, failStep := 0x00, err := .ok }
      ∧ (∀ q, q ≠ p → t.unitP.ports[q]? = s.unitP.ports[q]?)
      ∧ t.strips = s.strips ∧ t.refused = s.refused

/-- A whole `pwm.freq` (41_pwm_commands.md R211, R214) with the slave addressed and `MODE1` any byte at all (a failed
write may leave any: 40_pwm_slave.md R157): after the issue and six steps `PRE_SCALE` holds the prescale, `MODE1` is as
before with bits 7:6 and `SLEEP` (bit 4) 0, the oscillator runs, `F_CONF` holds the frequency, every other register is
unchanged, and the bus has seen the four transactions of R211. -/
def Obligations.PwmFreqRun : Prop :=
  ∀ (s : State) (p : Nat) (P : PwmPort) (hz : BitVec 16) (rest : List Agent) (draws : List Draw),
    s.sel = .pwm p → s.unitP.ports[p]? = some P → P.status.busy = false → hz ≠ 0 →
    s.unitP.devAddr = s.cfg.slaveAddr → s.cfg.slaveAddr ≠ 0 → s.unitP.i2cHung = false →
    Memory.wf slaveReset s.slave.sr →
    s.env.outcomes = .ok :: .ok :: .ok :: .ok :: draws →
    s.env.sched = .seq p :: .seq p :: .seq p :: .seq p :: .osc :: .seq p :: rest →
    let p8 := prescale s.cfg.prescaleNum hz.toNat
    let kept := srRead s.slave 0x00 &&& 0x2F
    let wrote (reg d : Byte) : BusEntry :=
      { kind := .wr, a7 := s.cfg.slaveAddr, reg := some reg, data := some d, outcome := .ok }
    ∃ (s1 t : State) (v : Byte) (Q : PwmPort),
      exec (.pwmFreq hz) s = .next s1 ∧ Host.Core.run core 6 s1 = .next t
      ∧ v.toNat % 128 = (srRead s.slave 0x00).toNat % 64
      ∧ t.busLog =
          s.busLog
            ++ [{ kind := .rd, a7 := s.cfg.slaveAddr, reg := some 0x00, data := some v, outcome := .ok },
              wrote 0x00 (kept ||| 0x10), wrote 0xFE p8, wrote 0x00 kept]
      ∧ srRead t.slave 0xFE = p8 ∧ srRead t.slave 0x00 = kept
      ∧ (∀ r, r ≠ 0x00 → r ≠ 0xFE → srRead t.slave r = srRead s.slave r) ∧ t.slave.osc = .running
      ∧ t.unitP.fConf = { valid := true, hz := hz }
      ∧ t.unitP.ports[p]? = some Q ∧ Q.status = { busy := false, failStep := 0x00, err := .ok }
      ∧ (∀ q, q ≠ p → t.unitP.ports[q]? = s.unitP.ports[q]?)
      ∧ t.unitP.devAddr = s.unitP.devAddr ∧ t.strips = s.strips ∧ t.refused = s.refused

/-- A whole `pwm.chan` (41_pwm_commands.md R221-R223), when the slave answers `DEV_ADDR` and no other command is active:
after the issue and two steps the channel's duty is the operand, bit 4 of its high register is 0, every other register
and the oscillator are unchanged, the bus has seen the two writes, low register first, and the command has completed. -/
def Obligations.PwmChanRun : Prop :=
  ∀ (s : State) (p : Nat) (P : PwmPort) (ch : BitVec 8) (d : BitVec 12) (rest : List Agent) (draws : List Draw),
    s.sel = .pwm p → s.unitP.ports[p]? = some P → P.status.busy = false → ch.toNat ≤ 15 →
    (∀ (q : Nat) (Q : PwmPort), s.unitP.ports[q]? = some Q → Q.status.busy = false) →
    Selects s s.unitP.devAddr → s.unitP.i2cHung = false → Memory.wf slaveReset s.slave.sr →
    s.env.outcomes = .ok :: .ok :: draws → s.env.sched = .seq p :: .seq p :: rest →
    ∃ (s1 t : State) (Q : PwmPort),
      exec (.pwmChan ch d) s = .next s1 ∧ Host.Core.run core 2 s1 = .next t
      ∧ duty s.cfg.dutyPair t.slave ch.toNat = d
      ∧ (srRead t.slave (lowDuty s.cfg ch.toNat)).toNat = d.toNat % 256
      ∧ (srRead t.slave (lowDuty s.cfg ch.toNat + 1)).toNat = d.toNat / 256
      ∧ (∀ r, r ≠ lowDuty s.cfg ch.toNat → r ≠ lowDuty s.cfg ch.toNat + 1 → srRead t.slave r = srRead s.slave r)
      ∧ t.slave.osc = s.slave.osc
      ∧ t.busLog =
          s.busLog
            ++ [{ kind := .wr, a7 := s.unitP.devAddr, reg := some (BitVec.ofNat 8 (lowDuty s.cfg ch.toNat))
                  data := some (BitVec.ofNat 8 (d.toNat % 256)), outcome := .ok },
              { kind := .wr, a7 := s.unitP.devAddr, reg := some (BitVec.ofNat 8 (lowDuty s.cfg ch.toNat + 1))
                data := some (BitVec.ofNat 8 (d.toNat / 256)), outcome := .ok }]
      ∧ t.unitP.ports[p]? = some Q ∧ Q.status = { busy := false, failStep := 0x00, err := .ok }
      ∧ (∀ q, q ≠ p → t.unitP.ports[q]? = s.unitP.ports[q]?)
      ∧ t.unitP.fConf = s.unitP.fConf ∧ t.unitP.devAddr = s.unitP.devAddr ∧ t.strips = s.strips
      ∧ t.faults = s.faults ∧ t.refused = s.refused

/-- A whole `ws.show` of at least one byte, in each mode, on an idle strip whose first `n` bytes are written
(42_ws2812_encoder.md R260, R251, R256-R258): after the issue and four steps the strip has sent exactly the encoding of
those bytes at the synthesized clock, then latched; the command has completed with `OK`, its `upc` at the length of the
sequence (10_state.md R32); `IBUF`, unit P, the slave and every other strip are unchanged. -/
def Obligations.WsShowRun : Prop :=
  ∀ (s : State) (i q : Nat) (u : WUnit) (P : WPort) (mode : EncMode) (n : BitVec 16) (bytes : List Byte)
    (rest : List Agent) (draws : List Draw),
    s.sel = .ws i q → s.strips[i]? = some u → u.ports[q]? = some P → P.status.busy = false →
    u.queue = [] → u.stopped = false → u.spiHung = false → Memory.wf unwritten u.obuf →
    0 < n.toNat → n.toNat ≤ 3 * u.conf.pixelCount → Memory.readBytes unwritten u.ibuf 0 n.toNat = some bytes →
    s.env.outcomes = .ok :: draws → s.env.sched = .unit i :: .unit i :: .unit i :: .unit i :: rest →
    let packed := packing s.cfg.encAutoThreshold mode n.toNat
    let out := encodeBytes packed bytes
    let command : Instr := match mode with | .m8 => .wsShowM8 n | .m4 => .wsShowM4 n | .auto => .wsShowAuto n
    ∃ (s1 t : State) (v : WUnit) (Q : WPort),
      exec command s = .next s1 ∧ Host.Core.run core 4 s1 = .next t
      ∧ t.strips[i]? = some v ∧ v.trace = u.trace ++ [.xfer out (divider u.conf packed) .ok, .latch]
      ∧ v.olen = out.length ∧ v.omode = packed ∧ v.div = divider u.conf packed ∧ v.txState = .idle
      ∧ v.queue = [] ∧ v.spiHung = false ∧ v.ibuf = u.ibuf
      ∧ v.ports[q]? = some Q ∧ Q.status = { busy := false, failStep := 0x00, err := .ok } ∧ Q.upc = 4
      ∧ (∀ q', q' ≠ q → v.ports[q']? = u.ports[q']?) ∧ (∀ j, j ≠ i → t.strips[j]? = s.strips[j]?)
      ∧ t.unitP = s.unitP ∧ t.slave = s.slave ∧ t.busLog = s.busLog ∧ t.faults = s.faults ∧ t.refused = s.refused

/-! ### The W unit -/

/-- The `ENC` step (42_ws2812_encoder.md R250, R251, R260; the packing by R253) of the head command, all of whose input
bytes are written: the output bytes of each input byte, bit 7 first; `OLEN`, `OMODE`; bytes above `OLEN` keep their
contents; `upc` is 1 (10_state.md R32); then `ws.enc`, and a `ws.show` of no byte, complete with `OK`, any other
`ws.show` goes on to its step 1. Nothing else of the unit or of the machine changes. -/
def Obligations.EncodeStep : Prop :=
  ∀ (s : State) (i q : Nat) (u : WUnit) (P : WPort) (c : WsCmd) (mode : EncMode) (n : BitVec 16) (bytes : List Byte)
    (qs : List (Nat × WsCmd)) (rest : List Agent),
    s.env.sched = .unit i :: rest → s.strips[i]? = some u → u.stopped = false → u.spiHung = false →
    u.queue = (q, c) :: qs → u.ports[q]? = some P → P.upc = 0 → (c = .enc mode n ∨ c = .display mode n) →
    Memory.wf unwritten u.obuf → Memory.readBytes unwritten u.ibuf 0 n.toNat = some bytes →
    ∃ (v : WUnit) (Q : WPort) (left : List (Nat × WsCmd)),
      step s = .next { s with env := { s.env with sched := rest }, strips := s.strips.set i v }
      ∧ v = { u with obuf := v.obuf, olen := v.olen, omode := v.omode, ports := u.ports.set q Q, queue := left }
      ∧ (v.omode = .m4 ↔ mode = .m4 ∨ (mode = .auto ∧ 8 * n.toNat < s.cfg.encAutoThreshold))
      ∧ (v.omode = .m8 → v.olen = 8 * n.toNat ∧ ∀ j b, bytes[j]? = some b → ∀ k < 8,
          Memory.read unwritten v.obuf (8 * j + k) = some (if b.toNat.testBit (7 - k) then 0xF8 else 0x80))
      ∧ (v.omode = .m4 → v.olen = 4 * n.toNat ∧ ∀ j b, bytes[j]? = some b → ∀ k < 4,
          Memory.read unwritten v.obuf (4 * j + k) =
            some
              (BitVec.ofNat 8
                (16 * (if b.toNat.testBit (7 - 2 * k) then 0xE else 0x8)
                  + if b.toNat.testBit (6 - 2 * k) then 0xE else 0x8)))
      ∧ (∀ a, v.olen ≤ a → Memory.read unwritten v.obuf a = Memory.read unwritten u.obuf a)
      ∧ (c = .enc mode n ∨ n = 0 →
          Q = { P with status := { busy := false, failStep := 0x00, err := .ok }, upc := 1 } ∧ left = qs)
      ∧ (c = .display mode n → n ≠ 0 → Q = { P with upc := 1 } ∧ left = u.queue)

/-- Decoding the encoder's output by the inverse tables gives back the bits of the input, in order, in either packing
(42_ws2812_encoder.md R252, 30_encoding.md R122, 20_memory.md R84: bit 7 of a byte first). -/
def Obligations.EncodeRoundTrip : Prop :=
  ∀ (packed : Packing) (bytes : List Byte),
    unsymbols packed (encodeBytes packed bytes) =
      some (bytes.flatMap fun b => (List.range 8).map fun k => b.toNat.testBit (7 - k))

/-- A W unit that takes no effect (60_exceptions.md R355, 42_ws2812_encoder.md R250, R262, R267): an `ENC` that would
read an unwritten byte marks `UNWRITTEN_READ` and stops the unit; a stopped unit, one whose SPI bus is hung and one
whose queue is empty change nothing when they are scheduled. -/
def Obligations.StoppedUnitHolds : Prop :=
  ∀ (s : State) (i : Nat) (u : WUnit) (rest : List Agent),
    s.env.sched = .unit i :: rest → s.strips[i]? = some u →
    let s0 : State := { s with env := { s.env with sched := rest } }
    (∀ (q : Nat) (c : WsCmd) (qs : List (Nat × WsCmd)) (P : WPort) (mode : EncMode) (n : BitVec 16) (k : Nat),
        u.stopped = false → u.spiHung = false → u.queue = (q, c) :: qs → u.ports[q]? = some P → P.upc = 0 →
        (c = .enc mode n ∨ c = .display mode n) → k < n.toNat → Memory.read unwritten u.ibuf k = none →
        step s =
          .next
            { s0 with
              faults := addMark .unwrittenRead s.faults
              strips := s.strips.set i { u with stopped := true } })
      ∧ (u.stopped = true ∨ u.spiHung = true ∨ u.queue = [] → step s = .next s0)

/-- `ws.tx` with `OLEN` = 0 (42_ws2812_encoder.md R255): the command completes with `OK`, the trace does not grow, and
nothing else changes. It completes in the step of the W unit, not at issue (notes/assumptions/33.md). -/
def Obligations.EmptyTxCompletes : Prop :=
  ∀ (s : State) (i q : Nat) (u : WUnit) (P : WPort) (qs : List (Nat × WsCmd)) (rest : List Agent),
    s.env.sched = .unit i :: rest → s.strips[i]? = some u → u.stopped = false → u.spiHung = false →
    u.queue = (q, .tx) :: qs → u.ports[q]? = some P → P.upc = 0 → u.olen = 0 →
    step s =
      .next
        { s with
          env := { s.env with sched := rest }
          strips :=
            s.strips.set i
              { u with
                ports := u.ports.set q { P with status := { busy := false, failStep := 0x00, err := .ok } }
                queue := qs } }

/-- The `SYNTH` and `LATCH` steps of the head command (42_ws2812_encoder.md R256, R257, R259): `SYNTH` sets `DIV` and
goes on, `LATCH` records the latch, ends the frame and completes the command with `OK`; each advances `upc`
(10_state.md R32). -/
def Obligations.SynthAndLatch : Prop :=
  ∀ (s : State) (i q : Nat) (u : WUnit) (P : WPort) (c : WsCmd) (qs : List (Nat × WsCmd)) (rest : List Agent),
    s.env.sched = .unit i :: rest → s.strips[i]? = some u → u.stopped = false → u.spiHung = false →
    u.queue = (q, c) :: qs → u.ports[q]? = some P →
    let becomes (v : WUnit) : State := { s with env := { s.env with sched := rest }, strips := s.strips.set i v }
    let isShow : Prop := ∃ mode n, c = .display mode n
    let target := u.conf.clockHz * if u.omode = .m8 then 8 else 4
    ((c = .tx ∧ P.upc = 0 ∧ u.olen ≠ 0) ∨ (isShow ∧ P.upc = 1) →
        step s =
          .next
            (becomes
              { u with
                div := min (max ((u.conf.fRef + target - 1) / target) 1) u.conf.divMax
                ports := u.ports.set q { P with upc := P.upc + 1 } }))
      ∧ ((c = .tx ∧ P.upc = 2) ∨ (isShow ∧ P.upc = 3) →
          step s =
            .next
              (becomes
                { u with
                  trace := u.trace ++ [.latch], txState := .idle, queue := qs
                  ports :=
                    u.ports.set q
                      { P with status := { busy := false, failStep := 0x00, err := .ok }, upc := P.upc + 1 } }))

/-- The `XFER` step of the head command (42_ws2812_encoder.md R258, R259) with the bytes `OBUF[0..OLEN)`: the transfer
is recorded whatever its outcome; drawn `OK` it goes on to `LATCH`, drawn `FAIL` the command completes with
`BUS_ERROR` at `FAIL_STEP` 1 or 2, drawn `HANG` the SPI bus is hung and the command stays. -/
def Obligations.TransferOutcomes : Prop :=
  ∀ (s : State) (i q : Nat) (u : WUnit) (P : WPort) (c : WsCmd) (out : List Byte) (qs : List (Nat × WsCmd))
    (rest : List Agent) (draw : Draw) (draws : List Draw),
    s.env.sched = .unit i :: rest → s.strips[i]? = some u → u.stopped = false → u.spiHung = false →
    u.queue = (q, c) :: qs → u.ports[q]? = some P →
    (c = .tx ∧ P.upc = 1) ∨ ((∃ mode n, c = .display mode n) ∧ P.upc = 2) →
    Memory.readBytes unwritten u.obuf 0 u.olen = some out → s.env.outcomes = draw :: draws →
    let becomes (v : WUnit) : State :=
      { s with
        strips := s.strips.set i { v with trace := u.trace ++ [.xfer out u.div draw] }
        env := { sched := rest, outcomes := draws, count := s.env.count + u.olen } }
    (draw = .ok → step s = .next (becomes { u with txState := .latch, ports := u.ports.set q { P with upc := P.upc + 1 } }))
      ∧ (draw = .fail →
          step s =
            .next
              (becomes
                { u with
                  txState := .idle, queue := qs
                  ports := u.ports.set q { P with status := { busy := false, failStep := P.upc, err := .busError } } }))
      ∧ (draw = .hang → step s = .next (becomes { u with txState := .sending, spiHung := true }))

/-- The consequences of the divider formula, for a platform with positive clocks and `DIV_MAX` (42_ws2812_encoder.md
R256, R264), with `target` = `CLOCK_HZ` x SPI bits per data bit and no fraction left: without the clamp
`DIV` / `F_REF` is at least 1 / `target` and less than 1 / `target` + 1 / `F_REF`; above `DIV_MAX` the clock exceeds the
target; below the target `DIV` is 1; and the rule's example. -/
def Obligations.DividerBounds : Prop :=
  (∀ (conf : StripConfig) (packed : Packing),
      let target := conf.clockHz * if packed = .m8 then 8 else 4
      let div := divider conf packed
      0 < conf.clockHz → 0 < conf.fRef → 0 < conf.divMax →
      (conf.fRef ≤ conf.divMax * target → conf.fRef ≤ div * target ∧ div * target < conf.fRef + target)
      ∧ (conf.divMax * target < conf.fRef → div = conf.divMax ∧ div * target < conf.fRef)
      ∧ (conf.fRef < target → div = 1))
    ∧ ∀ conf : StripConfig, conf.fRef = 250000000 → conf.clockHz = 800000 → 79 ≤ conf.divMax →
        divider conf .m8 = 40 ∧ divider conf .m4 = 79

/-! ### Every step -/

/-- Every step keeps every memory in its canonical form, and the slave's memory lists only registers that exist
(10_state.md R41). -/
def Obligations.StepKeepsMemoryForm : Prop :=
  ∀ s t : State, MemoryForm s → SlaveForm s → step s = .next t → MemoryForm t ∧ SlaveForm t

/-- Every step keeps the form of the PWM ports: `FAIL_STEP` is 0 unless `ERR` is `BUS_ERROR`; `upc` is at most 5; an idle
port has no sequence; a busy port runs the sequence of its command, has passed the value checks, is not past its end,
holds a stamp below `ISSUE_CTR`, and has its `TMP` once a read is behind it, so that no micro-op reads an unwritten `TMP`;
two busy ports hold different stamps, so that one is the earlier (10_state.md R32, R34, R36, R39; 41_pwm_commands.md
R190, R192, R232). -/
def Obligations.StepKeepsPortsForm : Prop :=
  ∀ s t : State, PortsForm s → step s = .next t → PortsForm t

/-- Every step keeps the form of the W units: queued ports are the busy ones, each once, only the head has started and
every byte count fits; `upc` is at most 4; the buffers lie within their sizes, every byte below `OLEN` is written, `DIV`
is at most `DIV_MAX`, and `TXSTATE` is `SENDING` exactly while the bus is hung (10_state.md R32, R49, R50, R52-R54;
42_ws2812_encoder.md R254, R256, R258, R262, R263). -/
def Obligations.StepKeepsUnitsForm : Prop :=
  ∀ s t : State, MemoryForm s → UnitsForm s → step s = .next t → UnitsForm t

/-- What a step never takes back (10_state.md R57, R60, R40, R53; 42_ws2812_encoder.md R267): a reason in `FAULTS` or
`REFUSED`, an entry of `BUSLOG` or of a `TRACE`, a hung bus, a stopped unit; the issue counter does not go down. -/
def Obligations.MarksAndHistoriesGrow : Prop :=
  ∀ s t : State, step s = .next t →
    s.faults <+: t.faults ∧ s.refused <+: t.refused ∧ s.busLog <+: t.busLog
      ∧ (s.unitP.i2cHung = true → t.unitP.i2cHung = true) ∧ s.unitP.issueCtr ≤ t.unitP.issueCtr
      ∧ ∀ (i : Nat) (u : WUnit), s.strips[i]? = some u →
          ∃ v, t.strips[i]? = some v ∧ u.trace <+: v.trace ∧ (u.spiHung = true → v.spiHung = true)
            ∧ (u.stopped = true → v.stopped = true)

/-- No step changes a parameter or the platform's shape (10_state.md R58, R30): the parameters, each strip's
configuration, and how many PWM ports, strips and W ports there are. -/
def Obligations.ParametersFixed : Prop :=
  ∀ s t : State, step s = .next t →
    t.cfg = s.cfg ∧ t.unitP.ports.length = s.unitP.ports.length
      ∧ t.strips.map (fun u => (u.conf, u.ports.length)) = s.strips.map fun u => (u.conf, u.ports.length)

/-- Unit P and the W units share nothing, nor do two strips (10_state.md R30, 20_memory.md R94, 42_ws2812_encoder.md
R262). They change nothing of each other: a step of a W unit changes neither unit P, the slave, the bus log nor another
strip; a step of a sequencer context, of the oscillator or of the bare master changes no strip. And they read nothing of
each other: with any other unit P and slave, or any other contents of another strip, the step of a W unit does the same
and leaves them; with any other strips, the step of a sequencer context, of the oscillator or of the bare master does
the same and leaves them. -/
def Obligations.UnitsIndependent : Prop :=
  ∀ (s t : State) (rest : List Agent), step s = .next t →
    (∀ i, s.env.sched = .unit i :: rest →
        t.unitP = s.unitP ∧ t.slave = s.slave ∧ t.busLog = s.busLog ∧ t.refused = s.refused
          ∧ ∀ j, j ≠ i → t.strips[j]? = s.strips[j]?)
      ∧ ((∃ p, s.env.sched = .seq p :: rest) ∨ s.env.sched = .osc :: rest ∨ s.env.sched = .master :: rest →
          t.strips = s.strips ∧ t.faults = s.faults)
      ∧ (∀ i, s.env.sched = .unit i :: rest →
          (∀ (P : PwmUnit) (sl : Slave),
              step { s with unitP := P, slave := sl } = .next { t with unitP := P, slave := sl })
          ∧ ∀ j v, j ≠ i →
              step { s with strips := s.strips.set j v } = .next { t with strips := t.strips.set j v })
      ∧ ((∃ p, s.env.sched = .seq p :: rest) ∨ s.env.sched = .osc :: rest ∨ s.env.sched = .master :: rest →
          ∀ us : List WUnit, step { s with strips := us } = .next { t with strips := us })

/-- The slave changes only by a transaction that the bus log records, or by the oscillator's step from `WAKING` to
`RUNNING` (40_pwm_slave.md R142, R143, R156, R157; 10_state.md R60). One step records at most one transaction, and no
register changes but by one recorded as a write or a general call. -/
def Obligations.SlaveChangesAreLogged : Prop :=
  ∀ s t : State, step s = .next t →
    (t.busLog = s.busLog ∧ t.slave.sr = s.slave.sr
      ∧ (t.slave.osc = s.slave.osc ∨ (s.slave.osc = .waking ∧ t.slave.osc = .running)))
    ∨ ∃ e : BusEntry, t.busLog = s.busLog ++ [e] ∧ (e.kind = .rd ∨ e.outcome = .nack → t.slave = s.slave)

/-! ### The host -/

/-- A host access to a pixel byte (20_memory.md R82, 60_exceptions.md R355, R356): a write stores the byte and no other;
a read gives the byte, or, where none was written, marks `UNWRITTEN_READ` and gives no value; an index at or above
`IBUF_SIZE` is refused. -/
def Obligations.HostPixelAccess : Prop :=
  ∀ (s : State) (k : Nat) (rest : List Agent) (t : Thread) (ops : List HostOp) (i idx : Nat) (u : WUnit) (v : Byte),
    s.env.sched = .host k :: rest → s.host.threads[k]? = some t → s.strips[i]? = some u →
    Memory.wf unwritten u.ibuf →
    let after (th : Thread) : State :=
      { s with
        env := { s.env with sched := rest }, host := { s.host with threads := s.host.threads.set k th } }
    let size := 3 * u.conf.pixelCount
    (t.prog = .ibufWrite i idx v :: ops →
        (idx < size →
          ∃ ibuf : List Host.Cell,
            step s =
              .next { after { t with prog := ops } with strips := s.strips.set i { u with ibuf := ibuf } }
            ∧ Memory.read unwritten ibuf idx = some v
            ∧ ∀ a, a ≠ idx → Memory.read unwritten ibuf a = Memory.read unwritten u.ibuf a)
        ∧ (size ≤ idx →
          step s = .next { after { t with prog := ops } with refused := addMark .ibufRange s.refused }))
      ∧ (t.prog = .ibufRead i idx :: ops →
          (idx < size → Memory.read unwritten u.ibuf idx = some v →
            step s = .next (after { t with prog := ops, got := some (BitVec.ofNat 32 v.toNat) }))
          ∧ (idx < size → Memory.read unwritten u.ibuf idx = none →
            step s =
              .next { after { t with prog := ops, got := none } with faults := addMark .unwrittenRead s.faults })
          ∧ (size ≤ idx →
            step s =
              .next { after { t with prog := ops, got := none } with refused := addMark .ibufRange s.refused }))

/-- A host access to a port window other than a write of `CMD` (20_memory.md R81, R86; 10_state.md R33-R35, R48;
60_exceptions.md R350, R356): a 32-bit read of `STATUS` gives its fields, of a PWM port's `FREQ` the unit's `F_CONF`;
every other access is refused by its name, and changes nothing else. A port access that is both of the wrong width and
at a wrong offset is refused as `PORT_WIDTH`: the order is the model's (notes/assumptions/19.md). An access at an
address (R81, R91) is the access of the port whose window at `PORT_BASE` holds it (a write of a busy port's `CMD` holds),
and in no window is refused (93_implementation_defined.md I10; where windows overlap: notes/assumptions/26.md). -/
def Obligations.PortAccesses : Prop :=
  (∀ (s : State) (k : Nat) (rest : List Agent) (t : Thread) (ops : List HostOp) (addr width : Nat) (w : Word),
        s.env.sched = .host k :: rest → s.host.threads[k]? = some t →
        let holds (e : PortSel × Nat) : Prop :=
          e.2 ≤ addr ∧ addr < e.2 + (match e.1 with | .pwm _ => 12 | .ws _ _ => 8 | .direct => 0)
        let withProg (ops' : List HostOp) : State :=
          { s with host := { s.host with threads := s.host.threads.set k { t with prog := ops' } } }
        let refusedNow (th : Thread) : State :=
          { s with
            env := { s.env with sched := rest }, host := { s.host with threads := s.host.threads.set k th }
            refused := addMark (if width = 32 ∧ addr % 4 = 0 then .portOffset else .portWidth) s.refused }
        (t.prog = .addrRead addr width :: ops →
            (∀ π base, (π, base) ∈ s.cfg.portBase → holds (π, base) → (∀ e ∈ s.cfg.portBase, holds e → e = (π, base)) →
              step s = step (withProg (.portRead π (addr - base) width :: ops)))
            ∧ ((∀ e ∈ s.cfg.portBase, ¬holds e) → step s = .next (refusedNow { t with prog := ops, got := none })))
          ∧ (t.prog = .addrWrite addr width w :: ops →
            (∀ π base, (π, base) ∈ s.cfg.portBase → holds (π, base) → (∀ e ∈ s.cfg.portBase, holds e → e = (π, base)) →
              let held : Prop := addr = base ∧ width = 32 ∧ ∃ st, portStatus s π = some st ∧ st.busy = true
              (held → step s = .next { s with env := { s.env with sched := rest } })
              ∧ (¬held → step s = step (withProg (.portWrite π (addr - base) width w :: ops))))
            ∧ ((∀ e ∈ s.cfg.portBase, ¬holds e) → step s = .next (refusedNow { t with prog := ops }))))
    ∧ ∀ (s : State) (k : Nat) (rest : List Agent) (t : Thread) (ops : List HostOp) (π : PortSel) (offset width : Nat)
        (w : Word) (st : Status),
        s.env.sched = .host k :: rest → s.host.threads[k]? = some t → portStatus s π = some st →
        let after (th : Thread) : State :=
          { s with
            env := { s.env with sched := rest }, host := { s.host with threads := s.host.threads.set k th } }
        let refusedAs (th : Thread) (r : RefuseReason) : State :=
          { after th with refused := addMark r s.refused }
        let aligned := width = 32 ∧ offset % 4 = 0
        let hasFreq : Prop := ∃ p, π = .pwm p
        let inWindow : Prop := offset = 0 ∨ offset = 4 ∨ (offset = 8 ∧ hasFreq)
        (t.prog = .portRead π offset width :: ops →
            (aligned → offset = 4 →
              ∃ v : Word, step s = .next (after { t with prog := ops, got := some v })
                ∧ v.toNat / 2 ^ 31 = (if st.busy then 1 else 0) ∧ v.toNat / 2 ^ 16 % 2 ^ 15 = 0
                ∧ v.toNat / 2 ^ 8 % 2 ^ 8 = st.failStep.toNat
                ∧ ([(.ok, 0), (.busError, 1), (.invalidChannel, 2), (.invalidFrequency, 3), (.illegalCommand, 4),
                    (.bufferRange, 5), (.invalidAddress, 6)] : List (ErrCode × Nat)).lookup st.err = some (v.toNat % 2 ^ 8))
            ∧ (aligned → offset = 8 → hasFreq →
              ∃ v : Word, step s = .next (after { t with prog := ops, got := some v })
                ∧ v.toNat = (if s.unitP.fConf.valid then 2 ^ 16 else 0) + s.unitP.fConf.hz.toNat)
            ∧ (aligned → offset = 0 → step s = .next (refusedAs { t with prog := ops, got := none } .cmdRead))
            ∧ (aligned → ¬inWindow → step s = .next (refusedAs { t with prog := ops, got := none } .portOffset))
            ∧ (¬aligned → step s = .next (refusedAs { t with prog := ops, got := none } .portWidth)))
          ∧ (t.prog = .portWrite π offset width w :: ops →
              (aligned → offset = 4 → step s = .next (refusedAs { t with prog := ops } .statusWrite))
              ∧ (aligned → offset = 8 → hasFreq → step s = .next (refusedAs { t with prog := ops } .freqWrite))
              ∧ (aligned → ¬inWindow → step s = .next (refusedAs { t with prog := ops } .portOffset))
              ∧ (¬aligned → step s = .next (refusedAs { t with prog := ops } .portWidth)))

/-- `Prescale(hz)` (41_pwm_commands.md R212), with `q` = `PRESCALE_NUM` / (4096 hz) - 1 and no fraction left: the integer
nearest to `q`, a tie going to the even one, clamped to 3..255; then what the rule says of its two values of
`PRESCALE_NUM`: 2400 gives `q` in (-1, -0.41], so 3 for every frequency; 25000000 gives 121 at 50 Hz and 101 at 60 Hz;
neither gives a tie. -/
def Obligations.PrescaleValue : Prop :=
  (∀ num hz : Nat, 0 < hz →
      let v := (prescale num hz).toNat
      let half := 2048 * hz
      (∀ k, 3 ≤ k → k ≤ 255 → (2 * k + 1) * half < num → num < (2 * k + 3) * half → v = k)
      ∧ (∀ k, 3 ≤ k → k ≤ 254 → num = (2 * k + 3) * half → v = if k % 2 = 0 then k else k + 1)
      ∧ (num ≤ 7 * half → v = 3) ∧ (513 * half ≤ num → v = 255))
    ∧ (∀ hz : Nat, 0 < hz →
        240000 ≤ 59 * (4096 * hz)
        ∧ (roundHalfEven (2400 - 4096 * (hz : Int)) (4096 * hz) = 0
          ∨ roundHalfEven (2400 - 4096 * (hz : Int)) (4096 * hz) = -1)
        ∧ prescale 2400 hz = 3
        ∧ ∀ k, 2400 ≠ (2 * k + 1) * (2048 * hz) ∧ 25000000 ≠ (2 * k + 1) * (2048 * hz))
    ∧ prescale 25000000 50 = 121 ∧ prescale 25000000 60 = 101

/-- The servo arithmetic (48_host_reference.md R304-R306): the angle is clamped and interpolated exactly, the two ends
giving the two pulse limits; a pulse is clamped; the duty is the pulse in ticks, rounded down and clamped to 0..4095, at
the frequency `FREQ` gives if it is valid and at `DEFAULT_FREQ` if not; and the example of R304. -/
def Obligations.ServoArithmetic : Prop :=
  (∀ (e : Actuator) (a u : Rat), e.minAngle < e.maxAngle → e.minPulse < e.maxPulse →
      (a ≤ e.minAngle → anglePulse e a = e.minPulse) ∧ (e.maxAngle ≤ a → anglePulse e a = e.maxPulse)
      ∧ (e.minAngle ≤ a → a ≤ e.maxAngle →
          (anglePulse e a - e.minPulse) * (e.maxAngle - e.minAngle) = (a - e.minAngle) * (e.maxPulse - e.minPulse))
      ∧ (u ≤ e.minPulse → clampPulse e u = e.minPulse) ∧ (e.maxPulse ≤ u → clampPulse e u = e.maxPulse)
      ∧ (e.minPulse ≤ u → u ≤ e.maxPulse → clampPulse e u = u))
    ∧ (∀ (f : Nat) (u : Rat),
        (u * 4096 * f < 1000000 → pulseToDuty f u = 0) ∧ (4095 * 1000000 ≤ u * 4096 * f → pulseToDuty f u = 4095)
        ∧ ∀ k : Nat, k < 4096 → (k : Rat) * 1000000 ≤ u * 4096 * f → u * 4096 * f < ((k : Rat) + 1) * 1000000 →
            (pulseToDuty f u).toNat = k)
    ∧ (∀ (dflt hz : BitVec 16) (valid : Bool),
        assumedFreq dflt (some (freqWord { valid := valid, hz := hz })) = if valid then hz.toNat else dflt.toNat)
    ∧ pulseToDuty 50 375 = 76

/-- `move_to_angle` (48_host_reference.md R305, R304, R301): a name that is not in the table returns `UnknownActuator`
and issues nothing; a name that one entry of the table has reads `FREQ`, then issues `pwm.chan` with that entry's
channel and the duty of the angle's pulse, then holds until it is done and returns the port's code. `move_to_pulse`
(R306): the same with the clamped pulse and no angle. `home_all()` (R307): `move_to_angle` for every entry in declared
order, at its default angle and under its name, then a result that is an error exactly if one of theirs is (a result of
its own: DESIGN CHOICE, notes/assumptions/39.md). -/
def Obligations.ServoMove : Prop :=
  ∀ (s : State) (k : Nat) (rest : List Agent) (t : Thread) (ops : List HostOp) (π : PortSel) (tag : Option String),
    s.env.sched = .host k :: rest → s.host.threads[k]? = some t →
    let after (th : Thread) : State :=
      { s with
        env := { s.env with sched := rest }, host := { s.host with threads := s.host.threads.set k th } }
    let failed (r : HostResult) : Prop := r ≠ .ok ∧ r ≠ .status .ok
    (∀ (name : String) (a : Rat), t.prog = .moveToAngle π tag name a :: ops →
        ((∀ e ∈ calibration s, e.name ≠ name) →
          step s = .next (after { t with prog := ops, results := t.results ++ [(tag, .unknownActuator)] }))
        ∧ ∀ e ∈ calibration s, e.name = name → (∀ e' ∈ calibration s, e'.name = name → e' = e) →
          step s =
            .next
              (after
                { t with
                  prog := [.portRead π 8 32, .chanPulse π e.channel (anglePulse e a), .await π tag] ++ ops }))
      ∧ (∀ (name : String) (u : Rat), t.prog = .moveToPulse π name u :: ops →
          ((∀ e ∈ calibration s, e.name ≠ name) →
            step s = .next (after { t with prog := ops, results := t.results ++ [(none, .unknownActuator)] }))
          ∧ ∀ e ∈ calibration s, e.name = name → (∀ e' ∈ calibration s, e'.name = name → e' = e) →
            step s =
              .next
                (after
                  { t with
                    prog := [.portRead π 8 32, .chanPulse π e.channel (clampPulse e u), .await π none] ++ ops }))
      ∧ (∀ (ch : BitVec 8) (u : Rat) (w : Word), t.prog = .chanPulse π ch u :: ops → t.got = some w →
          ∃ cmd : Word,
            step s = .next (after { t with prog := .portWrite π 0 32 cmd :: ops })
            ∧ decodeWord cmd = .ok (.pwmChan ch (pulseToDuty (assumedFreq s.cfg.defaultFreq (some w)) u)))
      ∧ (∀ st : Status, t.prog = .await π tag :: ops → portStatus s π = some st →
          (st.busy = true → step s = .next { s with env := { s.env with sched := rest } })
          ∧ (st.busy = false →
            step s =
              .next
                (after
                  { t with
                    prog := ops, got := some (statusWord st), results := t.results ++ [(tag, .status st.err)] })))
      ∧ (t.prog = .homeAll π :: ops →
          step s =
            .next
              (after
                { t with
                  prog :=
                    ((calibration s).map fun e => HostOp.moveToAngle π (some e.name) e.name e.defaultAngle)
                      ++ .homeReport (calibration s).length :: ops }))
      ∧ ∀ (before moves : List (Option String × HostResult)),
          t.prog = .homeReport moves.length :: ops → t.results = before ++ moves →
          ∃ r, step s = .next (after { t with prog := ops, results := t.results ++ [(none, r)] })
            ∧ (failed r ↔ ∃ m ∈ moves, failed m.2)

/-- `set_pixel` (48_host_reference.md R310): an index at or above `PIXEL_COUNT` returns `IndexOutOfRange` and writes
nothing; otherwise the three components, scaled by the brightness and rounded down, are written at `3 i` on, in the
strip's channel order (Safety.storedPixel), and the result is `OK`. `fill` (R311): those writes for every pixel of the
strip; `clear()`: a 0 to each of its bytes, whatever the brightness and the channel order are. That `fill` and `clear()`
return one `OK` each, not one per pixel, is the model's choice, no rule (R301 says only that an operation returns a list
of results): DESIGN CHOICE, notes/assumptions/39.md. -/
def Obligations.SetPixel : Prop :=
  ∀ (s : State) (k : Nat) (rest : List Agent) (t : Thread) (ops : List HostOp) (i idx : Nat) (r g b : Byte)
    (u : WUnit) (anim : Anim),
    s.env.sched = .host k :: rest → s.host.threads[k]? = some t →
    s.strips[i]? = some u → s.host.anim[i]? = some anim →
    let after (th : Thread) : State :=
      { s with
        env := { s.env with sched := rest }, host := { s.host with threads := s.host.threads.set k th } }
    let writesThenOk (ws : List HostOp) : State := after { t with prog := ws ++ .ret none .ok :: ops }
    (t.prog = .setPixel i idx r g b :: ops →
        (u.conf.pixelCount ≤ idx →
          step s = .next (after { t with prog := ops, results := t.results ++ [(none, .indexOutOfRange)] }))
        ∧ (idx < u.conf.pixelCount → step s = .next (writesThenOk (pixelWrites i u.conf idx r g b))))
      ∧ (t.prog = .fill i r g b :: ops →
          step s =
            .next (writesThenOk ((List.range u.conf.pixelCount).flatMap fun j => pixelWrites i u.conf j r g b)))
      ∧ (t.prog = .clear i :: ops → step s = .next (writesThenOk (blackWrites i u.conf)))
      ∧ (t.prog = .ret none .ok :: ops →
          step s = .next (after { t with prog := ops, results := t.results ++ [(none, .ok)] }))

/-- The operations of an animation (48_host_reference.md R312, R314, R315) of a strip the platform has. `start()` runs a
stopped one and `resume()` a paused one, both keeping the offset; in any other mode neither changes anything; `start()`
holds while `startup_demo()` runs (notes/assumptions/23.md). `pause()` holds while the lock is taken; then, if the
animation runs, it takes the lock, stops it, clears the strip and sends `ws.show auto, 3n` of the black frame before it
releases the lock, and else does nothing. `startup_demo()` does its frames only on a stopped strip that has not had it,
each a `ws.show auto, 3n` of a `fill` or of wheel colours, the last one black; how the wheel colours lie on the strip,
and that nothing in it waits for a frame to succeed, are the model's choice (DESIGN CHOICE, notes/assumptions/23.md). An
operation that does nothing returns `OK`, and so do `start()` and `resume()` (DESIGN CHOICE, notes/assumptions/39.md).
The word sent holds the low 16 bits of `3n`, which is R314's `3n` unless `PIXEL_COUNT` is above 21845 (DEDUCED and
unsafe, notes/assumptions/24.md). -/
def Obligations.AnimationOperations : Prop :=
  ∀ (s : State) (k : Nat) (rest : List Agent) (t : Thread) (ops : List HostOp) (i : Nat) (u : WUnit) (a : Anim)
    (π : PortSel),
    s.env.sched = .host k :: rest → s.host.threads[k]? = some t →
    s.strips[i]? = some u → s.host.anim[i]? = some a →
    let s0 : State := { s with env := { s.env with sched := rest } }
    let after (th : Thread) (a' : Anim) : State :=
      { s0 with host := { s.host with threads := s.host.threads.set k th, anim := s.host.anim.set i a' } }
    let ok : Thread := { t with prog := ops, results := t.results ++ [(none, .ok)] }
    ∃ w : Word, decodeWord w = .ok (.wsShowAuto (BitVec.ofNat 16 (3 * u.conf.pixelCount)))
      ∧ (t.prog = .start i :: ops →
          (a.demo = .running → step s = .next s0)
          ∧ (a.demo ≠ .running → a.mode = .stopped →
            step s = .next (after ok { a with mode := .running, running := true }))
          ∧ (a.demo ≠ .running → a.mode ≠ .stopped → step s = .next (after ok a)))
      ∧ (t.prog = .resume i :: ops →
          (a.mode = .paused → step s = .next (after ok { a with mode := .running, running := true }))
          ∧ (a.mode ≠ .paused → step s = .next (after ok a)))
      ∧ (t.prog = .pause π i :: ops →
          (a.lock ≠ none → step s = .next s0)
          ∧ (a.lock = none → a.mode = .running →
            step s =
              .next
                (after { t with prog := blackWrites i u.conf ++ [.command π w, .unlock i] ++ ops }
                  { a with mode := .paused, running := false, lock := some k }))
          ∧ (a.lock = none → a.mode ≠ .running → step s = .next (after ok a)))
      ∧ (t.prog = .unlock i :: ops → step s = .next (after { t with prog := ops } { a with lock := none }))
      ∧ (∀ frames, t.prog = .startupDemo π i frames :: ops →
          (a.mode = .stopped → a.demo = .notRun →
            step s =
              .next
                (after
                  { t with
                    prog :=
                      (frames.flatMap fun f =>
                        (List.range u.conf.pixelCount).flatMap (fun j =>
                            match f with
                            | .fill r g b => pixelWrites i u.conf j r g b
                            | .wheel offset =>
                              let c := wheel ((j * 256 / u.conf.pixelCount + offset) % 256)
                              pixelWrites i u.conf j c.1 c.2.1 c.2.2)
                          ++ [.command π w])
                        ++ blackWrites i u.conf ++ [.command π w, .demoDone i] ++ ops }
                  { a with demo := .running }))
          ∧ (¬(a.mode = .stopped ∧ a.demo = .notRun) → step s = .next (after ok a)))
      ∧ (t.prog = .demoDone i :: ops → step s = .next (after { t with prog := ops } { a with demo := .done }))

/-- A frame of an animation (48_host_reference.md R313, R316). When the strip's task has nothing else to do, the
animation runs and the lock is free, it takes the lock and does one frame: it sets every pixel `j` to the wheel colour at
`floor(j * 256 / n) + frame_offset` mod 256, sends `ws.show auto, 3n` on its W port (port 0: DESIGN CHOICE,
notes/assumptions/40.md), and at the end advances the offset and the index and releases the lock. While the animation
does not run or the lock is taken, it has no step. The word sent holds the low 16 bits of `3n`, which is R313's `3n`
unless `PIXEL_COUNT` is above 21845 (DEDUCED and unsafe, notes/assumptions/24.md). The three ranges of `wheel` are
R316's. -/
def Obligations.AnimationFrame : Prop :=
  (∀ (s : State) (k : Nat) (rest : List Agent) (t : Thread) (i : Nat) (u : WUnit) (a : Anim),
      s.env.sched = .host k :: rest → s.host.threads[k]? = some t →
      s.strips[i]? = some u → s.host.anim[i]? = some a →
      let s0 : State := { s with env := { s.env with sched := rest } }
      let after (th : Thread) (a' : Anim) : State :=
        { s0 with host := { s.host with threads := s.host.threads.set k th, anim := s.host.anim.set i a' } }
      (t.prog = [] → t.task = some i → s.host.load ≠ .failed →
          (a.mode = .running → a.lock = none →
            ∃ w : Word, decodeWord w = .ok (.wsShowAuto (BitVec.ofNat 16 (3 * u.conf.pixelCount)))
              ∧ step s =
                  .next
                    (after
                      { t with
                        prog :=
                          ((List.range u.conf.pixelCount).flatMap fun j =>
                            let c := wheel ((j * 256 / u.conf.pixelCount + a.frameOffset) % 256)
                            pixelWrites i u.conf j c.1 c.2.1 c.2.2)
                            ++ [.command (.ws i 0) w, .frameDone i] }
                      { a with lock := some k }))
          ∧ (a.mode ≠ .running ∨ a.lock ≠ none → step s = .next s0))
        ∧ ∀ ops, t.prog = .frameDone i :: ops →
            step s =
              .next
                (after { t with prog := ops }
                  { a with
                    frameOffset := (a.frameOffset + 1) % 256, frameIndex := a.frameIndex + 1, lock := none }))
    ∧ ∀ p < 256,
        let is (r g b : Nat) : Prop := (wheel p).1.toNat = r ∧ (wheel p).2.1.toNat = g ∧ (wheel p).2.2.toNat = b
        (p < 85 → is (255 - 3 * p) (3 * p) 0)
        ∧ (85 ≤ p → p < 170 → is 0 (255 - 3 * (p - 85)) (3 * (p - 85)))
        ∧ (170 ≤ p → is (3 * (p - 170)) 0 (255 - 3 * (p - 170)))

/-- Configuration load (48_host_reference.md R302, R303) and boot (R309). If every actuator passes the checks of R302 (a
`channel` that is no integer among those that fail) the table holds, in declared order, what the configuration says,
with 0 and 180 for absent angle limits, and the load returns one `OK`, which is the model's choice (DESIGN CHOICE,
notes/assumptions/39.md). If one fails, the load fails with `ConfigurationError` and no thread has anything left to do,
nor does an idle task begin a frame: no command is issued. Boot is the load, `pwm.init CFG_PWM_ADDR`, `pwm.freq
DEFAULT_FREQ`, each done before the next and all the thread still has to do dropped after an error (DESIGN CHOICE beyond
the end of boot, notes/assumptions/22.md), a 0 to every pixel byte, the demos, and `start()` of every strip. A command
line (R300, 30_encoding.md R124) is the write of its word to `CMD` and then the hold until it is done, which ServoMove
states. -/
def Obligations.LoadAndBoot : Prop :=
  ∀ (s : State) (k : Nat) (rest : List Agent) (t : Thread) (ops : List HostOp),
    s.env.sched = .host k :: rest → s.host.threads[k]? = some t →
    let s0 : State := { s with env := { s.env with sched := rest } }
    let after (th : Thread) : State := { s0 with host := { s.host with threads := s.host.threads.set k th } }
    let good : Prop :=
      (∀ r ∈ s.cfg.servos, ∃ ch lo hi dflt,
        r.channel = some (.int ch) ∧ r.minPulse = some lo ∧ r.maxPulse = some hi ∧ r.defaultAngle = some dflt
        ∧ 0 ≤ ch ∧ ch ≤ 15 ∧ lo < hi ∧ r.minAngle.getD 0 < r.maxAngle.getD 180)
      ∧ (s.cfg.servos.map (·.channel)).Nodup
    (t.prog = .loadConfig :: ops →
        (good →
          ∃ table : List Actuator,
            step s =
              .next
                { s0 with
                  host :=
                    { s.host with
                      threads := s.host.threads.set k { t with prog := ops, results := t.results ++ [(none, .ok)] }
                      load := .loaded table } }
            ∧ table.length = s.cfg.servos.length
            ∧ ∀ (j : Nat) (r : RawActuator) (e : Actuator), s.cfg.servos[j]? = some r → table[j]? = some e →
                e.name = r.name ∧ r.channel = some (.int e.channel.toNat) ∧ r.minPulse = some e.minPulse
                ∧ r.maxPulse = some e.maxPulse ∧ r.defaultAngle = some e.defaultAngle
                ∧ e.minAngle = r.minAngle.getD 0 ∧ e.maxAngle = r.maxAngle.getD 180)
        ∧ (¬good →
          ∃ ts : List Thread,
            step s = .next { s0 with host := { s.host with threads := ts, load := .failed } }
            ∧ ts.length = s.host.threads.length ∧ (∀ th ∈ ts, th.prog = [])
            ∧ (ts[k]?).map (·.results) = some (t.results ++ [(none, .configurationError)])))
      ∧ (s.host.load = .failed → t.prog = [] → step s = .next s0)
      ∧ (∀ (π : PortSel) (w : Word), t.prog = .command π w :: ops →
          step s = .next (after { t with prog := [.portWrite π 0 32 w, .await π none] ++ ops }))
      ∧ (t.prog = .checkOk :: ops →
          ((∃ tag r, t.results.getLast? = some (tag, r) ∧ r ≠ .ok ∧ r ≠ .status .ok) →
            step s = .next (after { t with prog := [] }))
          ∧ ((∀ tag r, t.results.getLast? = some (tag, r) → r = .ok ∨ r = .status .ok) →
            step s = .next (after { t with prog := ops })))
      ∧ ∀ (π : PortSel) (demos : List (PortSel × Nat × List DemoFrame)), t.prog = .boot π demos :: ops →
          ∃ initWord freqWord : Word,
            decodeWord initWord = .ok (.pwmInit s.cfg.cfgPwmAddr)
            ∧ decodeWord freqWord = .ok (.pwmFreq s.cfg.defaultFreq)
            ∧ step s =
                .next
                  (after
                    { t with
                      prog :=
                        [.loadConfig, .command π initWord, .checkOk, .command π freqWord, .checkOk]
                          ++ (s.strips.mapIdx fun i u => blackWrites i u.conf).flatten
                          ++ (demos.map fun d => .startupDemo d.1 d.2.1 d.2.2)
                          ++ (List.range s.strips.length).map .start ++ ops })

end
end

