-- ==== Sys2Proof/Laws/Memory.lean ====
section
/-! SUPPORT. The laws of the memory operations: a read after a write, and that every operation keeps the
canonical form. -/

namespace Sys2Proof.Machine

variable {d : Nat → Option Byte}

/-- The keys of a canonical memory below its head. -/
theorem Memory.wf_cons {k : Nat} {v : Byte} {rest : List Host.Cell} :
    Memory.wf d ((k, v) :: rest) ↔ (∀ c ∈ rest, k < c.1) ∧ d k ≠ some v ∧ Memory.wf d rest := by
  simp only [Memory.wf, List.map_cons, List.pairwise_cons, List.mem_cons, forall_eq_or_imp, List.mem_map]
  constructor
  · rintro ⟨⟨h1, h2⟩, h3, h4⟩
    exact ⟨fun c hc => h1 _ ⟨c, hc, rfl⟩, h3, h2, h4⟩
  · rintro ⟨h1, h3, h2, h4⟩
    exact ⟨⟨fun a ⟨c, hc, e⟩ => e ▸ h1 c hc, h2⟩, h3, h4⟩

@[simp] theorem Memory.wf_nil : Memory.wf d [] := by simp [Memory.wf]

/-- An address below every listed key reads as an unlisted one. -/
theorem Memory.read_of_lt {m : List Host.Cell} {a : Nat} (h : ∀ c ∈ m, a < c.1) : Memory.read d m a = d a := by
  induction m with
  | nil => rfl
  | cons c rest ih =>
    have hk : a < c.1 := h c (by simp)
    simp only [Memory.read, if_neg (show ¬c.1 = a by omega)]
    exact ih fun c' hc' => h c' (by simp [hc'])

/-- The keys after a write are among the old ones and the one written. -/
theorem Memory.write_keys {m : List Host.Cell} {a : Nat} {v : Byte} {c : Host.Cell}
    (h : c ∈ Memory.write d m a v) : c ∈ m ∨ c = (a, v) := by
  induction m with
  | nil => unfold Memory.write at h; split at h <;> simp_all
  | cons x rest ih =>
    unfold Memory.write at h
    split at h
    · rcases List.mem_cons.1 h with rfl | h
      · simp
      · rcases ih h with h | h <;> simp [h]
    · split at h
      · split at h <;> simp_all
        rcases h with h | h <;> simp [h]
      · split at h
        · exact .inl h
        · rcases List.mem_cons.1 h with h | h
          · exact .inr h
          · exact .inl h

/-- A write keeps the canonical form. -/
theorem Memory.write_wf {m : List Host.Cell} (h : Memory.wf d m) (a : Nat) (v : Byte) :
    Memory.wf d (Memory.write d m a v) := by
  induction m with
  | nil =>
    unfold Memory.write
    split
    · exact Memory.wf_nil
    · exact Memory.wf_cons.2 ⟨by simp, by assumption, Memory.wf_nil⟩
  | cons x rest ih =>
    obtain ⟨k, w⟩ := x
    obtain ⟨hlt, hd, hr⟩ := Memory.wf_cons.1 h
    unfold Memory.write
    split
    · rename_i hka
      refine Memory.wf_cons.2 ⟨fun c hc => ?_, hd, ih hr⟩
      rcases Memory.write_keys hc with hc | rfl
      · exact hlt c hc
      · exact hka
    · split
      · subst_vars
        split
        · exact hr
        · exact Memory.wf_cons.2 ⟨hlt, by assumption, hr⟩
      · split
        · exact h
        · refine Memory.wf_cons.2 ⟨fun c hc => ?_, by assumption, h⟩
          rcases List.mem_cons.1 hc with rfl | hc
          · show a < k; omega
          · have := hlt c hc; omega

/-- A read after a write to the same address gives the value written. -/
theorem Memory.read_write_same {m : List Host.Cell} (h : Memory.wf d m) (a : Nat) (v : Byte) :
    Memory.read d (Memory.write d m a v) a = some v := by
  induction m with
  | nil => unfold Memory.write; split <;> simp_all [Memory.read]
  | cons x rest ih =>
    obtain ⟨k, w⟩ := x
    obtain ⟨hlt, -, hr⟩ := Memory.wf_cons.1 h
    unfold Memory.write
    split
    · simp only [Memory.read, if_neg (show ¬k = a by omega)]; exact ih hr
    · split
      · subst_vars
        split
        · rw [Memory.read_of_lt hlt]; assumption
        · simp [Memory.read]
      · split
        · have hall : ∀ c ∈ (k, w) :: rest, a < c.1 := by
            intro c hc
            rcases List.mem_cons.1 hc with rfl | hc
            · show a < k; omega
            · have := hlt c hc; omega
          rw [Memory.read_of_lt hall]; assumption
        · simp [Memory.read]

/-- A write leaves every other address alone. -/
theorem Memory.read_write_other {m : List Host.Cell} {a b : Nat} (hab : b ≠ a) (v : Byte) :
    Memory.read d (Memory.write d m a v) b = Memory.read d m b := by
  induction m with
  | nil => unfold Memory.write; split <;> simp [Memory.read, Ne.symm hab]
  | cons x rest ih =>
    obtain ⟨k, w⟩ := x
    unfold Memory.write
    split
    · simp only [Memory.read, ih]
    · split
      · subst_vars
        split <;> simp [Memory.read, Ne.symm hab]
      · split
        · rfl
        · simp [Memory.read, Ne.symm hab]

/-- Writing a run of bytes keeps the canonical form. -/
theorem Memory.writeBytes_wf {m : List Host.Cell} (h : Memory.wf d m) (a : Nat) (vs : List Byte) :
    Memory.wf d (Memory.writeBytes d m a vs) := by
  induction vs generalizing m a with
  | nil => exact h
  | cons v vs ih => exact ih (Memory.write_wf h a v) (a + 1)

/-- Writing a run of bytes leaves every address outside the run alone. -/
theorem Memory.read_writeBytes_outside {m : List Host.Cell} {a b : Nat} {vs : List Byte}
    (hb : b < a ∨ a + vs.length ≤ b) :
    Memory.read d (Memory.writeBytes d m a vs) b = Memory.read d m b := by
  induction vs generalizing m a with
  | nil => rfl
  | cons v vs ih =>
    simp only [List.length_cons] at hb
    rw [Memory.writeBytes, ih (by omega), Memory.read_write_other (by omega)]

/-- A read inside a run of bytes just written gives the byte of the run. -/
theorem Memory.read_writeBytes_inside {m : List Host.Cell} (h : Memory.wf d m) {a i : Nat} {vs : List Byte}
    (hi : i < vs.length) : Memory.read d (Memory.writeBytes d m a vs) (a + i) = vs[i]? := by
  induction vs generalizing m a i with
  | nil => simp at hi
  | cons v vs ih =>
    rw [Memory.writeBytes]
    cases i with
    | zero =>
      rw [Memory.read_writeBytes_outside (by omega)]
      simpa using Memory.read_write_same h a v
    | succ j =>
      have := ih (Memory.write_wf h a v) (a := a + 1) (i := j) (by simpa using hi)
      rw [show a + (j + 1) = a + 1 + j by omega, this]; simp

/-- The cells after writing a run of bytes are old ones or lie in the run. -/
theorem Memory.writeBytes_keys {m : List Host.Cell} {a : Nat} {vs : List Byte} {c : Host.Cell}
    (h : c ∈ Memory.writeBytes d m a vs) : c ∈ m ∨ (a ≤ c.1 ∧ c.1 < a + vs.length) := by
  induction vs generalizing m a with
  | nil => exact .inl h
  | cons v vs ih =>
    rcases ih h with h | h
    · rcases Memory.write_keys h with h | rfl
      · exact .inl h
      · right; simp
    · right; simp only [List.length_cons]; omega

theorem Memory.readBytes_succ (m : List Host.Cell) (a n : Nat) :
    Memory.readBytes d m a (n + 1) =
      match Memory.read d m a, Memory.readBytes d m (a + 1) n with
      | some v, some vs => some (v :: vs)
      | _, _ => none := rfl

/-- Reading `n` bytes that all have a value gives `n` bytes. -/
theorem Memory.readBytes_length {m : List Host.Cell} {a n : Nat} {vs : List Byte}
    (h : Memory.readBytes d m a n = some vs) : vs.length = n := by
  induction n generalizing a vs with
  | zero => simp [Memory.readBytes] at h; subst h; rfl
  | succ n ih =>
    unfold Memory.readBytes at h
    split at h
    · rename_i _ _ _ hr; cases h; simp [ih hr]
    · cases h

/-- What reading `n` bytes gives, byte by byte. -/
theorem Memory.readBytes_get {m : List Host.Cell} {a n i : Nat} {vs : List Byte}
    (h : Memory.readBytes d m a n = some vs) (hi : i < n) : Memory.read d m (a + i) = vs[i]? := by
  induction n generalizing a vs i with
  | zero => omega
  | succ n ih =>
    unfold Memory.readBytes at h
    split at h
    · rename_i v vs' hv hr
      cases h
      cases i with
      | zero => simpa using hv
      | succ j =>
        rw [show a + (j + 1) = a + 1 + j by omega, ih hr (by omega)]; simp
    · cases h

/-- Reading `n` bytes fails exactly where one of them has no value. -/
theorem Memory.readBytes_none {m : List Host.Cell} {a n : Nat} :
    Memory.readBytes d m a n = none ↔ ∃ i < n, Memory.read d m (a + i) = none := by
  induction n generalizing a with
  | zero => simp [Memory.readBytes]
  | succ n ih =>
    have hsplit : (∃ i < n + 1, Memory.read d m (a + i) = none)
        ↔ Memory.read d m a = none ∨ ∃ i < n, Memory.read d m (a + 1 + i) = none := by
      constructor
      · rintro ⟨i, hi, h⟩
        cases i with
        | zero => exact .inl h
        | succ j => exact .inr ⟨j, by omega, by rwa [show a + 1 + j = a + (j + 1) by omega]⟩
      · rintro (h | ⟨j, hj, h⟩)
        · exact ⟨0, by omega, h⟩
        · exact ⟨j + 1, by omega, by rwa [show a + (j + 1) = a + 1 + j by omega]⟩
    rw [hsplit, ← ih (a := a + 1), Memory.readBytes_succ]
    cases Memory.read d m a <;> cases Memory.readBytes d m (a + 1) n <;> simp

end Sys2Proof.Machine
end

