-- ==== Sys2Proof/Laws/State.lean ====
section
/-! SUPPORT. What each named update of the state does to each field: one lemma per field per update, true by
unfolding, so that no later proof unfolds a record update. -/

namespace Sys2Proof.Machine

variable (s : State)

@[simp] theorem markFault_cfg (f : FaultReason) : (markFault f s).cfg = s.cfg := rfl
@[simp] theorem markFault_unitP (f : FaultReason) : (markFault f s).unitP = s.unitP := rfl
@[simp] theorem markFault_slave (f : FaultReason) : (markFault f s).slave = s.slave := rfl
@[simp] theorem markFault_strips (f : FaultReason) : (markFault f s).strips = s.strips := rfl
@[simp] theorem markFault_faults (f : FaultReason) : (markFault f s).faults = addMark f s.faults := rfl
@[simp] theorem markFault_refused (f : FaultReason) : (markFault f s).refused = s.refused := rfl
@[simp] theorem markFault_busLog (f : FaultReason) : (markFault f s).busLog = s.busLog := rfl
@[simp] theorem markFault_host (f : FaultReason) : (markFault f s).host = s.host := rfl
@[simp] theorem markFault_frames (f : FaultReason) : (markFault f s).frames = s.frames := rfl
@[simp] theorem markFault_sel (f : FaultReason) : (markFault f s).sel = s.sel := rfl
@[simp] theorem markFault_env (f : FaultReason) : (markFault f s).env = s.env := rfl

@[simp] theorem refuse_cfg (r : RefuseReason) : (refuse r s).cfg = s.cfg := rfl
@[simp] theorem refuse_unitP (r : RefuseReason) : (refuse r s).unitP = s.unitP := rfl
@[simp] theorem refuse_slave (r : RefuseReason) : (refuse r s).slave = s.slave := rfl
@[simp] theorem refuse_strips (r : RefuseReason) : (refuse r s).strips = s.strips := rfl
@[simp] theorem refuse_faults (r : RefuseReason) : (refuse r s).faults = s.faults := rfl
@[simp] theorem refuse_refused (r : RefuseReason) : (refuse r s).refused = addMark r s.refused := rfl
@[simp] theorem refuse_busLog (r : RefuseReason) : (refuse r s).busLog = s.busLog := rfl
@[simp] theorem refuse_host (r : RefuseReason) : (refuse r s).host = s.host := rfl
@[simp] theorem refuse_frames (r : RefuseReason) : (refuse r s).frames = s.frames := rfl
@[simp] theorem refuse_sel (r : RefuseReason) : (refuse r s).sel = s.sel := rfl
@[simp] theorem refuse_env (r : RefuseReason) : (refuse r s).env = s.env := rfl

@[simp] theorem logBus_cfg (e : BusEntry) : (logBus e s).cfg = s.cfg := rfl
@[simp] theorem logBus_unitP (e : BusEntry) : (logBus e s).unitP = s.unitP := rfl
@[simp] theorem logBus_slave (e : BusEntry) : (logBus e s).slave = s.slave := rfl
@[simp] theorem logBus_strips (e : BusEntry) : (logBus e s).strips = s.strips := rfl
@[simp] theorem logBus_faults (e : BusEntry) : (logBus e s).faults = s.faults := rfl
@[simp] theorem logBus_refused (e : BusEntry) : (logBus e s).refused = s.refused := rfl
@[simp] theorem logBus_busLog (e : BusEntry) : (logBus e s).busLog = s.busLog ++ [e] := rfl
@[simp] theorem logBus_host (e : BusEntry) : (logBus e s).host = s.host := rfl
@[simp] theorem logBus_frames (e : BusEntry) : (logBus e s).frames = s.frames := rfl
@[simp] theorem logBus_sel (e : BusEntry) : (logBus e s).sel = s.sel := rfl
@[simp] theorem logBus_env (e : BusEntry) : (logBus e s).env = s.env := rfl

@[simp] theorem advance_cfg (n : Nat) : (advance n s).cfg = s.cfg := rfl
@[simp] theorem advance_unitP (n : Nat) : (advance n s).unitP = s.unitP := rfl
@[simp] theorem advance_slave (n : Nat) : (advance n s).slave = s.slave := rfl
@[simp] theorem advance_strips (n : Nat) : (advance n s).strips = s.strips := rfl
@[simp] theorem advance_faults (n : Nat) : (advance n s).faults = s.faults := rfl
@[simp] theorem advance_refused (n : Nat) : (advance n s).refused = s.refused := rfl
@[simp] theorem advance_busLog (n : Nat) : (advance n s).busLog = s.busLog := rfl
@[simp] theorem advance_host (n : Nat) : (advance n s).host = s.host := rfl
@[simp] theorem advance_frames (n : Nat) : (advance n s).frames = s.frames := rfl
@[simp] theorem advance_sel (n : Nat) : (advance n s).sel = s.sel := rfl
@[simp] theorem advance_env (n : Nat) : (advance n s).env = { s.env with count := s.env.count + n } := rfl

@[simp] theorem setPort_cfg (p : Nat) (P : PwmPort) : (setPort p P s).cfg = s.cfg := rfl
@[simp] theorem setPort_unitP (p : Nat) (P : PwmPort) : (setPort p P s).unitP = { s.unitP with ports := s.unitP.ports.set p P } := rfl
@[simp] theorem setPort_slave (p : Nat) (P : PwmPort) : (setPort p P s).slave = s.slave := rfl
@[simp] theorem setPort_strips (p : Nat) (P : PwmPort) : (setPort p P s).strips = s.strips := rfl
@[simp] theorem setPort_faults (p : Nat) (P : PwmPort) : (setPort p P s).faults = s.faults := rfl
@[simp] theorem setPort_refused (p : Nat) (P : PwmPort) : (setPort p P s).refused = s.refused := rfl
@[simp] theorem setPort_busLog (p : Nat) (P : PwmPort) : (setPort p P s).busLog = s.busLog := rfl
@[simp] theorem setPort_host (p : Nat) (P : PwmPort) : (setPort p P s).host = s.host := rfl
@[simp] theorem setPort_frames (p : Nat) (P : PwmPort) : (setPort p P s).frames = s.frames := rfl
@[simp] theorem setPort_sel (p : Nat) (P : PwmPort) : (setPort p P s).sel = s.sel := rfl
@[simp] theorem setPort_env (p : Nat) (P : PwmPort) : (setPort p P s).env = s.env := rfl

@[simp] theorem setStrip_cfg (i : Nat) (u : WUnit) : (setStrip i u s).cfg = s.cfg := rfl
@[simp] theorem setStrip_unitP (i : Nat) (u : WUnit) : (setStrip i u s).unitP = s.unitP := rfl
@[simp] theorem setStrip_slave (i : Nat) (u : WUnit) : (setStrip i u s).slave = s.slave := rfl
@[simp] theorem setStrip_strips (i : Nat) (u : WUnit) : (setStrip i u s).strips = s.strips.set i u := rfl
@[simp] theorem setStrip_faults (i : Nat) (u : WUnit) : (setStrip i u s).faults = s.faults := rfl
@[simp] theorem setStrip_refused (i : Nat) (u : WUnit) : (setStrip i u s).refused = s.refused := rfl
@[simp] theorem setStrip_busLog (i : Nat) (u : WUnit) : (setStrip i u s).busLog = s.busLog := rfl
@[simp] theorem setStrip_host (i : Nat) (u : WUnit) : (setStrip i u s).host = s.host := rfl
@[simp] theorem setStrip_frames (i : Nat) (u : WUnit) : (setStrip i u s).frames = s.frames := rfl
@[simp] theorem setStrip_sel (i : Nat) (u : WUnit) : (setStrip i u s).sel = s.sel := rfl
@[simp] theorem setStrip_env (i : Nat) (u : WUnit) : (setStrip i u s).env = s.env := rfl

@[simp] theorem hangBus_cfg : (hangBus s).cfg = s.cfg := rfl
@[simp] theorem hangBus_unitP : (hangBus s).unitP = { s.unitP with i2cHung := true } := rfl
@[simp] theorem hangBus_slave : (hangBus s).slave = s.slave := rfl
@[simp] theorem hangBus_strips : (hangBus s).strips = s.strips := rfl
@[simp] theorem hangBus_faults : (hangBus s).faults = s.faults := rfl
@[simp] theorem hangBus_refused : (hangBus s).refused = s.refused := rfl
@[simp] theorem hangBus_busLog : (hangBus s).busLog = s.busLog := rfl
@[simp] theorem hangBus_host : (hangBus s).host = s.host := rfl
@[simp] theorem hangBus_frames : (hangBus s).frames = s.frames := rfl
@[simp] theorem hangBus_sel : (hangBus s).sel = s.sel := rfl
@[simp] theorem hangBus_env : (hangBus s).env = s.env := rfl

@[simp] theorem withSlave_cfg (sl : Slave) : (withSlave sl s).cfg = s.cfg := rfl
@[simp] theorem withSlave_unitP (sl : Slave) : (withSlave sl s).unitP = s.unitP := rfl
@[simp] theorem withSlave_slave (sl : Slave) : (withSlave sl s).slave = sl := rfl
@[simp] theorem withSlave_strips (sl : Slave) : (withSlave sl s).strips = s.strips := rfl
@[simp] theorem withSlave_faults (sl : Slave) : (withSlave sl s).faults = s.faults := rfl
@[simp] theorem withSlave_refused (sl : Slave) : (withSlave sl s).refused = s.refused := rfl
@[simp] theorem withSlave_busLog (sl : Slave) : (withSlave sl s).busLog = s.busLog := rfl
@[simp] theorem withSlave_host (sl : Slave) : (withSlave sl s).host = s.host := rfl
@[simp] theorem withSlave_frames (sl : Slave) : (withSlave sl s).frames = s.frames := rfl
@[simp] theorem withSlave_sel (sl : Slave) : (withSlave sl s).sel = s.sel := rfl
@[simp] theorem withSlave_env (sl : Slave) : (withSlave sl s).env = { s.env with count := s.env.count + freePerTransaction } := rfl

@[simp] theorem setThread_cfg (k : Nat) (t : Thread) : (setThread k t s).cfg = s.cfg := rfl
@[simp] theorem setThread_unitP (k : Nat) (t : Thread) : (setThread k t s).unitP = s.unitP := rfl
@[simp] theorem setThread_slave (k : Nat) (t : Thread) : (setThread k t s).slave = s.slave := rfl
@[simp] theorem setThread_strips (k : Nat) (t : Thread) : (setThread k t s).strips = s.strips := rfl
@[simp] theorem setThread_faults (k : Nat) (t : Thread) : (setThread k t s).faults = s.faults := rfl
@[simp] theorem setThread_refused (k : Nat) (t : Thread) : (setThread k t s).refused = s.refused := rfl
@[simp] theorem setThread_busLog (k : Nat) (t : Thread) : (setThread k t s).busLog = s.busLog := rfl
@[simp] theorem setThread_host (k : Nat) (t : Thread) : (setThread k t s).host = { s.host with threads := s.host.threads.set k t } := rfl
@[simp] theorem setThread_frames (k : Nat) (t : Thread) : (setThread k t s).frames = s.frames := rfl
@[simp] theorem setThread_sel (k : Nat) (t : Thread) : (setThread k t s).sel = s.sel := rfl
@[simp] theorem setThread_env (k : Nat) (t : Thread) : (setThread k t s).env = s.env := rfl

@[simp] theorem afterDraw_cfg : (afterDraw s).cfg = s.cfg := by unfold afterDraw; split <;> rfl
@[simp] theorem afterPick_cfg : (afterPick s).cfg = s.cfg := by unfold afterPick; split <;> rfl
@[simp] theorem afterDraw_unitP : (afterDraw s).unitP = s.unitP := by unfold afterDraw; split <;> rfl
@[simp] theorem afterPick_unitP : (afterPick s).unitP = s.unitP := by unfold afterPick; split <;> rfl
@[simp] theorem afterDraw_slave : (afterDraw s).slave = s.slave := by unfold afterDraw; split <;> rfl
@[simp] theorem afterPick_slave : (afterPick s).slave = s.slave := by unfold afterPick; split <;> rfl
@[simp] theorem afterDraw_strips : (afterDraw s).strips = s.strips := by unfold afterDraw; split <;> rfl
@[simp] theorem afterPick_strips : (afterPick s).strips = s.strips := by unfold afterPick; split <;> rfl
@[simp] theorem afterDraw_faults : (afterDraw s).faults = s.faults := by unfold afterDraw; split <;> rfl
@[simp] theorem afterPick_faults : (afterPick s).faults = s.faults := by unfold afterPick; split <;> rfl
@[simp] theorem afterDraw_refused : (afterDraw s).refused = s.refused := by unfold afterDraw; split <;> rfl
@[simp] theorem afterPick_refused : (afterPick s).refused = s.refused := by unfold afterPick; split <;> rfl
@[simp] theorem afterDraw_busLog : (afterDraw s).busLog = s.busLog := by unfold afterDraw; split <;> rfl
@[simp] theorem afterPick_busLog : (afterPick s).busLog = s.busLog := by unfold afterPick; split <;> rfl
@[simp] theorem afterDraw_host : (afterDraw s).host = s.host := by unfold afterDraw; split <;> rfl
@[simp] theorem afterPick_host : (afterPick s).host = s.host := by unfold afterPick; split <;> rfl
@[simp] theorem afterDraw_frames : (afterDraw s).frames = s.frames := by unfold afterDraw; split <;> rfl
@[simp] theorem afterPick_frames : (afterPick s).frames = s.frames := by unfold afterPick; split <;> rfl
@[simp] theorem afterDraw_sel : (afterDraw s).sel = s.sel := by unfold afterDraw; split <;> rfl
@[simp] theorem afterPick_sel : (afterPick s).sel = s.sel := by unfold afterPick; split <;> rfl
@[simp] theorem applyEffect_cfg (k : Nat) (e : HostEffect) : (applyEffect k e s).cfg = s.cfg := rfl
@[simp] theorem applyEffect_unitP (k : Nat) (e : HostEffect) : (applyEffect k e s).unitP = s.unitP := rfl
@[simp] theorem applyEffect_slave (k : Nat) (e : HostEffect) : (applyEffect k e s).slave = s.slave := rfl
@[simp] theorem applyEffect_strips (k : Nat) (e : HostEffect) : (applyEffect k e s).strips = s.strips := rfl
@[simp] theorem applyEffect_faults (k : Nat) (e : HostEffect) : (applyEffect k e s).faults = s.faults := rfl
@[simp] theorem applyEffect_refused (k : Nat) (e : HostEffect) : (applyEffect k e s).refused = s.refused := rfl
@[simp] theorem applyEffect_busLog (k : Nat) (e : HostEffect) : (applyEffect k e s).busLog = s.busLog := rfl
@[simp] theorem applyEffect_frames (k : Nat) (e : HostEffect) : (applyEffect k e s).frames = s.frames := rfl
@[simp] theorem applyEffect_sel (k : Nat) (e : HostEffect) : (applyEffect k e s).sel = s.sel := rfl
@[simp] theorem applyEffect_env (k : Nat) (e : HostEffect) : (applyEffect k e s).env = s.env := rfl

@[simp] theorem loadConfig_cfg (k : Nat) (t : Thread) : (loadConfig k t s).cfg = s.cfg := rfl
@[simp] theorem loadConfig_unitP (k : Nat) (t : Thread) : (loadConfig k t s).unitP = s.unitP := rfl
@[simp] theorem loadConfig_slave (k : Nat) (t : Thread) : (loadConfig k t s).slave = s.slave := rfl
@[simp] theorem loadConfig_strips (k : Nat) (t : Thread) : (loadConfig k t s).strips = s.strips := rfl
@[simp] theorem loadConfig_faults (k : Nat) (t : Thread) : (loadConfig k t s).faults = s.faults := rfl
@[simp] theorem loadConfig_refused (k : Nat) (t : Thread) : (loadConfig k t s).refused = s.refused := rfl
@[simp] theorem loadConfig_busLog (k : Nat) (t : Thread) : (loadConfig k t s).busLog = s.busLog := rfl
@[simp] theorem loadConfig_frames (k : Nat) (t : Thread) : (loadConfig k t s).frames = s.frames := rfl
@[simp] theorem loadConfig_sel (k : Nat) (t : Thread) : (loadConfig k t s).sel = s.sel := rfl
@[simp] theorem loadConfig_env (k : Nat) (t : Thread) : (loadConfig k t s).env = s.env := rfl

end Sys2Proof.Machine
end

