-- ==== Sys2Proof/Laws/Ops.lean ====
section
/-! SUPPORT. What each shared operation can do, said once: completion, the micro-op's outcome, a bus
transaction, the issue step and the W unit's step. -/

namespace Sys2Proof.Machine

/-! ### Completion -/

/-- Completion of a port that is there (R191). -/
theorem completePwm_some {p : Nat} {P : PwmPort} {s : State} (h : s.unitP.ports[p]? = some P) (code : ErrCode)
    (step : Byte) :
    completePwm p code step s =
      { s with
        unitP :=
          { s.unitP with
            fConf := completeEffect P.op code s.unitP.fConf
            ports := s.unitP.ports.set p { P with status := Status.completed code step, seq := [] } } } := by
  simp only [completePwm, h]

/-- Completion changes nothing outside unit P. -/
theorem completePwm_only_unitP (p : Nat) (code : ErrCode) (step : Byte) (s : State) :
    completePwm p code step s = { s with unitP := (completePwm p code step s).unitP } := by
  unfold completePwm; split <;> rfl

/-- Completion of a port leaves the device address, the counter and the bus alone. -/
theorem completePwm_unitP_rest (p : Nat) (code : ErrCode) (step : Byte) (s : State) :
    (completePwm p code step s).unitP.devAddr = s.unitP.devAddr
      ∧ (completePwm p code step s).unitP.issueCtr = s.unitP.issueCtr
      ∧ (completePwm p code step s).unitP.i2cHung = s.unitP.i2cHung := by
  unfold completePwm; split <;> simp

/-- The outcome of a micro-op changes nothing outside unit P. -/
theorem settle_only_unitP (p : Nat) (r : TxReturn) (s : State) :
    settle p r s = { s with unitP := (settle p r s).unitP } := by
  unfold settle
  split
  · rfl
  · dsimp only
    split
    · split
      · split
        · rw [completePwm_only_unitP]; rfl
        · rfl
      · rw [completePwm_only_unitP]
      all_goals rfl
    · rfl

/-- The outcome of a micro-op leaves the device address, the counter and the bus alone. -/
theorem settle_unitP_rest (p : Nat) (r : TxReturn) (s : State) :
    (settle p r s).unitP.devAddr = s.unitP.devAddr ∧ (settle p r s).unitP.issueCtr = s.unitP.issueCtr
      ∧ (settle p r s).unitP.i2cHung = s.unitP.i2cHung := by
  unfold settle
  split
  · simp
  · dsimp only
    split
    · split
      · split
        · exact completePwm_unitP_rest p .ok 0 _
        · simp
      · exact completePwm_unitP_rest p .busError _ s
      all_goals simp
    · simp

/-- What a delivered outcome can do: nothing, or settle the micro-op of the port `sel` names. -/
theorem deliver_cases (r : TxReturn) (s : State) :
    deliver r s = s ∨ ∃ p, s.sel = .pwm p ∧ deliver r s = settle p r s := by
  unfold deliver
  split
  · rename_i p h; exact .inr ⟨p, h, rfl⟩
  · exact .inl rfl
  · exact .inl rfl

/-- Handing over an outcome changes nothing outside unit P. -/
theorem deliver_only_unitP (r : TxReturn) (s : State) :
    deliver r s = { s with unitP := (deliver r s).unitP } := by
  rcases deliver_cases r s with h | ⟨p, -, h⟩
  · rw [h]
  · rw [h]; exact settle_only_unitP p r s

/-! ### Marks -/

theorem mem_addMark {α : Type} [DecidableEq α] {x y : α} {l : List α} : y ∈ addMark x l ↔ y = x ∨ y ∈ l := by
  unfold addMark
  split
  · constructor
    · exact .inr
    · rintro (rfl | h) <;> assumption
  · simp [or_comm]

/-- A mark once set stays where it is. -/
theorem prefix_addMark {α : Type} [DecidableEq α] (x : α) (l : List α) : l <+: addMark x l := by
  unfold addMark
  split
  · exact List.prefix_refl l
  · exact List.prefix_append l _

/-! ### Transactions -/

/-- What a transaction leaves: the parameters, the strips, the host, the frames, `sel`, the faults, and all
of unit P but the hung bus; the log and the refusals grow. -/
structure TxFrame (s t : State) : Prop where
  cfg : t.cfg = s.cfg
  devAddr : t.unitP.devAddr = s.unitP.devAddr
  fConf : t.unitP.fConf = s.unitP.fConf
  issueCtr : t.unitP.issueCtr = s.unitP.issueCtr
  ports : t.unitP.ports = s.unitP.ports
  hung : s.unitP.i2cHung = true → t = s
  strips : t.strips = s.strips
  faults : t.faults = s.faults
  host : t.host = s.host
  frames : t.frames = s.frames
  sel : t.sel = s.sel
  refused : s.refused <+: t.refused
  busLog : s.busLog <+: t.busLog

/-- The frame of a register write. -/
theorem transactWr_frame (a : BitVec 7) (reg d : Byte) (s : State) : TxFrame s (transactWr a reg d s).2 := by
  unfold transactWr
  split
  · exact ⟨rfl, rfl, rfl, rfl, rfl, fun _ => rfl, rfl, rfl, rfl, rfl, rfl, List.prefix_refl _, List.prefix_refl _⟩
  · rename_i hh
    dsimp only
    split
    · constructor <;> simp_all
    · constructor <;> simp_all
    · constructor <;> simp_all [prefix_addMark]
    · split
      · split
        · constructor <;> simp_all [prefix_addMark]
        · constructor <;> simp_all
      · constructor <;> simp_all
      · constructor <;> simp_all

/-- The frame of a register read. -/
theorem transactRd_frame (a : BitVec 7) (reg : Byte) (s : State) : TxFrame s (transactRd a reg s).2 := by
  unfold transactRd
  split
  · exact ⟨rfl, rfl, rfl, rfl, rfl, fun _ => rfl, rfl, rfl, rfl, rfl, rfl, List.prefix_refl _, List.prefix_refl _⟩
  · rename_i hh
    dsimp only
    split
    · constructor <;> simp_all
    · constructor <;> simp_all
    · constructor <;> simp_all [prefix_addMark]
    · split
      · split
        · constructor <;> simp_all [prefix_addMark]
        all_goals constructor <;> simp_all
      · constructor <;> simp_all
      · constructor <;> simp_all

/-- The frame of a general call. -/
theorem transactGc_frame (d : Byte) (s : State) : TxFrame s (transactGc d s).2 := by
  unfold transactGc
  split
  · exact ⟨rfl, rfl, rfl, rfl, rfl, fun _ => rfl, rfl, rfl, rfl, rfl, rfl, List.prefix_refl _, List.prefix_refl _⟩
  · rename_i hh
    dsimp only
    split
    · constructor <;> simp_all [prefix_addMark]
    · split <;> constructor <;> simp_all

/-- A register read changes no slave state (40_pwm_slave.md R143, R157). -/
theorem transactRd_slave (a : BitVec 7) (reg : Byte) (s : State) : (transactRd a reg s).2.slave = s.slave := by
  unfold transactRd
  split
  · rfl
  · dsimp only
    split
    · simp
    · simp
    · simp
    · split
      · split <;> simp
      · simp
      · simp

end Sys2Proof.Machine
end

