-- ==== Sys2Proof/Laws/Slave.lean ====
section
/-! SUPPORT. What the slave's operations can do, said once: they write registers that exist, keep the memory's
form, and leave every register they do not name alone (spec/40_pwm_slave.md). -/

namespace Sys2Proof.Machine

/-- The slave's memory is canonical and lists only registers that hold a value. -/
structure SlaveOk (sl : Slave) : Prop where
  wf : Memory.wf slaveReset sl.sr
  listed : ∀ c ∈ sl.sr, c.1 ∈ implementedRegs

theorem SlaveOk.withOsc {sl : Slave} (h : SlaveOk sl) (o : Osc) : SlaveOk { sl with osc := o } := ⟨h.wf, h.listed⟩

theorem mem_implementedRegs {r : Nat} : r ∈ implementedRegs ↔ r ≤ 0x45 ∨ r = 0xFE := by
  simp [implementedRegs]; omega

theorem srWrite_ok {sl : Slave} (h : SlaveOk sl) {r : Nat} (hr : r ∈ implementedRegs) (v : Byte) :
    SlaveOk (srWrite r v sl) := by
  refine ⟨Memory.write_wf h.wf r v, fun c hc => ?_⟩
  rcases Memory.write_keys hc with hc | rfl
  · exact h.listed c hc
  · exact hr

/-- A register just written reads as the value written (00_scope.md R15). -/
theorem srRead_srWrite_same {sl : Slave} (h : Memory.wf slaveReset sl.sr) (r : Nat) (v : Byte) :
    srRead (srWrite r v sl) r = v := by
  simp [srRead, srWrite, Memory.read_write_same h]

/-- A register write leaves every other register alone. -/
theorem srRead_srWrite_other {sl : Slave} {r r' : Nat} (hr : r' ≠ r) (v : Byte) :
    srRead (srWrite r v sl) r' = srRead sl r' := by
  simp [srRead, srWrite, Memory.read_write_other hr]

@[simp] theorem srWrite_osc (r : Nat) (v : Byte) (sl : Slave) : (srWrite r v sl).osc = sl.osc := rfl

@[simp] theorem srRead_osc (sl : Slave) (o : Osc) (r : Nat) : srRead { sl with osc := o } r = srRead sl r := rfl

theorem ledWrite_ok {sl : Slave} (h : SlaveOk sl) {r : Nat} (hr : r ≤ 0x45) (d : Byte) :
    SlaveOk (ledWrite r d sl) := by
  unfold ledWrite
  split <;> exact srWrite_ok h (mem_implementedRegs.2 (.inl hr)) _

theorem ledWrite_other {sl : Slave} {r r' : Nat} (hr : r' ≠ r) (d : Byte) :
    srRead (ledWrite r d sl) r' = srRead sl r' := by
  unfold ledWrite
  split <;> exact srRead_srWrite_other hr _

theorem allLedWrite_ok {sl : Slave} (h : SlaveOk sl) {k n : Nat} (hk : k ≤ 3) (hn : n ≤ 16) (d : Byte) :
    SlaveOk (allLedWrite k d n sl) := by
  induction n with
  | zero => exact h
  | succ n ih =>
    exact ledWrite_ok (ih (by omega)) (by omega) d

/-- A successful register write keeps the slave's form. -/
theorem slaveWrite_ok {reg d : Byte} {sl sl' : Slave} (h : SlaveOk sl) (hw : slaveWrite reg d sl = .ok sl') :
    SlaveOk sl' := by
  have himp : ∀ {r : Nat}, r ≤ 0x45 → r ∈ implementedRegs := fun hr => mem_implementedRegs.2 (.inl hr)
  simp only [slaveWrite] at hw
  repeat' split at hw
  all_goals try (injection hw; done)
  all_goals try injection hw with hw
  all_goals try subst hw
  · unfold mode1Write at hw
    repeat' split at hw
    all_goals cases hw
    exact (srWrite_ok h (himp (by omega)) _).withOsc _
  · exact srWrite_ok h (himp (by omega)) _
  · exact srWrite_ok h (himp (by omega)) _
  · exact ledWrite_ok h (by omega) d
  · exact allLedWrite_ok h (by omega) (by omega) d
  · unfold prescaleWrite
    split
    · exact srWrite_ok h (mem_implementedRegs.2 (.inr rfl)) _
    · exact h

theorem generalCall_ok {d : Byte} {sl : Slave} (h : generalCall d = .ok sl) : SlaveOk sl := by
  unfold generalCall at h
  split at h
  · cases h; exact ⟨Memory.wf_nil, by simp⟩
  · cases h

theorem scrambleRegs_ok {count : Nat} {rs : List Nat} {sl : Slave} (h : SlaveOk sl)
    (hr : ∀ r ∈ rs, r ∈ implementedRegs) : SlaveOk (scrambleRegs count rs sl) := by
  induction rs generalizing sl with
  | nil => exact h
  | cons r rs ih => exact ih (srWrite_ok h (hr r (by simp)) _) fun r' hr' => hr r' (by simp [hr'])

theorem scrambleRegs_other {count : Nat} {rs : List Nat} {sl : Slave} {r' : Nat} (hr : r' ∉ rs) :
    srRead (scrambleRegs count rs sl) r' = srRead sl r' := by
  induction rs generalizing sl with
  | nil => rfl
  | cons r rs ih =>
    simp only [List.mem_cons, not_or] at hr
    rw [scrambleRegs, ih hr.2, srRead_srWrite_other hr.1]

theorem writeTargets_implemented (reg : Byte) : ∀ r ∈ writeTargets reg, r ∈ implementedRegs := by
  intro r hr
  rw [mem_implementedRegs]
  simp only [writeTargets] at hr
  repeat' split at hr
  all_goals simp at hr
  all_goals try omega

theorem scrambleWrite_ok {count : Nat} {reg : Byte} {sl : Slave} (h : SlaveOk sl) :
    SlaveOk (scrambleWrite count reg sl) := by
  have := scrambleRegs_ok (count := count) h (writeTargets_implemented reg)
  unfold scrambleWrite
  dsimp only
  split
  · exact this.withOsc _
  · exact this

/-- A failed register write leaves every register it could not change alone (R157). -/
theorem scrambleWrite_other {count : Nat} {reg : Byte} {sl : Slave} {r : Nat} (hr : r ∉ writeTargets reg) :
    srRead (scrambleWrite count reg sl) r = srRead sl r := by
  unfold scrambleWrite
  dsimp only
  split <;> simp [scrambleRegs_other hr]

theorem scrambleAll_ok {count : Nat} {sl : Slave} (h : SlaveOk sl) : SlaveOk (scrambleAll count sl) := by
  unfold scrambleAll
  exact SlaveOk.withOsc (scrambleRegs_ok h fun _ hr => hr) _

/-- What a register write leaves of the slave (R142, R157). -/
theorem transactWr_slave (a : BitVec 7) (reg d : Byte) (s : State) :
    (transactWr a reg d s).2.slave = s.slave ∨ slaveWrite reg d s.slave = .ok (transactWr a reg d s).2.slave
      ∨ ∃ n, (transactWr a reg d s).2.slave = scrambleWrite n reg s.slave := by
  unfold transactWr
  split
  · exact .inl rfl
  · dsimp only
    split
    · simp
    · simp
    · simp
    · split
      · split
        · simp
        · rename_i h; simp [h]
      · simp only [logBus_slave, withSlave_slave]; exact .inr (.inr ⟨_, rfl⟩)
      · simp only [logBus_slave, hangBus_slave, withSlave_slave]; exact .inr (.inr ⟨_, rfl⟩)

/-- What a general call leaves of the slave (R141, R157). -/
theorem transactGc_slave (d : Byte) (s : State) :
    (transactGc d s).2.slave = s.slave ∨ generalCall d = .ok (transactGc d s).2.slave
      ∨ ∃ n, (transactGc d s).2.slave = scrambleAll n s.slave := by
  unfold transactGc
  split
  · exact .inl rfl
  · dsimp only
    split
    · simp
    · rename_i h
      split
      · simp [h]
      · simp only [logBus_slave, withSlave_slave]; exact .inr (.inr ⟨_, rfl⟩)
      · simp only [logBus_slave, hangBus_slave, withSlave_slave]; exact .inr (.inr ⟨_, rfl⟩)

/-- Handing over an outcome changes nothing of the slave. -/
@[simp] theorem deliver_slave (r : TxReturn) (s : State) : (deliver r s).slave = s.slave := by
  rw [deliver_only_unitP]

/-! ### Bits of a register as numbers -/

theorem testBit_eq_getLsbD (b : Byte) (k : Nat) : b.toNat.testBit k = b.getLsbD k := by simp [BitVec.getLsbD]

theorem and_1F_toNat (d : Byte) : (d &&& 0x1F).toNat = d.toNat % 32 := by
  rw [BitVec.toNat_and]; exact Nat.and_two_pow_sub_one_eq_mod d.toNat 5

theorem and_3F_of_lt (d : Byte) (h : d.toNat < 0x40) : d &&& 0x3F = d := by
  rw [← BitVec.toNat_inj, BitVec.toNat_and]
  have := Nat.and_two_pow_sub_one_eq_mod d.toNat 6
  simp at this ⊢; omega

theorem getLsbD_7_iff (d : Byte) : d.getLsbD 7 = true ↔ 0x80 ≤ d.toNat := by revert d; decide

theorem getLsbD_6_iff (d : Byte) (h : d.toNat < 0x80) : d.getLsbD 6 = true ↔ 0x40 ≤ d.toNat := by revert d; decide

/-- A `MODE1` write with bits 7 and 6 clear (R144). -/
theorem slaveWrite_mode1 (sl : Slave) (d : Byte) (h : d.toNat < 0x40) :
    slaveWrite 0x00 d sl =
      .ok { srWrite 0x00 d sl with osc := oscAfter (asleep sl) (d.getLsbD 4) sl.osc } := by
  rw [show ∀ sl, slaveWrite 0x00 d sl = mode1Write d sl from fun _ => rfl]
  unfold mode1Write
  rw [if_neg (by rw [getLsbD_7_iff]; omega), if_neg (by rw [getLsbD_6_iff d (by omega)]; omega), and_3F_of_lt d h]

/-- The register writes that are not refused (R142, R144, R154, R155). -/
theorem slaveWrite_some {reg d : Byte} (sl : Slave)
    (h1 : reg.toNat ≤ 0x45 ∨ (0xFA ≤ reg.toNat ∧ reg.toNat ≤ 0xFE)) (h2 : reg = 0x00 → d.toNat < 0x40) :
    ∃ sl', slaveWrite reg d sl = .ok sl' := by
  by_cases h0 : reg = 0x00
  · subst h0; exact ⟨_, slaveWrite_mode1 sl d (h2 rfl)⟩
  · have h0' : ¬reg.toNat = 0 := fun h => h0 (by rw [← BitVec.toNat_inj]; simpa using h)
    simp only [slaveWrite]
    rw [if_neg h0']
    repeat' split
    all_goals first | exact ⟨_, rfl⟩ | omega

end Sys2Proof.Machine
end

