-- ==== Sys2Proof/Laws/Step.lean ====
section
/-! SUPPORT. What one step of the machine can do, said once: a step is one of eight kinds, each a quiet move
of the environment and the host followed by one action of the block. -/

namespace Sys2Proof.Machine

/-- The block itself is untouched: only the environment, the host, `sel`, the frames to come and the sticky
marks may differ. -/
structure Quiet (s t : State) : Prop where
  cfg : t.cfg = s.cfg
  unitP : t.unitP = s.unitP
  slave : t.slave = s.slave
  strips : t.strips = s.strips
  busLog : t.busLog = s.busLog
  faults : s.faults <+: t.faults
  refused : s.refused <+: t.refused

theorem Quiet.refl (s : State) : Quiet s s :=
  ⟨rfl, rfl, rfl, rfl, rfl, List.prefix_refl _, List.prefix_refl _⟩

theorem Quiet.trans {s t u : State} (h : Quiet s t) (h' : Quiet t u) : Quiet s u :=
  ⟨h'.cfg.trans h.cfg, h'.unitP.trans h.unitP, h'.slave.trans h.slave, h'.strips.trans h.strips,
    h'.busLog.trans h.busLog, h.faults.trans h'.faults, h.refused.trans h'.refused⟩

theorem Quiet.sel (s : State) (π : PortSel) : Quiet s { s with sel := π } :=
  ⟨rfl, rfl, rfl, rfl, rfl, List.prefix_refl _, List.prefix_refl _⟩

theorem Quiet.pick (s : State) : Quiet s (afterPick s) := by constructor <;> simp

theorem Quiet.thread (k : Nat) (t : Thread) (s : State) : Quiet s (setThread k t s) := by constructor <;> simp

theorem Quiet.effect (k : Nat) (e : HostEffect) (s : State) : Quiet s (applyEffect k e s) := by constructor <;> simp

theorem Quiet.load (k : Nat) (t : Thread) (s : State) : Quiet s (loadConfig k t s) := by constructor <;> simp

/-- An idle thread at most begins a frame of its strip's animation (48_host_reference.md R313). -/
theorem Quiet.idle (k : Nat) (t : Thread) (s : State) : Quiet s (idleStep k t s) := by
  unfold idleStep
  split
  · exact Quiet.refl s
  · exact Quiet.refl s
  · split
    · exact Quiet.refl s
    · exact Quiet.effect k _ s

theorem Quiet.refuse (r : RefuseReason) (s : State) : Quiet s (refuse r s) := by
  constructor <;> simp [prefix_addMark]

theorem Quiet.fault (f : FaultReason) (s : State) : Quiet s (markFault f s) := by
  constructor <;> simp [prefix_addMark]

/-- What one step can do (10_state.md R30). In each case `s0` is the state after the quiet part. -/
inductive StepCase (s t : State) : Prop where
  /-- The environment, a host operation, a refused access, a held or idle agent. -/
  | quiet (h : Quiet s t)
  /-- A host write of a pixel byte (20_memory.md R82). -/
  | pixel (s0 : State) (h : Quiet s s0) (i idx : Nat) (v : Byte) (u : WUnit) (hu : s0.strips[i]? = some u)
      (hidx : idx < ibufSize u.conf)
      (ht : t = setStrip i { u with ibuf := Memory.write unwritten u.ibuf idx v } s0)
  /-- A host write of a word to the `CMD` register of an idle port (R190, R254). -/
  | word (s0 : State) (h : Quiet s s0) (π : PortSel) (w : Word) (st : Status) (hst : portStatus s0 π = some st)
      (hidle : st.busy = false) (ht : runWord π w s0 = .next t)
  /-- A wait of a sequencer context that is over (R196). -/
  | wait (s0 : State) (h : Quiet s s0) (p us : Nat) (hm : nextMicroOp s0.unitP.ports p = some (.wait us))
      (he : waitEnabled s0.slave.osc us = true) (ht : t = settle p (.ok none) s0)
  /-- A transaction of a sequencer context (R193-R195). -/
  | micro (s0 : State) (h : Quiet s s0) (p : Nat) (m : MicroOp) (i : Instr)
      (hm : nextMicroOp s0.unitP.ports p = some m)
      (hi : microInstr s0.unitP.devAddr (portTmp s0.unitP.ports p) (freeByte s0 0) m = some i)
      (ht : exec i { s0 with sel := .pwm p } = .next t)
  /-- The oscillator's step (40_pwm_slave.md R156). -/
  | osc (s0 : State) (h : Quiet s s0) (ht : t = oscStep s0)
  /-- A step of a W unit (42_ws2812_encoder.md R262). -/
  | unit (s0 : State) (h : Quiet s s0) (i : Nat) (ht : t = unitStep i s0)
  /-- A transaction of the bare master. -/
  | bare (s0 : State) (h : Quiet s s0) (f : List (List Byte)) (i : Instr) (hf : decodeFrame f = .ok i)
      (hb : bareRefusal i = none) (ht : exec i { s0 with sel := .direct } = .next t)

theorem portWrite_cases {k : Nat} {th : Thread} {π : PortSel} {offset width : Nat} {v : Word} {s t : State}
    (h : portWrite k th π offset width v s = .next t) : StepCase s t := by
  unfold portWrite at h
  split at h
  · cases h
  · rename_i st hst
    split at h
    · cases h; exact .quiet ((Quiet.thread k th s).trans (Quiet.refuse _ _))
    · split at h
      · cases h; exact .quiet (Quiet.refl s)
      · rename_i hb
        exact .word (setThread k th s) (Quiet.thread k th s) π v st hst (by simpa using hb) h
    · cases h; exact .quiet ((Quiet.thread k th s).trans (Quiet.refuse _ _))
    · cases h; exact .quiet ((Quiet.thread k th s).trans (Quiet.refuse _ _))

theorem portRead_cases {k : Nat} {th : Thread} {π : PortSel} {offset width : Nat} {s t : State}
    (h : portRead k th π offset width s = .next t) : StepCase s t := by
  unfold portRead at h
  split at h
  · cases h
  · split at h
    · cases h; exact .quiet ((Quiet.thread k _ s).trans (Quiet.refuse _ _))
    · cases h; exact .quiet ((Quiet.thread k _ s).trans (Quiet.refuse _ _))
    · cases h; exact .quiet (Quiet.thread k _ s)
    · cases h; exact .quiet (Quiet.thread k _ s)

theorem await_cases {k : Nat} {th : Thread} {π : PortSel} {tag : Option String} {s t : State}
    (h : await k th π tag s = .next t) : StepCase s t := by
  unfold await at h
  split at h
  · cases h
  · split at h
    · cases h; exact .quiet (Quiet.refl s)
    · cases h; exact .quiet (Quiet.thread k _ s)

theorem ibufWrite_cases {k : Nat} {th : Thread} {i idx : Nat} {v : Byte} {s t : State}
    (h : ibufWrite k th i idx v s = .next t) : StepCase s t := by
  unfold ibufWrite at h
  split at h
  · cases h
  · rename_i u hu
    split at h
    · rename_i hidx
      cases h
      exact .pixel (setThread k th s) (Quiet.thread k th s) i idx v u hu hidx rfl
    · cases h; exact .quiet ((Quiet.thread k th s).trans (Quiet.refuse _ _))

theorem ibufRead_cases {k : Nat} {th : Thread} {i idx : Nat} {s t : State}
    (h : ibufRead k th i idx s = .next t) : StepCase s t := by
  unfold ibufRead at h
  split at h
  · cases h
  · split at h
    · split at h
      · cases h; exact .quiet (Quiet.thread k _ s)
      · cases h; exact .quiet ((Quiet.thread k _ s).trans (Quiet.fault _ _))
    · cases h; exact .quiet ((Quiet.thread k _ s).trans (Quiet.refuse _ _))

theorem addrWrite_cases {k : Nat} {th : Thread} {addr width : Nat} {v : Word} {s t : State}
    (h : addrWrite k th addr width v s = .next t) : StepCase s t := by
  unfold addrWrite at h
  split at h
  · exact portWrite_cases h
  · cases h; exact .quiet ((Quiet.thread k th s).trans (Quiet.refuse _ _))

theorem addrRead_cases {k : Nat} {th : Thread} {addr width : Nat} {s t : State}
    (h : addrRead k th addr width s = .next t) : StepCase s t := by
  unfold addrRead at h
  split at h
  · exact portRead_cases h
  · cases h; exact .quiet ((Quiet.thread k _ s).trans (Quiet.refuse _ _))

theorem hostStep_cases {k : Nat} {s t : State} (h : hostStep k s = .next t) : StepCase s t := by
  unfold hostStep at h
  split at h
  · cases h; exact .quiet (Quiet.refl s)
  · split at h
    · cases h; exact .quiet (Quiet.idle k _ s)
    · dsimp only at h
      split at h
      · exact portWrite_cases h
      · exact portRead_cases h
      · exact await_cases h
      · exact ibufWrite_cases h
      · exact ibufRead_cases h
      · exact addrRead_cases h
      · exact addrWrite_cases h
      · cases h; exact .quiet (Quiet.load k _ s)
      · split at h
        · cases h; exact .quiet (Quiet.refl s)
        · cases h; exact .quiet (Quiet.effect k _ s)

theorem seqStep_cases {p : Nat} {s t : State} (h : seqStep p s = .next t) : StepCase s t := by
  unfold seqStep at h
  split at h
  · cases h; exact .quiet (Quiet.refl s)
  · rename_i us hm
    split at h
    · rename_i he; cases h; exact .wait s (Quiet.refl s) p us hm he rfl
    · cases h; exact .quiet (Quiet.refl s)
  · rename_i m _ hm
    split at h
    · cases h; exact .quiet (Quiet.refl s)
    · rename_i i hi
      exact .micro s (Quiet.refl s) p m i hm hi h

theorem masterStep_cases {s t : State} (h : masterStep s = .next t) : StepCase s t := by
  unfold masterStep at h
  split at h
  · cases h; exact .quiet (Quiet.refl s)
  · rename_i f rest _
    have hq : Quiet s { s with frames := rest } :=
      ⟨rfl, rfl, rfl, rfl, rfl, List.prefix_refl _, List.prefix_refl _⟩
    split at h
    · cases h; exact .quiet (Quiet.refl s)
    · split at h
      · rename_i i hf
        split at h
        · cases h; exact .quiet (hq.trans (Quiet.refuse _ _))
        · rename_i hb
          exact .bare { s with frames := rest } hq f i hf hb h
      · cases h; exact .quiet (hq.trans (Quiet.refuse _ _))

theorem StepCase.after {s s1 t : State} (hq : Quiet s s1) (h : StepCase s1 t) : StepCase s t := by
  cases h with
  | quiet h => exact .quiet (hq.trans h)
  | pixel s0 h i idx v u hu hidx ht => exact .pixel s0 (hq.trans h) i idx v u hu hidx ht
  | word s0 h π w st hst hidle ht => exact .word s0 (hq.trans h) π w st hst hidle ht
  | wait s0 h p us hm he ht => exact .wait s0 (hq.trans h) p us hm he ht
  | micro s0 h p m i hm hi ht => exact .micro s0 (hq.trans h) p m i hm hi ht
  | osc s0 h ht => exact .osc s0 (hq.trans h) ht
  | unit s0 h i ht => exact .unit s0 (hq.trans h) i ht
  | bare s0 h f i hf hb ht => exact .bare s0 (hq.trans h) f i hf hb ht

/-- One step is one of these (41_pwm_commands.md R230). -/
theorem step_cases {s t : State} (h : step s = .next t) : StepCase s t := by
  unfold step agentStep at h
  refine .after (Quiet.pick s) ?_
  split at h
  · exact hostStep_cases h
  · exact seqStep_cases h
  · cases h; exact .osc _ (Quiet.refl _) rfl
  · cases h; exact .unit _ (Quiet.refl _) _ rfl
  · exact masterStep_cases h

end Sys2Proof.Machine
end

