-- ==== Sys2Proof/Laws/Bus.lean ====
section
/-! SUPPORT. Which addresses the slave answers, what a delivered outcome does when nothing took place, and the step of
the agent at the head of the schedule, said once. -/

namespace Sys2Proof.Machine

open Sys2Proof.Safety

theorem eq_extractLsb_iff (b : Byte) (a : BitVec 7) : a = b.extractLsb' 1 7 ↔ a.toNat = b.toNat / 2 := by
  rw [← BitVec.toNat_inj]; simp [Nat.shiftRight_eq_div_pow]; have := b.isLt; omega

/-- The all-call and sub-address match on numbers (40_pwm_slave.md R140). -/
theorem alternateHit_iff (sl : Slave) (a : BitVec 7) :
    alternateHit sl a = true
      ↔ ((srRead sl 0).toNat.testBit 0 = true ∧ a.toNat = (srRead sl 5).toNat / 2)
        ∨ ((srRead sl 0).toNat.testBit 3 = true ∧ a.toNat = (srRead sl 2).toNat / 2)
        ∨ ((srRead sl 0).toNat.testBit 2 = true ∧ a.toNat = (srRead sl 3).toNat / 2)
        ∨ ((srRead sl 0).toNat.testBit 1 = true ∧ a.toNat = (srRead sl 4).toNat / 2) := by
  unfold alternateHit
  simp only [Bool.or_eq_true, Bool.and_eq_true, beq_iff_eq, testBit_eq_getLsbD, eq_extractLsb_iff, or_assoc]

/-- `Decode(a, 0) = SELECTED` (R140). -/
theorem decodeAddr_selected_iff (s : State) (a : BitVec 7) :
    decodeAddr s.cfg.slaveAddr s.slave a false = .selected ↔ Selects s a := by
  unfold decodeAddr Selects
  dsimp only
  rw [← alternateHit_iff]
  by_cases h0 : a = 0
  · simp [h0]
  · rw [if_neg h0]
    by_cases h1 : a = s.cfg.slaveAddr
    · simp [h1]; rw [← h1]; exact h0
    · rw [if_neg h1]
      by_cases h2 : alternateHit s.slave a = true
      · simp [h1, h2]; exact h0
      · simp [h1, h2]

/-- `Decode(a, 0) = NACK` (R140). -/
theorem decodeAddr_nack (s : State) (a : BitVec 7) (h0 : a ≠ 0) (h : ¬Selects s a) :
    decodeAddr s.cfg.slaveAddr s.slave a false = .nack := by
  rw [← decodeAddr_selected_iff] at h
  unfold decodeAddr at h ⊢
  rw [if_neg h0] at h ⊢
  split
  · rename_i h1; simp [h1] at h
  · rename_i h1; rw [if_neg h1] at h
    split
    · rename_i h2; simp [h2] at h
    · rfl

/-- `Decode(a, 0)` at an address that selects no device: no acknowledgement, or the general call (R140). -/
theorem decodeAddr_unselected (s : State) (a : BitVec 7) (h : ¬Selects s a) :
    decodeAddr s.cfg.slaveAddr s.slave a false = .nack
      ∨ decodeAddr s.cfg.slaveAddr s.slave a false = .generalCall := by
  by_cases h0 : a = 0
  · right; simp [decodeAddr, h0]
  · exact .inl (decodeAddr_nack s a h0 h)

/-- The slave's own address selects it for either direction (R140). -/
theorem decodeAddr_own (s : State) (h : s.cfg.slaveAddr ≠ 0) (read : Bool) :
    decodeAddr s.cfg.slaveAddr s.slave s.cfg.slaveAddr read = .selected := by
  unfold decodeAddr; rw [if_neg h, if_pos rfl]

/-- The registers a failed write scrambles are those it could reach (R157). -/
theorem writeTargets_reach (reg : Byte) (r : Nat) (h : r ∈ writeTargets reg) : WriteReaches reg r := by
  simp only [writeTargets] at h
  unfold WriteReaches
  repeat' split at h
  all_goals simp at h
  · exact .inl ⟨by assumption, h⟩
  · obtain ⟨n, hn, rfl⟩ := h; exact .inr (.inr ⟨by omega, by omega, n, hn, rfl⟩)
  · rename_i h1 h2 h3 h4
    exact .inr (.inl ⟨by rw [← BitVec.toNat_inj]; simpa using h4, by omega⟩)

/-! ### Outcomes that move nobody -/

theorem deliver_hang (s : State) : deliver .hang s = s := by
  unfold deliver settle
  split
  · split
    · rfl
    · simp
  · rfl
  · rfl

theorem deliver_held (s : State) : deliver .held s = s := by
  unfold deliver settle
  split
  · split
    · rfl
    · simp
  · rfl
  · rfl

/-! ### The scheduled agent -/

/-- The step of the agent at the head of the schedule (41_pwm_commands.md R230). -/
theorem step_of_sched {s : State} {a : Agent} {rest : List Agent} (h : s.env.sched = a :: rest) :
    step s = agentStep a { s with env := { s.env with sched := rest } } := by
  unfold step pickAgent afterPick
  rw [h]

end Sys2Proof.Machine
end

