-- ==== Sys2Proof/Laws/Decode.lean ====
section
/-! SUPPORT. The fields of a command word and of a bus frame as numbers, for the statements about decoding. -/

namespace Sys2Proof

/-- Concatenation as a sum (00_scope.md R13). -/
theorem toNat_append_sum {m n : Nat} (x : BitVec m) (y : BitVec n) : (x ++ y).toNat = x.toNat * 2 ^ n + y.toNat := by
  rw [BitVec.toNat_append, ← Nat.shiftLeft_add_eq_or_of_lt y.isLt, Nat.shiftLeft_eq]

/-- A field of a word as a number (R13). -/
theorem bits_toNat (w : Word) (lo len : Nat) : (bits w lo len).toNat = w.toNat / 2 ^ lo % 2 ^ len := by
  simp [bits, Nat.shiftRight_eq_div_pow]

theorem bits_eq_iff {w : Word} {lo len : Nat} {x : BitVec len} :
    bits w lo len = x ↔ w.toNat / 2 ^ lo % 2 ^ len = x.toNat := by
  rw [← BitVec.toNat_inj, bits_toNat]

theorem bits_eq {w : Word} {lo len : Nat} {x : BitVec len} (h : w.toNat / 2 ^ lo % 2 ^ len = x.toNat) :
    bits w lo len = x := bits_eq_iff.2 h

/-- The opcode of a word (30_encoding.md R110). -/
theorem opcode_toNat (w : Word) : (bits w 24 8).toNat = w.toNat / 2 ^ 24 := by
  rw [bits_toNat]; have := w.isLt; omega

/-- The two halves of an address byte (R116). -/
theorem addrOf_addrByte (a : BitVec 7) (r : Bool) : addrOf (addrByte a r) = a := by
  rw [← BitVec.toNat_inj]
  simp only [addrOf, addrByte, BitVec.extractLsb'_toNat, toNat_append_sum, Nat.shiftRight_eq_div_pow]
  have := a.isLt
  cases r <;> simp [BitVec.ofBool] <;> omega

theorem isRead_addrByte (a : BitVec 7) (r : Bool) : isRead (addrByte a r) = r := by
  simp only [isRead, addrByte, BitVec.getLsbD_append]
  cases r <;> simp [BitVec.ofBool]

/-- An address byte is its two halves (R116). -/
theorem addrByte_addrOf (b : Byte) : addrByte (addrOf b) (isRead b) = b := by
  revert b; decide

theorem guardReserved_eq_ok {len : Nat} {x : BitVec len} {e : Except DecodeError Instr} {i : Instr} :
    guardReserved x e = .ok i ↔ x = 0 ∧ e = .ok i := by
  unfold guardReserved
  split
  · simp_all
  · simp_all

theorem byMode_eq_ok {m : BitVec 2} {a b c i : Instr} :
    byMode m a b c = .ok i ↔ (m = 0 ∧ i = a) ∨ (m = 1 ∧ i = b) ∨ (m = 2 ∧ i = c) := by
  unfold byMode
  have h01 : ¬((1 : BitVec 2) = 0) := by decide
  have h02 : ¬((2 : BitVec 2) = 0) := by decide
  have h12 : ¬((2 : BitVec 2) = 1) := by decide
  split
  · subst_vars; simp [eq_comm]
  · split
    · subst_vars; simp [eq_comm]
    · split
      · subst_vars; simp [eq_comm]
      · simp_all

/-- The opcode of a word as a number. -/
theorem opcode_eq_iff {w : Word} {n : Nat} (hn : n < 256) : bits w 24 8 = BitVec.ofNat 8 n ↔ w.toNat / 2 ^ 24 = n := by
  rw [← BitVec.toNat_inj, opcode_toNat, BitVec.toNat_ofNat, Nat.mod_eq_of_lt (by omega)]

theorem bits_ne_zero {w : Word} {lo len : Nat} : bits w lo len ≠ 0 ↔ w.toNat / 2 ^ lo % 2 ^ len ≠ 0 := by
  rw [Ne, bits_eq_iff]; simp

theorem guardReserved_error {len : Nat} {x : BitVec len} {e : Except DecodeError Instr} :
    (∃ r, guardReserved x e = .error r) ↔ x ≠ 0 ∨ ∃ r, e = .error r := by
  unfold guardReserved; split <;> simp_all

theorem byMode_error {m : BitVec 2} {a b c : Instr} : (∃ r, byMode m a b c = .error r) ↔ m = 3 := by
  unfold byMode
  have : m = 0 ∨ m = 1 ∨ m = 2 ∨ m = 3 := by revert m; decide
  rcases this with rfl | rfl | rfl | rfl <;> simp

end Sys2Proof
end

