-- ==== Sys2Proof/Laws/Host.lean ====
section
/-! SUPPORT. The host threads (spec/48_host_reference.md): what an idle thread can do, and the operations on a strip the
platform has, each said once. -/

namespace Sys2Proof.Machine

/-- Replacing an element by itself. -/
theorem set_self {α : Type} {l : List α} {k : Nat} {x : α} (h : l[k]? = some x) : l.set k x = l := by
  obtain ⟨hk, rfl⟩ := List.getElem?_eq_some_iff.1 h
  exact List.set_getElem_self hk

/-- An effect that gives a thread what it had changes nothing. -/
theorem applyEffect_same {k : Nat} {t : Thread} {s : State} (h : s.host.threads[k]? = some t) :
    applyEffect k { thread := t } s = s := by
  unfold applyEffect; rw [set_self h]

/-- A strip of the platform with its animation. -/
theorem stripAnim_some {s : State} {i : Nat} {u : WUnit} {a : Anim} (hu : s.strips[i]? = some u)
    (ha : s.host.anim[i]? = some a) : stripAnim s i = some (u.conf, a) := by
  simp only [stripAnim, hu, ha]

theorem stripAnim_anim {s : State} {i : Nat} {c : StripConfig} {a : Anim} (h : stripAnim s i = some (c, a)) :
    s.host.anim[i]? = some a := by
  unfold stripAnim at h
  split at h
  · rename_i ha; cases h; exact ha
  · cases h

/-- An idle thread has no step if its strip's animation, should it have one, does not run or is locked
(48_host_reference.md R313, R314). -/
theorem idleStep_resting {k : Nat} {t : Thread} {s : State} (ht : s.host.threads[k]? = some t)
    (h : ∀ i a, t.task = some i → s.host.anim[i]? = some a → a.mode ≠ .running ∨ a.lock ≠ none) :
    idleStep k t s = s := by
  unfold idleStep
  split
  · rfl
  · rfl
  · rename_i i hi _
    simp only [expandOp, hi]
    cases hsa : stripAnim s i with
    | none => exact applyEffect_same ht
    | some ca =>
      obtain ⟨c, a⟩ := ca
      simp only [if_true]
      have := h i a hi (stripAnim_anim hsa)
      by_cases hl : a.lock = none
      · rw [if_pos hl, animFrame, if_neg (this.resolve_right (not_not.2 hl))]
        exact applyEffect_same ht
      · rw [if_neg hl]

/-- After a failed load an idle thread has no step (48_host_reference.md R302). -/
theorem idleStep_failed {k : Nat} {t : Thread} {s : State} (h : s.host.load = .failed) : idleStep k t s = s := by
  unfold idleStep
  split <;> simp_all

/-- The task of an unlocked animation takes its turn: a frame if the animation runs (48_host_reference.md R313). -/
theorem idleStep_frame {k i : Nat} {t : Thread} {s : State} {u : WUnit} {a : Anim} (hi : t.task = some i)
    (hl : s.host.load ≠ .failed) (hu : s.strips[i]? = some u) (ha : s.host.anim[i]? = some a)
    (hk : a.lock = none) :
    idleStep k t s = applyEffect k (animFrame k i u.conf t a) s := by
  unfold idleStep
  split
  · simp_all
  · simp_all
  · rename_i j hj _
    rw [hi] at hj; cases hj
    simp only [expandOp, hi, stripAnim_some hu ha, hk, if_true]

end Sys2Proof.Machine
end

