-- ==== Sys2Proof/Laws/Issue.lean ====
section
/-! SUPPORT. What a host write of a command word can do, and which instructions the decoders give, said once. -/

namespace Sys2Proof.Machine

/-! ### The operations at a port that is there -/

theorem getElem?_set_of_some {α : Type} {l : List α} {i : Nat} {x y : α} (h : l[i]? = some x) :
    (l.set i y)[i]? = some y :=
  List.getElem?_set_self (List.getElem?_eq_some_iff.1 h).1

theorem storeCmd_pwm {p : Nat} {P : PwmPort} {s : State} (hP : s.unitP.ports[p]? = some P) (w : Word) :
    storeCmd (.pwm p) w s = setPort p { P with cmd := some w } s := by
  simp only [storeCmd, hP]

theorem storeCmd_ws {i q : Nat} {u : WUnit} {P : WPort} {s : State} (hu : s.strips[i]? = some u)
    (hP : u.ports[q]? = some P) (w : Word) :
    storeCmd (.ws i q) w s = setStrip i (setWPort q { P with cmd := some w } u) s := by
  simp only [storeCmd, hu, hP]

theorem completeWs_some {i q : Nat} {u : WUnit} {s : State} (hu : s.strips[i]? = some u) (code : ErrCode)
    (step : Byte) : completeWs i q code step s = setStrip i (completeUnit q code step u) s := by
  simp only [completeWs, hu]

/-- A completion with any code but `OK` and `BUS_ERROR` leaves `F_CONF` alone (R213). -/
theorem completeEffect_rejected (o : Option PwmCmd) {code : ErrCode} (f : FConf) (h1 : code ≠ .ok)
    (h2 : code ≠ .busError) : completeEffect o code f = f := by
  unfold completeEffect
  split <;> simp_all

theorem issuePwm_at {p : Nat} {P : PwmPort} {s : State} (hsel : s.sel = .pwm p) (hP : s.unitP.ports[p]? = some P)
    (c : PwmCmd) :
    issuePwm c s =
      .next
        (if P.status.busy then s
        else match validate c with
          | some code => completePwm p code 0 s
          | none => acceptPwm p P c s) := by
  unfold issuePwm
  rw [hsel]
  dsimp only
  generalize s.unitP.ports[p]? = o at hP
  subst hP
  rfl

theorem issueWs_at {i q : Nat} {u : WUnit} {P : WPort} {s : State} (hsel : s.sel = .ws i q)
    (hu : s.strips[i]? = some u) (hP : u.ports[q]? = some P) (c : WsCmd) :
    issueWs c s =
      .next
        (if P.status.busy then s
        else if ibufSize u.conf < c.count then completeWs i q .bufferRange 0 s
        else setStrip i (acceptWs q P c u) s) := by
  simp only [issueWs, hsel, hu, hP]

theorem issueIllegal_pwm {p : Nat} {P : PwmPort} {s : State} (hsel : s.sel = .pwm p)
    (hP : s.unitP.ports[p]? = some P) :
    issueIllegal s = .next (if P.status.busy then s else completePwm p .illegalCommand 0 s) := by
  simp only [issueIllegal, hsel, hP]

theorem issueIllegal_ws {i q : Nat} {u : WUnit} {P : WPort} {s : State} (hsel : s.sel = .ws i q)
    (hu : s.strips[i]? = some u) (hP : u.ports[q]? = some P) :
    issueIllegal s = .next (if P.status.busy then s else completeWs i q .illegalCommand 0 s) := by
  simp only [issueIllegal, hsel, hu, hP]

/-! ### What an issue can do -/

/-- An instruction that a host writes to a port, with the command it issues at unit P or at a W unit. -/
inductive Issues (s : State) : Host.Outcome State Fault Refusal → Prop where
  | pwm (c : PwmCmd) : Issues s (issuePwm c s)
  | ws (c : WsCmd) : Issues s (issueWs c s)

theorem guardReserved_ok {len : Nat} {x : BitVec len} {e : Except DecodeError Instr} {i : Instr}
    (h : guardReserved x e = .ok i) : x = 0 ∧ e = .ok i := by
  unfold guardReserved at h
  split at h
  · exact ⟨by assumption, h⟩
  · cases h

theorem byMode_ok {m : BitVec 2} {a b c i : Instr} (h : byMode m a b c = .ok i) :
    (m = 0 ∧ i = a) ∨ (m = 1 ∧ i = b) ∨ (m = 2 ∧ i = c) := by
  unfold byMode at h
  split at h
  · cases h; exact .inl ⟨by assumption, rfl⟩
  · split at h
    · cases h; exact .inr (.inl ⟨by assumption, rfl⟩)
    · split at h
      · cases h; exact .inr (.inr ⟨by assumption, rfl⟩)
      · cases h

/-- Every word the decoder accepts issues a command. -/
theorem exec_issues {w : Word} {i : Instr} (h : decodeWord w = .ok i) (s : State) : Issues s (exec i s) := by
  simp only [decodeWord] at h
  repeat' split at h
  all_goals first
    | cases h
    | obtain ⟨-, h⟩ := guardReserved_ok h
      first
        | cases h; first | exact .pwm _ | exact .ws _
        | rcases byMode_ok h with ⟨-, rfl⟩ | ⟨-, rfl⟩ | ⟨-, rfl⟩ <;> exact .ws _

/-- The run of one transaction for whoever `sel` names. -/
inductive Transacts (s : State) : Host.Outcome State Fault Refusal → Prop where
  | wr (a : BitVec 7) (reg d : Byte) : Transacts s (.next (perform (transactWr a reg d) s))
  | rd (a : BitVec 7) (reg : Byte) : Transacts s (.next (perform (transactRd a reg) s))
  | gc (d : Byte) : Transacts s (.next (perform (transactGc d) s))

/-- Every frame the decoder accepts is one transaction. -/
theorem exec_frame {f : List (List Byte)} {i : Instr} (h : decodeFrame f = .ok i) (s : State) : Transacts s (exec i s) := by
  unfold decodeFrame at h
  repeat' split at h
  all_goals cases h
  · exact .gc _
  · exact .wr _ _ _
  · exact .rd _ _

/-- Every micro-op that runs an instruction is one transaction. -/
theorem exec_micro {a : BitVec 7} {tmp : Option Byte} {free : Byte} {m : MicroOp} {i : Instr}
    (h : microInstr a tmp free m = some i) (s : State) : Transacts s (exec i s) := by
  cases m <;> cases h
  · exact .gc _
  · exact .rd _ _
  · exact .wr _ _ _

/-- What the issue of a word at an idle port can do (R190, R254, R114): `s` is the state with the word in
`CMD`, whose `sel` is the port. -/
inductive IssueCase (s t : State) : Prop where
  /-- Rejected at a PWM port: an illegal word or a value error. -/
  | rejected (p : Nat) (P : PwmPort) (hP : s.unitP.ports[p]? = some P) (hidle : P.status.busy = false)
      (code : ErrCode) (h1 : code ≠ .ok) (h2 : code ≠ .busError) (ht : t = completePwm p code 0 s)
  /-- Rejected at a W port. -/
  | rejectedWs (i q : Nat) (u : WUnit) (P : WPort) (hu : s.strips[i]? = some u) (hP : u.ports[q]? = some P)
      (hidle : P.status.busy = false) (code : ErrCode) (h1 : code ≠ .ok) (h2 : code ≠ .busError)
      (ht : t = setStrip i (completeUnit q code 0 u) s)
  /-- Accepted at a PWM port. -/
  | accepted (p : Nat) (P : PwmPort) (hP : s.unitP.ports[p]? = some P) (hidle : P.status.busy = false)
      (c : PwmCmd) (hc : validate c = none) (ht : t = acceptPwm p P c s)
  /-- Accepted at a W port. -/
  | acceptedWs (i q : Nat) (u : WUnit) (P : WPort) (hu : s.strips[i]? = some u) (hP : u.ports[q]? = some P)
      (hidle : P.status.busy = false) (c : WsCmd) (hc : c.count ≤ ibufSize u.conf)
      (ht : t = setStrip i (acceptWs q P c u) s)

theorem validate_code {c : PwmCmd} {code : ErrCode} (h : validate c = some code) :
    code ≠ .ok ∧ code ≠ .busError := by
  unfold validate at h
  repeat' split at h
  all_goals cases h
  all_goals simp

theorem issueIllegal_cases {s t : State} (hidle : ∀ st, portStatus s s.sel = some st → st.busy = false)
    (h : issueIllegal s = .next t) : IssueCase s t := by
  unfold issueIllegal at h
  split at h
  · rename_i p hsel
    split at h
    · cases h
    · rename_i P hP
      have hb : P.status.busy = false := hidle _ (by simp [portStatus, hsel, hP])
      rw [hb] at h
      cases h
      exact .rejected p P hP hb .illegalCommand (by simp) (by simp) rfl
  · rename_i i q hsel
    split at h
    · cases h
    · rename_i u hu
      split at h
      · cases h
      · rename_i P hP
        have hb : P.status.busy = false := hidle _ (by simp [portStatus, hsel, hu, hP])
        rw [hb] at h
        cases h
        exact .rejectedWs i q u P hu hP hb .illegalCommand (by simp) (by simp) (by simp [completeWs, hu])
  · cases h

theorem issues_cases {s t : State} {o : Host.Outcome State Fault Refusal} (ho : Issues s o)
    (hidle : ∀ st, portStatus s s.sel = some st → st.busy = false) (h : o = .next t) : IssueCase s t := by
  cases ho with
  | pwm c =>
    unfold issuePwm at h
    split at h
    · rename_i p hsel
      split at h
      · cases h
      · rename_i P hP
        have hb : P.status.busy = false := hidle _ (by simp [portStatus, hsel, hP])
        rw [hb] at h
        cases hv : validate c with
        | none => rw [hv] at h; cases h; exact .accepted p P hP hb c hv rfl
        | some code =>
          rw [hv] at h; cases h
          exact .rejected p P hP hb code (validate_code hv).1 (validate_code hv).2 rfl
    · exact issueIllegal_cases hidle h
    · cases h
  | ws c =>
    unfold issueWs at h
    split at h
    · exact issueIllegal_cases hidle h
    · rename_i i q hsel
      split at h
      · cases h
      · rename_i u hu
        split at h
        · cases h
        · rename_i P hP
          have hb : P.status.busy = false := hidle _ (by simp [portStatus, hsel, hu, hP])
          rw [hb] at h
          simp only [Bool.false_eq_true, if_false] at h
          split at h
          · cases h
            exact .rejectedWs i q u P hu hP hb .bufferRange (by simp) (by simp) (by simp [completeWs, hu])
          · cases h
            exact .acceptedWs i q u P hu hP hb c (by omega) rfl
    · cases h

/-- Storing the word changes no status. -/
theorem portStatus_storeCmd (π ρ : PortSel) (w : Word) (s : State) :
    portStatus (storeCmd π w s) ρ = portStatus s ρ := by
  unfold storeCmd
  split
  · split
    · rfl
    · rename_i p P hP
      cases ρ with
      | pwm q =>
        simp only [portStatus, setPort_unitP, List.getElem?_set]
        split
        · subst_vars; split <;> simp_all
        · rfl
      | ws i q => simp [portStatus]
      | direct => rfl
  · split
    · rfl
    · split
      · rfl
      · rename_i i q _ u hu _ P hP
        cases ρ with
        | pwm q => simp [portStatus]
        | ws i' q' =>
          simp only [portStatus, setStrip_strips, List.getElem?_set]
          split
          · subst_vars
            split
            · simp only [Option.bind_some, setWPort, List.getElem?_set, hu]
              split
              · subst_vars; split <;> simp_all
              · rfl
            · simp_all
          · rfl
        | direct => rfl
  · rfl

/-- The issue of a word at an idle port (R190, R254). -/
theorem runWord_cases {π : PortSel} {w : Word} {s t : State} {st : Status} (hst : portStatus s π = some st)
    (hidle : st.busy = false) (h : runWord π w s = .next t) : IssueCase { storeCmd π w s with sel := π } t := by
  have hp : ∀ st', portStatus { storeCmd π w s with sel := π } π = some st' → st'.busy = false := by
    intro st' h'
    have : portStatus { storeCmd π w s with sel := π } π = portStatus s π := by
      rw [← portStatus_storeCmd π π w s]; cases π <;> rfl
    rw [this, hst] at h'; cases h'; exact hidle
  unfold runWord at h
  split at h
  · rename_i i hi
    exact issues_cases (exec_issues hi _) hp h
  · exact issueIllegal_cases hp h

/-- An accepted command in one piece (R190, R233). -/
theorem acceptPwm_eq (p : Nat) (P : PwmPort) (c : PwmCmd) (s : State) :
    acceptPwm p P c s =
      { s with
        faults := if conflicts s.unitP.ports p c then addMark .seqConflict s.faults else s.faults
        unitP :=
          issueEffect c
            { s.unitP with
              issueCtr := s.unitP.issueCtr + 1
              ports := s.unitP.ports.set p (acceptedPort s.cfg c s.unitP.issueCtr P) } } := by
  unfold acceptPwm; dsimp only; split <;> rfl

/-- Which other port is active (R233). -/
theorem otherActive_iff (ports : List PwmPort) (p : Nat) (f : Option PwmCmd → Bool) :
    otherActive ports p f = true
      ↔ ∃ q Q, q ≠ p ∧ ports[q]? = some Q ∧ Q.status.busy = true ∧ f Q.op = true := by
  simp only [otherActive, List.any_eq_true, List.mem_range, Bool.and_eq_true, bne_iff_ne]
  constructor
  · rintro ⟨q, hq, hne, h⟩
    rw [List.getElem?_eq_getElem hq, Bool.and_eq_true] at h
    exact ⟨q, _, hne, List.getElem?_eq_getElem hq, h.1, h.2⟩
  · rintro ⟨q, Q, hne, hQ, hb, hf⟩
    refine ⟨q, (List.getElem?_eq_some_iff.1 hQ).1, hne, ?_⟩
    rw [hQ]; simp [hb, hf]

/-- Storing a word in `CMD` changes nothing but the ports and the strips. -/
theorem storeCmd_rest (π : PortSel) (w : Word) (s : State) :
    (storeCmd π w s).cfg = s.cfg ∧ (storeCmd π w s).unitP.ports.length = s.unitP.ports.length
      ∧ (storeCmd π w s).faults = s.faults ∧ (storeCmd π w s).refused = s.refused
      ∧ (storeCmd π w s).unitP.i2cHung = s.unitP.i2cHung ∧ (storeCmd π w s).unitP.issueCtr = s.unitP.issueCtr
      ∧ (storeCmd π w s).slave = s.slave ∧ (storeCmd π w s).busLog = s.busLog := by
  unfold storeCmd
  repeat' split
  all_goals simp

end Sys2Proof.Machine
end

