-- ==== Sys2Proof/Laws/PerInstr.lean ====
section
/-! SUPPORT. One statement made of every instruction: what its encoding is, as a number or as the numbers of its bytes
(spec/30_encoding.md R111, R112, R116-R118, R124, R125). -/

namespace Sys2Proof.Laws.Encoding

/-- The command word with this opcode and these low 24 bits. -/
def word (opcode operands : Nat) (w : Wire) : Prop := ∃ v : Word, w = .word v ∧ v.toNat = opcode * 2 ^ 24 + operands

/-- The bus frame with these bytes after each START. -/
def frame (segments : List (List Nat)) (w : Wire) : Prop :=
  ∃ f : List (List Byte), w = .frame f ∧ f.map (·.map BitVec.toNat) = segments

/-- The encoding of each instruction. -/
def Statement (i : Instr) : Prop :=
  match i with
  | .pwmInit a => word 0x01 a.toNat (encode i)
  | .pwmFreq hz => word 0x02 hz.toNat (encode i)
  | .pwmChan ch duty => word 0x03 (ch.toNat * 2 ^ 16 + duty.toNat) (encode i)
  | .wsEncM8 n => word 0x10 n.toNat (encode i)
  | .wsEncM4 n => word 0x10 (1 * 2 ^ 16 + n.toNat) (encode i)
  | .wsEncAuto n => word 0x10 (2 * 2 ^ 16 + n.toNat) (encode i)
  | .wsTx => word 0x11 0 (encode i)
  | .wsShowM8 n => word 0x12 n.toNat (encode i)
  | .wsShowM4 n => word 0x12 (1 * 2 ^ 16 + n.toNat) (encode i)
  | .wsShowAuto n => word 0x12 (2 * 2 ^ 16 + n.toNat) (encode i)
  | .pwmZero ch => word 0x03 (ch.toNat * 2 ^ 16) (encode i)
  | .wsFrame n => word 0x12 (2 * 2 ^ 16 + n.toNat) (encode i)
  | .i2cWr a r d => frame [[2 * a.toNat, r.toNat, d.toNat]] (encode i)
  | .i2cRd a r => frame [[2 * a.toNat, r.toNat], [2 * a.toNat + 1, 0]] (encode i)
  | .i2cGc d => frame [[0, d.toNat]] (encode i)

theorem addrByte_toNat (a : BitVec 7) (read : Bool) : (addrByte a read).toNat = 2 * a.toNat + read.toNat := by
  simp only [addrByte, toNat_append_sum]; cases read <;> simp [BitVec.ofBool, Nat.mul_comm]

theorem pwmInit (a : BitVec 7) : Statement (.pwmInit a) := ⟨_, rfl, by simp only [toNat_append_sum]; simp⟩

theorem pwmFreq (hz : BitVec 16) : Statement (.pwmFreq hz) := ⟨_, rfl, by simp only [toNat_append_sum]; simp⟩

theorem pwmChan (ch : BitVec 8) (duty : BitVec 12) : Statement (.pwmChan ch duty) :=
  ⟨_, rfl, by simp only [toNat_append_sum]; simp; omega⟩

theorem wsEncM8 (n : BitVec 16) : Statement (.wsEncM8 n) := ⟨_, rfl, by simp only [toNat_append_sum]; simp⟩

theorem wsEncM4 (n : BitVec 16) : Statement (.wsEncM4 n) := ⟨_, rfl, by simp only [toNat_append_sum]; simp; omega⟩

theorem wsEncAuto (n : BitVec 16) : Statement (.wsEncAuto n) := ⟨_, rfl, by simp only [toNat_append_sum]; simp; omega⟩

theorem wsTx : Statement .wsTx := ⟨_, rfl, rfl⟩

theorem wsShowM8 (n : BitVec 16) : Statement (.wsShowM8 n) := ⟨_, rfl, by simp only [toNat_append_sum]; simp⟩

theorem wsShowM4 (n : BitVec 16) : Statement (.wsShowM4 n) := ⟨_, rfl, by simp only [toNat_append_sum]; simp; omega⟩

theorem wsShowAuto (n : BitVec 16) : Statement (.wsShowAuto n) := ⟨_, rfl, by simp only [toNat_append_sum]; simp; omega⟩

theorem pwmZero (ch : BitVec 8) : Statement (.pwmZero ch) := ⟨_, rfl, by simp only [toNat_append_sum]; simp; omega⟩

theorem wsFrame (n : BitVec 16) : Statement (.wsFrame n) := ⟨_, rfl, by simp only [toNat_append_sum]; simp; omega⟩

theorem i2cWr (a : BitVec 7) (r d : Byte) : Statement (.i2cWr a r d) := ⟨_, rfl, by simp [addrByte_toNat]⟩

theorem i2cRd (a : BitVec 7) (r : Byte) : Statement (.i2cRd a r) := ⟨_, rfl, by simp [addrByte_toNat]⟩

theorem i2cGc (d : Byte) : Statement (.i2cGc d) := ⟨_, rfl, by simp⟩

end Sys2Proof.Laws.Encoding
end

