-- ==== Sys2Proof/Laws/Ports.lean ====
section
/-! SUPPORT. How the PWM ports move: each shared operation keeps the form of every port
(Safety.PortForm). -/

namespace Sys2Proof.Machine

open Sys2Proof.Safety

/-- Membership after replacing one element. -/
theorem forall_mem_set {α : Type} {q : α → Prop} {l : List α} {i : Nat} {x : α} (h : ∀ y ∈ l, q y) (hx : q x) :
    ∀ y ∈ l.set i x, q y := by
  intro y hy
  rcases List.mem_or_eq_of_mem_set hy with hy | rfl
  · exact h y hy
  · exact hx

theorem mem_of_get {α : Type} {l : List α} {i : Nat} {x : α} (h : l[i]? = some x) : x ∈ l :=
  List.mem_of_getElem? h

/-- A larger issue counter does no harm. -/
theorem portForm_mono {cfg : Params} {n m : Nat} {P : PwmPort} (h : PortForm cfg n P) (hnm : n ≤ m) :
    PortForm cfg m P := by
  obtain ⟨h1, h2, h3, h4⟩ := h
  refine ⟨h1, h2, h3, fun hb => ?_⟩
  obtain ⟨c, k, ho, hv, hs, hk, hlt, hrest⟩ := h4 hb
  exact ⟨c, k, ho, hv, hs, hk, by omega, hrest⟩

/-! ### The stamps of busy ports -/

/-- Replacing a port keeps the stamps apart, if the new contents are idle or hold the stamp of a busy port. -/
theorem stampsDiffer_set {l : List PwmPort} (h : StampsDiffer l) {p : Nat} {P P' : PwmPort} (hP : l[p]? = some P)
    (hs : P'.status.busy = true → P.status.busy = true ∧ P'.stamp = P.stamp) : StampsDiffer (l.set p P') := by
  have hset : ∀ {q : Nat} {Q : PwmPort}, (l.set p P')[q]? = some Q → Q.status.busy = true →
      ∃ Q0, l[q]? = some Q0 ∧ Q0.status.busy = true ∧ Q.stamp = Q0.stamp := by
    intro q Q hQ hb
    by_cases hpq : p = q
    · subst hpq
      rw [getElem?_set_of_some hP] at hQ
      cases hQ
      exact ⟨P, hP, (hs hb).1, (hs hb).2⟩
    · rw [List.getElem?_set_ne hpq] at hQ
      exact ⟨Q, hQ, hb, rfl⟩
  intro a b A B hab hA hB hAb hBb
  obtain ⟨A0, hA0, hA1, hA2⟩ := hset hA hAb
  obtain ⟨B0, hB0, hB1, hB2⟩ := hset hB hBb
  rw [hA2, hB2]
  exact h a b A0 B0 hab hA0 hB0 hA1 hB1

/-- A stamp above all others keeps the stamps apart (10_state.md R39). -/
theorem stampsDiffer_new {l : List PwmPort} (h : StampsDiffer l) {p n : Nat} {P' : PwmPort} (hn : P'.stamp = some n)
    (hlt : ∀ Q ∈ l, Q.status.busy = true → ∃ k, Q.stamp = some k ∧ k < n) : StampsDiffer (l.set p P') := by
  have hother : ∀ {q : Nat} {Q : PwmPort}, p ≠ q → (l.set p P')[q]? = some Q → Q.status.busy = true → Q.stamp ≠ some n := by
    intro q Q hpq hQ hb
    rw [List.getElem?_set_ne hpq] at hQ
    obtain ⟨k, hk, hkn⟩ := hlt Q (mem_of_get hQ) hb
    rw [hk]
    simp only [ne_eq, Option.some.injEq]
    omega
  have hself : ∀ {Q : PwmPort}, (l.set p P')[p]? = some Q → Q.stamp = some n := by
    intro Q hQ
    rw [List.getElem?_set_self' ] at hQ
    obtain ⟨-, -, rfl⟩ := Option.map_eq_some_iff.1 hQ
    exact hn
  intro a b A B hab hA hB hAb hBb
  by_cases ha : p = a
  · subst ha
    rw [hself hA]
    exact (hother hab hB hBb).symm
  · by_cases hb : p = b
    · subst hb
      rw [hself hB]
      exact hother (Ne.symm hab) hA hAb
    · rw [List.getElem?_set_ne ha] at hA
      rw [List.getElem?_set_ne hb] at hB
      exact h a b A B hab hA hB hAb hBb

/-! ### The form of the ports -/

/-- Replacing a port by contents in form, idle or with the stamp it had, keeps the form of the ports. -/
theorem portsForm_set {s : State} (h : PortsForm s) {p : Nat} {P P' : PwmPort} (hP : s.unitP.ports[p]? = some P)
    (hform : PortForm s.cfg s.unitP.issueCtr P')
    (hs : P'.status.busy = true → P.status.busy = true ∧ P'.stamp = P.stamp) : PortsForm (setPort p P' s) :=
  ⟨forall_mem_set h.1 hform, stampsDiffer_set h.2 hP hs⟩

/-- Completion leaves an idle port without a sequence (R191). -/
theorem portForm_completed {cfg : Params} {n : Nat} {P : PwmPort} (h : PortForm cfg n P) {code : ErrCode}
    {step : Byte} (hc : code ≠ .busError → step = 0) (hk : P.stuck = false) :
    PortForm cfg n { P with status := Status.completed code step, seq := [] } :=
  ⟨hc, h.2.1, fun _ => ⟨rfl, hk⟩, fun hb => by simp [Status.completed] at hb⟩

theorem portsForm_completePwm {s : State} (h : PortsForm s) (p : Nat) {code : ErrCode} {step : Byte}
    (hc : code ≠ .busError → step = 0) (hk : ∀ P, s.unitP.ports[p]? = some P → P.stuck = false) :
    PortsForm (completePwm p code step s) := by
  cases hP : s.unitP.ports[p]? with
  | none => simpa [completePwm, hP] using h
  | some P =>
    rw [completePwm_some hP]
    exact portsForm_set h hP (portForm_completed (h.1 P (mem_of_get hP)) hc (hk P hP))
      fun hb => by simp [Status.completed] at hb

/-- Every sequence has at least one micro-op and at most five (10_state.md R32). -/
theorem commandSeq_length (cfg : Params) (c : PwmCmd) :
    0 < (commandSeq cfg c).length ∧ (commandSeq cfg c).length ≤ 5 := by
  cases c <;> simp [commandSeq]

theorem portForm_accepted {cfg : Params} {n : Nat} {P : PwmPort} (h : PortForm cfg n P) {c : PwmCmd}
    (hc : validate c = none) : PortForm cfg (n + 1) (acceptedPort cfg c n P) := by
  refine ⟨h.1, by simp [acceptedPort], fun hb => by simp [acceptedPort, Status.active] at hb, fun _ => ?_⟩
  exact ⟨c, n, rfl, hc, rfl, rfl, by omega, (commandSeq_length cfg c).1, by simp [acceptedPort]⟩

theorem acceptedPort_stamp (cfg : Params) (c : PwmCmd) (n : Nat) (P : PwmPort) :
    (acceptedPort cfg c n P).stamp = some n := rfl

theorem acceptPwm_ports (p : Nat) (P : PwmPort) (c : PwmCmd) (s : State) :
    (acceptPwm p P c s).unitP.ports = s.unitP.ports.set p (acceptedPort s.cfg c s.unitP.issueCtr P)
      ∧ (acceptPwm p P c s).unitP.issueCtr = s.unitP.issueCtr + 1 ∧ (acceptPwm p P c s).cfg = s.cfg := by
  unfold acceptPwm
  dsimp only
  cases c <;> split <;> simp [issueEffect]

theorem portsForm_acceptPwm {s : State} (h : PortsForm s) {p : Nat} {P : PwmPort} (hP : s.unitP.ports[p]? = some P)
    {c : PwmCmd} (hc : validate c = none) : PortsForm (acceptPwm p P c s) := by
  obtain ⟨e1, e2, e3⟩ := acceptPwm_ports p P c s
  unfold PortsForm
  rw [e1, e2, e3]
  refine ⟨forall_mem_set (fun Q hQ => portForm_mono (h.1 Q hQ) (by omega))
    (portForm_accepted (h.1 P (mem_of_get hP)) hc), stampsDiffer_new h.2 (acceptedPort_stamp _ _ _ _) ?_⟩
  intro Q hQ hb
  obtain ⟨-, k, -, -, -, hk, hlt, -⟩ := (h.1 Q hQ).2.2.2 hb
  exact ⟨k, hk, hlt⟩

/-- The outcome of a micro-op keeps the form of the ports, if a read that is done brings its byte (R192). -/
theorem portsForm_settle {s : State} (h : PortsForm s) (p : Nat) (r : TxReturn)
    (hr : ∀ P, s.unitP.ports[p]? = some P → ∀ reg, P.seq[P.upc.toNat]? = some (.rd reg) → ∀ data,
      r = .ok data → data ≠ none) : PortsForm (settle p r s) := by
  unfold settle
  split
  · exact h
  · rename_i P hP
    dsimp only
    have hPf := h.1 P (mem_of_get hP)
    split
    · rename_i hpend
      simp only [PwmPort.pending, Bool.and_eq_true, decide_eq_true_eq, Bool.not_eq_true'] at hpend
      obtain ⟨⟨hbusy, hmore0⟩, hstuck⟩ := hpend
      obtain ⟨c, k, ho, hv, hs, hk, hkn, hlt, htmp⟩ := hPf.2.2.2 hbusy
      have hle := (commandSeq_length s.cfg c).2
      rw [← hs] at hle
      have hupc : (P.upc + 1).toNat = P.upc.toNat + 1 := by
        rw [BitVec.toNat_add]; simp; omega
      split
      · rename_i data
        have hdone : ∀ j < P.upc.toNat + 1, ∀ reg, P.seq[j]? = some (.rd reg) → data.or P.tmp ≠ none := by
          intro j hj reg hreg
          rcases Nat.lt_succ_iff_lt_or_eq.1 hj with hj | rfl
          · have := htmp j hj reg hreg
            cases data <;> simp_all
          · have := hr P hP reg hreg data rfl
            cases data <;> simp_all
        split
        · rename_i hlast
          have hget : (setPort p { P with upc := P.upc + 1, tmp := data.or P.tmp } s).unitP.ports[p]? =
              some { P with upc := P.upc + 1, tmp := data.or P.tmp } := by
            exact getElem?_set_of_some hP
          rw [completePwm_some hget]
          have := portsForm_set h hP
            (P' := { P with upc := P.upc + 1, tmp := data.or P.tmp, status := Status.completed .ok 0, seq := [] })
            ⟨fun _ => rfl, by simp only [hupc]; omega, fun _ => ⟨rfl, hstuck⟩, fun hb => by simp [Status.completed] at hb⟩
            fun hb => by simp [Status.completed] at hb
          simpa [PortsForm, List.set_set] using this
        · rename_i hmore
          refine portsForm_set h hP ⟨hPf.1, by simp only [hupc]; omega, fun hb => ?_, fun _ => ?_⟩ fun hb => ⟨hb, rfl⟩
          · exact absurd hb (by simp [hbusy])
          · exact ⟨c, k, ho, hv, hs, hk, hkn, by simp only [hupc]; omega, by simpa only [hupc] using hdone⟩
      · exact portsForm_completePwm h p (by simp) fun P' hP' => by rw [hP] at hP'; cases hP'; exact hstuck
      · exact h
      · exact portsForm_set h hP ⟨hPf.1, hPf.2.1, fun hb => absurd hb (by simp [hbusy]), fun _ => hPf.2.2.2 hbusy⟩
          fun hb => ⟨hb, rfl⟩
      · exact h
    · exact h

end Sys2Proof.Machine
end

