-- ==== Sys2Proof/Laws/Runs.lean ====
section
/-! SUPPORT. Runs (spec/70_reset_and_hazards.md R405, R415) and the machine's step: what follows from their
definitions, said once. -/

namespace Sys2Proof.Machine

open Sys2Proof.Safety

/-- A step of the machine is a step of the picked agent with some choices of the environment. -/
theorem step_eq_agentStep (s : State) : step s = agentStep (pickAgent s) { s with env := (afterPick s).env } := by
  unfold step afterPick
  split <;> rfl

/-- The machine's steps make runs, as long as they are enabled (41_pwm_commands.md R230). -/
theorem reaches_step {s t u : State} (h : Reaches s t)
    (he : Enabled (pickAgent t) { t with env := (afterPick t).env }) (hs : step t = .next u) : Reaches s u :=
  .next t u (pickAgent t) (afterPick t).env h he (by rw [← step_eq_agentStep]; exact hs)

/-- Runs compose. -/
theorem reaches_trans {s t u : State} (h : Reaches s t) (h' : Reaches t u) : Reaches s u := by
  induction h' with
  | start => exact h
  | next t u a env _ he hs ih => exact .next t u a env ih he hs

/-- An invariant of every agent's step holds all along a run. -/
theorem reaches_invariant {inv : State → Prop} (hstep : ∀ (t u : State) (a : Agent) (env : Env), inv t →
    agentStep a { t with env := env } = .next u → inv u) {s t : State} (h : Reaches s t) (hs : inv s) : inv t := by
  induction h with
  | start => exact hs
  | next t u a env _ _ ha ih => exact hstep t u a env ih ha

/-- An end is final or stuck, and not both (R415). -/
theorem ended_cases {s : State} (h : Ended s) : Final s ∨ Stuck s := by
  by_cases hc : Completed s
  · exact .inl ⟨h, hc⟩
  · exact .inr ⟨h, hc⟩

theorem not_final_and_stuck (s : State) : ¬(Final s ∧ Stuck s) := fun h => h.2.2 h.1.2

end Sys2Proof.Machine
end

