-- ==== Sys2Proof/Laws/Units.lean ====
section
/-! SUPPORT. How the W units move: each operation on a unit keeps its queue and its buffers in form
(Safety.QueueForm, Safety.BufferForm). -/

namespace Sys2Proof.Machine

open Sys2Proof.Safety

/-! ### The queue -/

/-- A port that is idle is not queued (10_state.md R54). -/
theorem idle_not_queued {u : WUnit} (h : QueueForm u) {q : Nat} {P : WPort} (hP : u.ports[q]? = some P)
    (hidle : P.status.busy = false) : ∀ e ∈ u.queue, e.1 ≠ q := by
  rintro e he rfl
  obtain ⟨P', hP', hb, -⟩ := h.2.1 e he
  rw [hP] at hP'; cases hP'
  simp [hidle] at hb

/-- Dropping a port that is not queued changes nothing. -/
theorem dropQueued_none {q : Nat} {l : List (Nat × WsCmd)} (h : ∀ e ∈ l, e.1 ≠ q) : dropQueued q l = l := by
  unfold dropQueued
  exact List.eraseP_of_forall_not fun e he => by simp [h e he]

/-- Dropping the port at the head leaves the tail. -/
theorem dropQueued_head (q : Nat) (c : WsCmd) (l : List (Nat × WsCmd)) : dropQueued q ((q, c) :: l) = l := by
  simp [dropQueued]

theorem completeUnit_some {q : Nat} {P : WPort} {u : WUnit} (h : u.ports[q]? = some P) (code : ErrCode)
    (step : Byte) :
    completeUnit q code step u =
      { u with
        ports := u.ports.set q { P with status := Status.completed code step }
        queue := dropQueued q u.queue } := by
  simp only [completeUnit, h]

theorem getElem?_set_ne {α : Type} {l : List α} {i j : Nat} {x : α} (h : i ≠ j) : (l.set i x)[j]? = l[j]? :=
  List.getElem?_set_ne h

/-- The ports and the queue of a unit are all the queue's form depends on, with the buffer size. -/
theorem queueForm_congr {u u' : WUnit} (h : QueueForm u) (hp : u'.ports = u.ports) (hq : u'.queue = u.queue)
    (hc : u'.conf = u.conf) : QueueForm u' := by
  unfold QueueForm
  rw [hp, hq, hc]
  exact h

/-- Rejecting a command at an idle port keeps the queue's form. -/
theorem queueForm_rejected {u : WUnit} (h : QueueForm u) {q : Nat} {P : WPort} (hP : u.ports[q]? = some P)
    (hidle : P.status.busy = false) (code : ErrCode) : QueueForm (completeUnit q code 0 u) := by
  have hne := idle_not_queued h hP hidle
  rw [completeUnit_some hP, dropQueued_none hne]
  refine ⟨h.1, fun e he => ?_, fun q' P' hP' hb => ?_, fun e he P' hP' => ?_⟩
  · rw [getElem?_set_ne (Ne.symm (hne e he))]; exact h.2.1 e he
  · by_cases hq : q = q'
    · subst hq
      rw [List.getElem?_set_self (List.getElem?_eq_some_iff.1 hP).1] at hP'
      cases hP'; simp [Status.completed] at hb
    · rw [getElem?_set_ne hq] at hP'; exact h.2.2.1 q' P' hP' hb
  · rw [getElem?_set_ne (Ne.symm (hne e (List.mem_of_mem_tail he)))] at hP'
    exact h.2.2.2 e he P' hP'

/-- Every W command has at least one step and at most four (42_ws2812_encoder.md R259). -/
theorem wsSteps_length (c : WsCmd) : 0 < (wsSteps c).length ∧ (wsSteps c).length ≤ 4 := by
  cases c <;> simp [wsSteps]

/-- Accepting a command at an idle port keeps the queue's form. -/
theorem queueForm_accepted {u : WUnit} (h : QueueForm u) {q : Nat} {P : WPort} (hP : u.ports[q]? = some P)
    (hidle : P.status.busy = false) {c : WsCmd} (hc : c.count ≤ ibufSize u.conf) : QueueForm (acceptWs q P c u) := by
  have hne := idle_not_queued h hP hidle
  have hlen := (List.getElem?_eq_some_iff.1 hP).1
  refine ⟨?_, fun e he => ?_, fun q' P' hP' hb => ?_, fun e he P' hP' => ?_⟩
  · simp only [acceptWs, List.map_append, List.map_cons, List.map_nil]
    rw [List.nodup_append]
    refine ⟨h.1, by simp, fun a ha b hb => ?_⟩
    obtain ⟨e, he, rfl⟩ := List.mem_map.1 ha
    rw [List.mem_singleton.1 hb]
    exact hne e he
  · simp only [acceptWs, List.mem_append, List.mem_singleton] at he ⊢
    rcases he with he | rfl
    · rw [getElem?_set_ne (Ne.symm (hne e he))]; exact h.2.1 e he
    · exact ⟨_, List.getElem?_set_self hlen, rfl, (wsSteps_length c).1, hc⟩
  · simp only [acceptWs] at hP' ⊢
    by_cases hq : q = q'
    · subst hq; exact ⟨c, by simp⟩
    · rw [getElem?_set_ne hq] at hP'
      obtain ⟨c', hc'⟩ := h.2.2.1 q' P' hP' hb
      exact ⟨c', by simp [hc']⟩
  · simp only [acceptWs] at he hP'
    by_cases hq : q = e.1
    · subst hq
      rw [List.getElem?_set_self hlen] at hP'
      cases hP'; rfl
    · rw [getElem?_set_ne hq] at hP'
      cases hl : u.queue with
      | nil => simp [hl] at he
      | cons a rest =>
        rw [hl, List.cons_append, List.tail_cons, List.mem_append, List.mem_singleton] at he
        rcases he with he | rfl
        · exact h.2.2.2 e (by rw [hl]; exact he) P' hP'
        · exact absurd rfl hq

/-- Taking the head command off the queue and its port to idle contents keeps the queue's form. -/
theorem queueForm_dropHead {u : WUnit} (h : QueueForm u) {q : Nat} {P : WPort} {c : WsCmd}
    {rest : List (Nat × WsCmd)} (hq : u.queue = (q, c) :: rest) (hP : u.ports[q]? = some P) {P' : WPort}
    (hidle : P'.status.busy = false) : QueueForm { u with ports := u.ports.set q P', queue := rest } := by
  obtain ⟨h1, h2, h3, h4⟩ := h
  rw [hq, List.map_cons, List.nodup_cons] at h1
  have hne : ∀ e ∈ rest, q ≠ e.1 := fun e he heq => h1.1 (List.mem_map.2 ⟨e, he, heq.symm⟩)
  refine ⟨h1.2, fun e he => ?_, fun q' P' hP' hb => ?_, fun e he P' hP' => ?_⟩
  · rw [getElem?_set_ne (hne e he)]; exact h2 e (by rw [hq]; simp [he])
  · by_cases hqq : q = q'
    · subst hqq
      rw [List.getElem?_set_self (List.getElem?_eq_some_iff.1 hP).1] at hP'
      cases hP'; simp [hidle] at hb
    · rw [getElem?_set_ne hqq] at hP'
      obtain ⟨c', hc'⟩ := h3 q' P' hP' hb
      rw [hq, List.mem_cons] at hc'
      rcases hc' with hc' | hc'
      · exact absurd (congrArg Prod.fst hc').symm hqq
      · exact ⟨c', hc'⟩
  · have he' := List.mem_of_mem_tail he
    rw [getElem?_set_ne (hne e he')] at hP'
    exact h4 e (by rw [hq]; exact he') P' hP'

/-- Completing the head command keeps the queue's form. -/
theorem queueForm_completed {u : WUnit} (h : QueueForm u) {q : Nat} {P : WPort} {c : WsCmd}
    {rest : List (Nat × WsCmd)} (hq : u.queue = (q, c) :: rest) (hP : u.ports[q]? = some P) (code : ErrCode)
    (step : Byte) : QueueForm (completeUnit q code step u) := by
  rw [completeUnit_some hP, hq, dropQueued_head]
  exact queueForm_dropHead h hq hP rfl

/-- The last step of the head command: its port has counted the step, and the command is gone (R32, R263). -/
theorem completeUnit_bumpStep {u : WUnit} {q : Nat} {P : WPort} {c : WsCmd} {rest : List (Nat × WsCmd)}
    (hq : u.queue = (q, c) :: rest) (hP : u.ports[q]? = some P) (code : ErrCode) (step : Byte) :
    completeUnit q code step (bumpStep q P u) =
      { u with
        ports := u.ports.set q { P with status := Status.completed code step, upc := P.upc + 1 }
        queue := rest } := by
  have hget : (bumpStep q P u).ports[q]? = some { P with upc := P.upc + 1 } :=
    List.getElem?_set_self (List.getElem?_eq_some_iff.1 hP).1
  rw [completeUnit_some hget]
  simp [bumpStep, setWPort, hq, dropQueued_head, List.set_set]

/-- A step of the head command that is not its last keeps the queue's form. -/
theorem queueForm_bumped {u : WUnit} (h : QueueForm u) {q : Nat} {P : WPort} {c : WsCmd}
    {rest : List (Nat × WsCmd)} (hq : u.queue = (q, c) :: rest) (hP : u.ports[q]? = some P)
    (hmore : P.upc.toNat + 1 < (wsSteps c).length) : QueueForm (bumpStep q P u) := by
  obtain ⟨h1, h2, h3, h4⟩ := h
  have hlen := (List.getElem?_eq_some_iff.1 hP).1
  have hhead := h2 (q, c) (by rw [hq]; simp)
  rw [hP] at hhead
  obtain ⟨P0, hP0, hb0, -, hc0⟩ := hhead
  cases hP0
  have h1' := h1
  rw [hq, List.map_cons, List.nodup_cons] at h1'
  have hne : ∀ e ∈ rest, q ≠ e.1 := fun e he heq => h1'.1 (List.mem_map.2 ⟨e, he, heq.symm⟩)
  have hupc : (P.upc + 1).toNat = P.upc.toNat + 1 := by
    have := (wsSteps_length c).2
    rw [BitVec.toNat_add]; simp; omega
  simp only [bumpStep, setWPort]
  refine ⟨h1, fun e he => ?_, fun q' P' hP' hb => ?_, fun e he P' hP' => ?_⟩
  · dsimp only at he ⊢
    rw [hq, List.mem_cons] at he
    rcases he with rfl | he
    · exact ⟨_, List.getElem?_set_self hlen, hb0, by rw [hupc]; exact hmore, hc0⟩
    · rw [getElem?_set_ne (hne e he)]; exact h2 e (by rw [hq]; simp [he])
  · by_cases hqq : q = q'
    · subst hqq; exact ⟨c, by simp [hq]⟩
    · rw [getElem?_set_ne hqq] at hP'; exact h3 q' P' hP' hb
  · dsimp only at he
    rw [hq, List.tail_cons] at he
    rw [getElem?_set_ne (hne e he)] at hP'
    exact h4 e (by rw [hq]; exact he) P' hP'

/-! ### The buffers -/

/-- The form of a unit's buffers depends on neither its ports nor its queue. -/
theorem bufferForm_congr {u u' : WUnit} (h : BufferForm u) (h1 : u'.conf = u.conf) (h2 : u'.ibuf = u.ibuf)
    (h3 : u'.obuf = u.obuf) (h4 : u'.olen = u.olen) (h5 : u'.div = u.div) (h6 : u'.spiHung = u.spiHung)
    (h7 : u'.txState = u.txState) : BufferForm u' := by
  unfold BufferForm
  rw [h1, h2, h3, h4, h5, h6, h7]
  exact h

theorem bufferForm_completeUnit {u : WUnit} (h : BufferForm u) (q : Nat) (code : ErrCode) (step : Byte) :
    BufferForm (completeUnit q code step u) := by
  unfold completeUnit
  split
  · exact h
  · exact bufferForm_congr h rfl rfl rfl rfl rfl rfl rfl

/-- The output bytes of one byte: eight or four (42_ws2812_encoder.md R251). -/
theorem symbols_length (m : Packing) (b : Byte) : (symbols m b).length = bitsPerSymbol m := by
  cases m <;> simp [symbols, bitsPerSymbol]

/-- The output length: `8 n` or `4 n` (R251). -/
theorem encodeBytes_length (m : Packing) (bytes : List Byte) :
    (encodeBytes m bytes).length = bitsPerSymbol m * bytes.length := by
  induction bytes with
  | nil => simp [encodeBytes]
  | cons b bs ih =>
    simp only [encodeBytes, List.flatMap_cons, List.length_append, symbols_length, List.length_cons] at ih ⊢
    rw [ih, Nat.mul_succ]; omega

theorem bitsPerSymbol_le (m : Packing) : bitsPerSymbol m ≤ 8 := by cases m <;> decide

/-- An encode of bytes that fit keeps the buffers' form. -/
theorem bufferForm_encodeInto {u : WUnit} (h : BufferForm u) (hwf : Memory.wf unwritten u.obuf) (m : Packing)
    {bytes : List Byte} (hfit : bytes.length ≤ ibufSize u.conf) : BufferForm (encodeInto m bytes u) := by
  obtain ⟨h1, h2, -, -, h5, h6⟩ := h
  have hlen : (encodeBytes m bytes).length ≤ 8 * ibufSize u.conf := by
    rw [encodeBytes_length]; exact Nat.mul_le_mul (bitsPerSymbol_le m) hfit
  refine ⟨h1, fun c hc => ?_, hlen, fun i hi => ?_, h5, h6⟩
  · rcases Memory.writeBytes_keys hc with hc | hc
    · exact h2 c hc
    · show c.1 < 8 * ibufSize u.conf; omega
  · have := Memory.read_writeBytes_inside hwf (a := 0) hi
    rw [Nat.zero_add] at this
    show Memory.read unwritten (Memory.writeBytes unwritten u.obuf 0 (encodeBytes m bytes)) i ≠ none
    rw [this, List.getElem?_eq_getElem hi]
    exact Option.some_ne_none _

/-- The divider is at most `DIV_MAX` (42_ws2812_encoder.md R256). -/
theorem divider_le (c : StripConfig) (m : Packing) : divider c m ≤ c.divMax := Nat.min_le_right _ _

theorem bufferForm_synth {u : WUnit} (h : BufferForm u) : BufferForm (synth u) :=
  ⟨h.1, h.2.1, h.2.2.1, h.2.2.2.1, divider_le _ _, h.2.2.2.2.2⟩

/-! ### One unit, whole -/

/-- The form of one W unit. -/
abbrev UnitForm (u : WUnit) : Prop := QueueForm u ∧ BufferForm u ∧ ∀ P ∈ u.ports, WPortForm P

theorem wports_completeUnit {u : WUnit} (h : ∀ P ∈ u.ports, WPortForm P) (q : Nat) {code : ErrCode}
    {step : Byte} (hc : code ≠ .busError → step = 0) : ∀ P ∈ (completeUnit q code step u).ports, WPortForm P := by
  unfold completeUnit
  split
  · exact h
  · rename_i P hP
    exact forall_mem_set h ⟨hc, (h P (mem_of_get hP)).2⟩

/-- A port that counts a step of a command is not past the longest command (10_state.md R32). -/
theorem upc_succ_le {P : WPort} {c : WsCmd} (h : P.upc.toNat < (wsSteps c).length) : (P.upc + 1).toNat ≤ 4 := by
  have := (wsSteps_length c).2
  rw [BitVec.toNat_add]; simp; omega

theorem unitForm_rejected {u : WUnit} (h : UnitForm u) {q : Nat} {P : WPort} (hP : u.ports[q]? = some P)
    (hidle : P.status.busy = false) (code : ErrCode) : UnitForm (completeUnit q code 0 u) :=
  ⟨queueForm_rejected h.1 hP hidle code, bufferForm_completeUnit h.2.1 _ _ _,
    wports_completeUnit h.2.2 _ fun _ => rfl⟩

theorem unitForm_accepted {u : WUnit} (h : UnitForm u) {q : Nat} {P : WPort} (hP : u.ports[q]? = some P)
    (hidle : P.status.busy = false) {c : WsCmd} (hc : c.count ≤ ibufSize u.conf) : UnitForm (acceptWs q P c u) :=
  ⟨queueForm_accepted h.1 hP hidle hc, bufferForm_congr h.2.1 rfl rfl rfl rfl rfl rfl rfl,
    forall_mem_set h.2.2 ⟨(h.2.2 P (mem_of_get hP)).1, by simp⟩⟩

theorem unitForm_completed {u : WUnit} (h : UnitForm u) {q : Nat} {P : WPort} {c : WsCmd}
    {rest : List (Nat × WsCmd)} (hq : u.queue = (q, c) :: rest) (hP : u.ports[q]? = some P) {code : ErrCode}
    {step : Byte} (hc : code ≠ .busError → step = 0) : UnitForm (completeUnit q code step u) :=
  ⟨queueForm_completed h.1 hq hP code step, bufferForm_completeUnit h.2.1 _ _ _, wports_completeUnit h.2.2 _ hc⟩

/-- The last step of the head command keeps the unit's form. -/
theorem unitForm_finished {u : WUnit} (h : UnitForm u) {q : Nat} {P : WPort} {c : WsCmd}
    {rest : List (Nat × WsCmd)} (hq : u.queue = (q, c) :: rest) (hP : u.ports[q]? = some P)
    (hlt : P.upc.toNat < (wsSteps c).length) : UnitForm (completeUnit q .ok 0 (bumpStep q P u)) := by
  rw [completeUnit_bumpStep hq hP]
  exact ⟨queueForm_dropHead h.1 hq hP rfl, bufferForm_congr h.2.1 rfl rfl rfl rfl rfl rfl rfl,
    forall_mem_set h.2.2 ⟨fun _ => rfl, upc_succ_le hlt⟩⟩

theorem unitForm_bumped {u : WUnit} (h : UnitForm u) {q : Nat} {P : WPort} {c : WsCmd}
    {rest : List (Nat × WsCmd)} (hq : u.queue = (q, c) :: rest) (hP : u.ports[q]? = some P)
    (hmore : P.upc.toNat + 1 < (wsSteps c).length) : UnitForm (bumpStep q P u) :=
  ⟨queueForm_bumped h.1 hq hP hmore, bufferForm_congr h.2.1 rfl rfl rfl rfl rfl rfl rfl,
    forall_mem_set h.2.2 ⟨(h.2.2 P (mem_of_get hP)).1, upc_succ_le (c := c) (by omega)⟩⟩

/-- A step of the list that is no `LATCH` is not the last of its command, `ws.enc` apart (R259). -/
theorem wsSteps_more {c : WsCmd} {k : Nat} {st : WStep} (h : (wsSteps c)[k]? = some st) (hl : st ≠ .latch)
    (h1 : (wsSteps c).length ≠ 1) : k + 1 < (wsSteps c).length := by
  have hk := (List.getElem?_eq_some_iff.1 h).1
  by_contra hge
  have he : k = (wsSteps c).length - 1 := by omega
  subst he
  cases c <;> simp [wsSteps] at h h1
  · exact hl h.symm
  · exact hl h.symm

/-! ### The step of a unit -/

/-- What the step of W unit `i` leaves alone: everything but the strip, the free values' count and the draws;
only `UNWRITTEN_READ` may be marked. -/
structure UnitFrame (i : Nat) (s t : State) : Prop where
  cfg : t.cfg = s.cfg
  unitP : t.unitP = s.unitP
  slave : t.slave = s.slave
  others : ∀ j, j ≠ i → t.strips[j]? = s.strips[j]?
  refused : t.refused = s.refused
  busLog : t.busLog = s.busLog
  host : t.host = s.host
  frames : t.frames = s.frames
  sel : t.sel = s.sel
  faults : s.faults <+: t.faults

theorem unitFrame_refl (i : Nat) (s : State) : UnitFrame i s s :=
  ⟨rfl, rfl, rfl, fun _ _ => rfl, rfl, rfl, rfl, rfl, rfl, List.prefix_refl _⟩

theorem unitFrame_set (i : Nat) (u : WUnit) (s : State) : UnitFrame i s (setStrip i u s) :=
  ⟨rfl, rfl, rfl, fun _ hj => List.getElem?_set_ne (Ne.symm hj), rfl, rfl, rfl, rfl, rfl, List.prefix_refl _⟩

/-- The frame of a W unit's step (10_state.md R30, 42_ws2812_encoder.md R262). -/
theorem unitStep_frame (i : Nat) (s : State) : UnitFrame i s (unitStep i s) := by
  unfold unitStep
  split
  · exact unitFrame_refl i s
  · split
    · exact unitFrame_refl i s
    · split
      · exact unitFrame_refl i s
      · split
        · exact unitFrame_refl i s
        · unfold headStep
          split
          · exact unitFrame_set i _ s
          · split
            · exact unitFrame_refl i s
            · unfold encStep
              split
              · refine ⟨rfl, rfl, rfl, fun _ hj => List.getElem?_set_ne (Ne.symm hj), rfl, rfl, rfl, rfl, rfl, ?_⟩
                exact prefix_addMark _ _
              · exact unitFrame_set i _ s
            · exact unitFrame_set i _ s
            · unfold xferStep
              constructor <;> try simp
              intro j hj
              exact List.getElem?_set_ne (Ne.symm hj)
            · exact unitFrame_set i _ s

/-! ### The encoder's bytes -/

/-- An element of a concatenation of lists of one length. -/
theorem getElem?_flatMap {α β : Type} (f : α → List β) (w : Nat) (hw : ∀ a, (f a).length = w) (l : List α) (j k : Nat)
    (a : α) (hj : l[j]? = some a) (hk : k < w) : (l.flatMap f)[w * j + k]? = (f a)[k]? := by
  induction l generalizing j with
  | nil => simp at hj
  | cons x xs ih =>
    rw [List.flatMap_cons]
    cases j with
    | zero =>
      simp at hj; subst hj
      rw [List.getElem?_append_left (by rw [hw]; omega)]; simp
    | succ j =>
      simp at hj
      rw [List.getElem?_append_right (by rw [hw, Nat.mul_succ]; omega), hw]
      rw [← ih j hj]; congr 1; rw [Nat.mul_succ]; omega

/-- Two 4-bit symbols as a byte (30_encoding.md R121). -/
theorem nib_pair : ∀ a b : Bool,
    (nib a ++ nib b : Byte) = BitVec.ofNat 8 (16 * (if a then 0xE else 0x8) + if b then 0xE else 0x8) := by decide

/-- The inverse tables on a concatenation (30_encoding.md R122). -/
theorem unsymbols_append (m : Packing) (xs ys : List Byte) :
    unsymbols m (xs ++ ys) = (unsymbols m xs).bind fun a => (unsymbols m ys).map fun b => a ++ b := by
  induction xs with
  | nil => simp [unsymbols]
  | cons x xs ih =>
    simp only [List.cons_append, unsymbols, ih]
    cases m <;> dsimp only
    · cases unsym8 x <;> cases unsymbols .m8 xs <;> cases unsymbols .m8 ys <;> simp
    · cases unsym4 x <;> cases unsymbols .m4 xs <;> cases unsymbols .m4 ys <;> simp

/-! ### What a unit's step never takes back -/

/-- How a unit may move: its configuration and its number of ports stay, its trace grows, a hung bus stays hung, a
stopped unit stays stopped, and its memories keep their form. -/
structure UnitMoves (u v : WUnit) : Prop where
  conf : v.conf = u.conf
  ports : v.ports.length = u.ports.length
  trace : u.trace <+: v.trace
  hung : u.spiHung = true → v.spiHung = true
  stopped : u.stopped = true → v.stopped = true
  mem : Memory.wf unwritten u.ibuf ∧ Memory.wf unwritten u.obuf →
    Memory.wf unwritten v.ibuf ∧ Memory.wf unwritten v.obuf

theorem UnitMoves.refl (u : WUnit) : UnitMoves u u := ⟨rfl, rfl, List.prefix_refl _, id, id, id⟩

theorem UnitMoves.trans {u v w : WUnit} (h : UnitMoves u v) (h' : UnitMoves v w) : UnitMoves u w :=
  ⟨h'.conf.trans h.conf, h'.ports.trans h.ports, h.trace.trans h'.trace, fun x => h'.hung (h.hung x),
    fun x => h'.stopped (h.stopped x), fun x => h'.mem (h.mem x)⟩

theorem unitMoves_completeUnit (q : Nat) (code : ErrCode) (step : Byte) (u : WUnit) :
    UnitMoves u (completeUnit q code step u) := by
  unfold completeUnit
  split
  · exact UnitMoves.refl u
  · exact ⟨rfl, by simp, List.prefix_refl _, id, id, id⟩

theorem unitMoves_bumpStep (q : Nat) (P : WPort) (u : WUnit) : UnitMoves u (bumpStep q P u) :=
  ⟨rfl, by simp [bumpStep, setWPort], List.prefix_refl _, id, id, id⟩

end Sys2Proof.Machine
end

