-- ==== Sys2Proof/Tests/Slice0.lean ====
section
/-! SUPPORT. Tests of single steps and decodings against values of spec/95_test_vectors.md and spec/30_encoding.md R126,
and a witness for the hypotheses of every statement. -/

namespace Sys2Proof.Tests

open Sys2Proof.Machine Sys2Proof.Safety

/-! ### Small states -/

/-- The standard platform with a second PWM port, a second pixel and a second W port. -/
def platform : Config :=
  { params :=
      { Config.standard.params with
        encAutoThreshold := 64
        portBase := [(.pwm 0, 0x40), (.pwm 1, 0x4C), (.ws 0 0, 0x58), (.ws 0 1, 0x60)] }
    nPwmPorts := 2
    strips :=
      [({ pixelCount := 2, clockHz := 800000, fRef := 250000000, divMax := 255, brightness := 128
          channelOrder := .grb, busId := 0, deviceId := 0 }, 2)] }

/-- The platform after reset. -/
def fresh : State := State.resetOf platform

/-- The strip of the platform. -/
def strip : WUnit := WUnit.reset (platform.strips.map (·.1)).head! 2

/-- The state an outcome gives. -/
def after (o : Host.Outcome State Fault Refusal) : State :=
  match o with
  | .next t => t
  | .fault _ => State.reset
  | .refused _ => State.reset

/-- Run for this port, with these draws to come. -/
def forPort (π : PortSel) (draws : List Draw) (s : State) : State :=
  { s with sel := π, env := { s.env with outcomes := draws } }

/-- This agent moves next. -/
def next (a : Agent) (s : State) : State := { s with env := { s.env with sched := [a] } }

/-- Thread 0 has this to do. -/
def doing (ops : List HostOp) (s : State) : State :=
  { s with host := { s.host with threads := s.host.threads.set 0 { Thread.reset with prog := ops } } }

/-- The contents of thread 0. -/
def thread0 (ops : List HostOp) : Thread := { Thread.reset with prog := ops }

/-- What thread 0 does in its next step: its program and its results. -/
def hostStep0 (ops : List HostOp) (s : State) : Option (List HostOp × List HostResult) :=
  ((after (step (next (.host 0) (doing ops s)))).host.threads[0]?).map fun t => (t.prog, t.results.map (·.2))

/-- The strip is in this state. -/
def withStrip (u : WUnit) (s : State) : State := { s with strips := [u] }

/-- PWM port 0 is in this state. -/
def withPort (P : PwmPort) (s : State) : State :=
  { s with unitP := { s.unitP with issueCtr := 5, ports := s.unitP.ports.set 0 P } }

/-- PWM port 0 while it runs a command with the first `k` micro-ops done. -/
def running (c : PwmCmd) (k : Nat) (stamp : Nat) : PwmPort :=
  { cmd := none, status := { busy := true, failStep := 0, err := .ok }, op := some c
    seq := commandSeq platform.params c, upc := BitVec.ofNat 8 k, tmp := some 0x91, stamp := some stamp, stuck := false }

/-- The three input bytes of the vectors. -/
def pixels : List Host.Cell := [(0, 0x00), (1, 0xFF), (2, 0x0F)]

/-- The strip with those bytes and this command of port 0 queued, its first `k` steps done. -/
def queued (c : WsCmd) (k : Nat) : WUnit :=
  { strip with
    ibuf := pixels, queue := [(0, c)]
    ports :=
      [{ cmd := none, status := { busy := true, failStep := 0, err := .ok }, upc := BitVec.ofNat 8 k }, WPort.reset] }

/-- The same strip with `A5` in `m4` already encoded. -/
def encoded (c : WsCmd) (k : Nat) : WUnit :=
  { queued c k with obuf := [(0, 0xE8), (1, 0xE8), (2, 0x8E), (3, 0x8E)], olen := 4, omode := .m4, div := 79 }

/-- The status word of PWM port 0. -/
def status0 (s : State) : Option Word := (portStatus s (.pwm 0)).map statusWord

/-- The status word of W port 0 of the strip. -/
def wsStatus0 (s : State) : Option Word := (portStatus s (.ws 0 0)).map statusWord

/-- The micro-ops of PWM port 0. -/
def seq0 (s : State) : Option (List MicroOp) := (s.unitP.ports[0]?).map (·.seq)

/-- The first `n` output bytes of the strip. -/
def output (n : Nat) (s : State) : Option (List Byte) :=
  (s.strips[0]?).bind fun u => Memory.readBytes unwritten u.obuf 0 n

/-- The wire events of the strip. -/
def wire (s : State) : Option (List TraceEvent) := (s.strips[0]?).map (·.trace)

/-! ### Well-formedness and decoding -/

theorem test_wellFormed_refuses :
    (Instr.i2cWr 0x00 0x12 0x4C).wellFormed = false ∧ (Instr.i2cRd 0x00 0x12).wellFormed = false
      ∧ (Instr.i2cGc 0x04).wellFormed = false := by decide

theorem test_wellFormed_admits :
    (Instr.i2cWr 0x40 0x12 0x4C).wellFormed = true ∧ (Instr.i2cRd 0x40 0x12).wellFormed = true
      ∧ (Instr.i2cGc 0x06).wellFormed = true ∧ (Instr.pwmChan 16 0).wellFormed = true := by decide

/-- 95 2.1: the legal words. -/
theorem test_decode_words :
    decodeWord 0x0100007F = .ok (.pwmInit 0x7F) ∧ decodeWord 0x0200FFFF = .ok (.pwmFreq 65535)
      ∧ decodeWord 0x030F0FFF = .ok (.pwmChan 15 4095) ∧ decodeWord 0x03FF0000 = .ok (.pwmChan 255 0)
      ∧ decodeWord 0x10000003 = .ok (.wsEncM8 3) ∧ decodeWord 0x10010003 = .ok (.wsEncM4 3)
      ∧ decodeWord 0x10020003 = .ok (.wsEncAuto 3) ∧ decodeWord 0x11000000 = .ok .wsTx
      ∧ decodeWord 0x12000018 = .ok (.wsShowM8 24) ∧ decodeWord 0x12010018 = .ok (.wsShowM4 24)
      ∧ decodeWord 0x12020006 = .ok (.wsShowAuto 6) := by decide

/-- 95 2.1: the illegal words. -/
theorem test_decode_illegal :
    decodeWord 0x01000080 = .error .reservedBits ∧ decodeWord 0x02010032 = .error .reservedBits
      ∧ decodeWord 0x0310F000 = .error .reservedBits ∧ decodeWord 0x00000000 = .error .unknownOpcode
      ∧ decodeWord 0x04000000 = .error .unknownOpcode ∧ decodeWord 0x10030003 = .error .reservedMode
      ∧ decodeWord 0x10040003 = .error .reservedBits ∧ decodeWord 0x11000001 = .error .reservedBits := by decide

/-- 95 2.1, last line: the pseudo-instructions' words. -/
theorem test_encode_pseudo :
    encodeWord (.pwmZero 7) = some 0x03070000 ∧ encodeWord (.wsFrame 6) = some 0x12020006 := by decide

/-- R116-R118: the address byte is the address and R/W, then register and data. -/
theorem test_decode_frames :
    decodeFrame [[0b10000000, 0x12, 0x4C]] = .ok (.i2cWr 0x40 0x12 0x4C)
      ∧ decodeFrame [[0b10000000, 0xFE], [0b10000001, 0x1E]] = .ok (.i2cRd 0x40 0xFE)
      ∧ decodeFrame [[0x00, 0x06]] = .ok (.i2cGc 0x06) := by decide

/-- R158, R140: forms that are refused, among them the write of the two data bytes 0x81, 0x4C. -/
theorem test_decode_frames_refused :
    decodeFrame [[0x80, 0x12, 0x81, 0x4C]] = .error .multibyteForm ∧ decodeFrame [[0x81, 0x11]] = .error .multibyteForm
      ∧ decodeFrame [[0x80, 0x12]] = .error .multibyteForm ∧ decodeFrame [[0x01, 0x00]] = .error .generalCallRead := by
  decide

/-- The rows of the opcode table, in its own numbering of the bits. -/
theorem test_decode_table :
    decodeTableWord 32 0x0303004C = some (.pwmChan 3 76) ∧ decodeTableWord 24 0x80124C = some (.i2cWr 0x40 0x12 0x4C)
      ∧ decodeTableWord 32 0x80FE811E = some (.i2cRd 0x40 0xFE) ∧ decodeTableWord 16 0x0006 = some (.i2cGc 0x06)
      ∧ decodeTableWord 32 0x01000080 = none := by decide

/-- A word put where the next step takes it runs as the first instruction after reset. -/
theorem test_fetch_word :
    (after (step (State.reset.withFetchWord 32 0x0303004C))).unitP.ports.map (·.op) = [some (.chan 3 76)] := by decide

/-- A frame likewise. -/
theorem test_fetch_frame :
    (after (step (forPort .direct [.ok] (State.reset.withFetchWord 24 0x80124C)))).busLog =
      [{ kind := .wr, a7 := 0x40, reg := some 0x12, data := some 0x4C, outcome := .ok }] := by decide

/-! ### Commands of unit P: one step each -/

/-- 95 2.3. -/
theorem test_pwmInit_issue :
    seq0 (after (exec (.pwmInit 0x41) (forPort (.pwm 0) [] fresh))) =
        some [.gc 0x06, .wait 500, .rd 0x00, .wr 0x00 (.tmp 0x6F 0x00), .wait 500]
      ∧ (after (exec (.pwmInit 0x41) (forPort (.pwm 0) [] fresh))).unitP.devAddr = 0x41 := by decide

theorem test_pwmInit_address0 : status0 (after (exec (.pwmInit 0x00) (forPort (.pwm 0) [] fresh))) = some 0x00000006 := by
  decide

/-- 95 2.4. -/
theorem test_pwmFreq_issue :
    seq0 (after (exec (.pwmFreq 50) (forPort (.pwm 0) [] fresh))) =
      some
        [.rd 0x00, .wr 0x00 (.tmp 0x6F 0x10), .wr 0xFE (.imm 0x03), .wr 0x00 (.tmp 0x6F 0x00), .wait 500] := by decide

theorem test_pwmFreq_zero : status0 (after (exec (.pwmFreq 0) (forPort (.pwm 0) [] fresh))) = some 0x00000003 := by
  decide

/-- 95 2.5: the highest channel and duty. -/
theorem test_pwmChan_issue :
    seq0 (after (exec (.pwmChan 15 4095) (forPort (.pwm 0) [] fresh))) =
      some [.wr 0x42 (.imm 0xFF), .wr 0x43 (.imm 0x0F)] := by decide

theorem test_pwmChan_16 : status0 (after (exec (.pwmChan 16 0) (forPort (.pwm 0) [] fresh))) = some 0x00000002 := by
  decide

theorem test_pwmZero_issue :
    seq0 (after (exec (.pwmZero 3) (forPort (.pwm 0) [] fresh))) = some [.wr 0x12 (.imm 0), .wr 0x13 (.imm 0)] := by
  decide

/-- 95 2.10: issued while port 0 runs `pwm.freq`. -/
theorem test_pwmChan_conflict :
    (after (exec (.pwmChan 3 5) (forPort (.pwm 1) [] (withPort (running (.freq 50) 1 0) fresh)))).faults =
      [.seqConflict] := by decide

/-- 95 2.4: step 2 of `pwm.freq` draws `FAIL`. -/
theorem test_microOp_fail :
    status0 (after (step (next (.seq 0) (forPort .direct [.fail] (withPort (running (.freq 50) 2 0) fresh))))) =
      some 0x00000201 := by decide

/-- 95 2.4: the values of the prescale. -/
theorem test_prescale :
    prescale 2400 1 = 3 ∧ prescale 2400 65535 = 3 ∧ prescale 25000000 1 = 255 ∧ prescale 25000000 24 = 253
      ∧ prescale 25000000 50 = 121 ∧ prescale 25000000 200 = 30 ∧ prescale 25000000 1526 = 3 := by decide

/-! ### W commands: one step each -/

theorem test_wsEnc_issue :
    (after (exec (.wsEncM8 6) (forPort (.ws 0 1) [] fresh))).strips.map (·.queue) = [[(1, .enc .m8 6)]] := by decide

theorem test_wsEnc_range : wsStatus0 (after (exec (.wsEncM4 7) (forPort (.ws 0 0) [] fresh))) = some 0x00000005 := by
  decide

/-- 95 2.6, row 1. -/
theorem test_wsEncM8 :
    output 24 (after (step (next (.unit 0) (withStrip (queued (.enc .m8 3) 0) fresh)))) =
      some
        [0x80, 0x80, 0x80, 0x80, 0x80, 0x80, 0x80, 0x80, 0xF8, 0xF8, 0xF8, 0xF8, 0xF8, 0xF8, 0xF8, 0xF8, 0x80, 0x80, 0x80,
          0x80, 0xF8, 0xF8, 0xF8, 0xF8] := by decide

/-- 95 2.6, row 2. -/
theorem test_wsEncM4 :
    output 12 (after (step (next (.unit 0) (withStrip (queued (.enc .m4 3) 0) fresh)))) =
      some [0x88, 0x88, 0x88, 0x88, 0xEE, 0xEE, 0xEE, 0xEE, 0x88, 0x88, 0xEE, 0xEE] := by decide

/-- 95 2.6: threshold 64, 24 < 64. -/
theorem test_wsEncAuto :
    (after (step (next (.unit 0) (withStrip (queued (.enc .auto 3) 0) fresh)))).strips.map (fun u => (u.olen, u.omode)) =
      [(12, .m4)] := by decide

/-- 95 2.6: an unwritten byte. -/
theorem test_wsEnc_unwritten :
    (after (step (next (.unit 0) (withStrip (queued (.enc .m8 4) 0) fresh)))).faults = [.unwrittenRead]
      ∧ wsStatus0 (after (step (next (.unit 0) (withStrip (queued (.enc .m8 4) 0) fresh)))) = some 0x80000000 := by
  decide

/-- 95 2.7. -/
theorem test_synth :
    (after (step (next (.unit 0) (withStrip (encoded .tx 0) fresh)))).strips.map (·.div) = [79]
      ∧ divider { strip.conf with fRef := 4000000 } .m8 = 1 ∧ divider { strip.conf with divMax := 32 } .m8 = 32 := by
  decide

/-- 95 2.8: the transfer draws `FAIL`. -/
theorem test_wsTx_fail :
    wsStatus0 (after (step (next (.unit 0) (forPort .direct [.fail] (withStrip (encoded .tx 1) fresh))))) =
        some 0x00000101
      ∧ wire (after (step (next (.unit 0) (forPort .direct [.fail] (withStrip (encoded .tx 1) fresh))))) =
        some [.xfer [0xE8, 0xE8, 0x8E, 0x8E] 79 .fail] := by decide

/-- 95 2.8: `OLEN` = 0. -/
theorem test_wsTx_empty :
    wsStatus0 (after (step (next (.unit 0) (withStrip (queued .tx 0) fresh)))) = some 0x00000000
      ∧ wire (after (step (next (.unit 0) (withStrip (queued .tx 0) fresh)))) = some [] := by decide

/-- 95 2.9: `ws.show`, the transfer draws `FAIL`. -/
theorem test_wsShow_fail :
    wsStatus0
        (after (step (next (.unit 0) (forPort .direct [.fail] (withStrip (encoded (.display .m4 1) 2) fresh))))) =
      some 0x00000201 := by decide

/-- 10_state.md R32: `upc` is the number of steps that completed with `OK`, 4 at the end of a `ws.show`. -/
theorem test_latch_upc :
    (after (step (next (.unit 0) (withStrip (encoded (.display .m8 1) 3) fresh)))).strips.map (·.ports.map (·.upc)) =
      [[4, 0]] := by decide

/-- 95 2.8: the end of a frame. -/
theorem test_latch :
    wsStatus0 (after (step (next (.unit 0) (withStrip (encoded (.display .m8 1) 3) fresh)))) = some 0x00000000
      ∧ wire (after (step (next (.unit 0) (withStrip (encoded (.display .m8 1) 3) fresh)))) = some [.latch] := by decide

/-- The three modes of `ws.show`, and `ws.frame`, issued. -/
theorem test_wsShow_issue :
    (after (exec (.wsShowM8 3) (forPort (.ws 0 0) [] fresh))).strips.map (·.queue) = [[(0, .display .m8 3)]]
      ∧ (after (exec (.wsShowM4 3) (forPort (.ws 0 0) [] fresh))).strips.map (·.queue) = [[(0, .display .m4 3)]]
      ∧ (after (exec (.wsFrame 6) (forPort (.ws 0 0) [] fresh))).strips.map (·.queue) = [[(0, .display .auto 6)]] := by
  decide

/-- 30_encoding.md R113: a unit P opcode at a W port. -/
theorem test_wrong_unit : wsStatus0 (after (runWord (.ws 0 0) 0x02000032 fresh)) = some 0x00000004 := by decide

/-! ### Bus transactions -/

/-- 95 2.2: `MODE1` from 0x11 to 0x01. -/
theorem test_i2cWr_wake :
    srRead (after (exec (.i2cWr 0x40 0x00 0x01) (forPort .direct [.ok] fresh))).slave 0x00 = 0x01
      ∧ (after (exec (.i2cWr 0x40 0x00 0x01) (forPort .direct [.ok] fresh))).slave.osc = .waking := by decide

/-- 95 2.2: stored bits, `ALL_LED_OFF_H`, and the refusals. -/
theorem test_i2cWr_values :
    srRead (after (exec (.i2cWr 0x40 0x01 0xFF) (forPort .direct [.ok] fresh))).slave 0x01 = 0x1F
      ∧ srRead (after (exec (.i2cWr 0x40 0x13 0xFF) (forPort .direct [.ok] fresh))).slave 0x13 = 0x1F
      ∧ srRead (after (exec (.i2cWr 0x40 0xFD 0x10) (forPort .direct [.ok] fresh))).slave 0x45 = 0x10
      ∧ srRead (after (exec (.i2cWr 0x40 0xFE 0x01) (forPort .direct [.ok] fresh))).slave 0xFE = 0x03
      ∧ (after (exec (.i2cWr 0x40 0x00 0x81) (forPort .direct [.ok] fresh))).refused = [.restartWrite]
      ∧ (after (exec (.i2cWr 0x40 0x46 0x00) (forPort .direct [.ok] fresh))).refused = [.reservedRegWrite] := by decide

/-- R37, R140, 60_exceptions.md R352: address 0x00 selects no slave, so that a register write there is a NACK. -/
theorem test_i2cWr_address0 :
    (after (exec (.i2cWr 0x00 0x06 0x10) (forPort .direct [.ok] fresh))).busLog =
        [{ kind := .wr, a7 := 0x00, reg := some 0x06, data := some 0x10, outcome := .nack }]
      ∧ (after (exec (.i2cWr 0x00 0x06 0x10) (forPort .direct [.ok] fresh))).slave = Slave.reset := by decide

/-- 95 2.2: `PRE_SCALE` at reset. -/
theorem test_i2cRd_prescale :
    (after (exec (.i2cRd 0x40 0xFE) (forPort .direct [.ok] fresh))).busLog =
      [{ kind := .rd, a7 := 0x40, reg := some 0xFE, data := some 0x1E, outcome := .ok }] := by decide

/-- 95 2.2: an all-call read is refused, an unknown address is not acknowledged. -/
theorem test_i2cRd_refused :
    (after (exec (.i2cRd 0x70 0x00) (forPort .direct [.ok] fresh))).refused = [.subaddressRead]
      ∧ (after (exec (.i2cRd 0x71 0x00) (forPort .direct [.ok] fresh))).busLog =
        [{ kind := .rd, a7 := 0x71, reg := some 0x00, data := none, outcome := .nack }] := by decide

/-- The slave awake, with `PRE_SCALE` 0x65. -/
def awake : State := { fresh with slave := { sr := [(0, 0x01), (0xFE, 0x65)], osc := .running } }

/-- 95 2.2: the software reset; another data byte is refused. -/
theorem test_i2cGc :
    (after (exec (.i2cGc 0x06) (forPort .direct [.ok] awake))).slave = Slave.reset
      ∧ (after (exec (.i2cGc 0x04) (forPort .direct [.ok] awake))).refused = [.generalCallData] := by decide

/-! ### The host -/

/-- 95 2.10. -/
theorem test_host_refusals :
    (after (step (next (.host 0) (doing [.portRead (.pwm 0) 0 32] fresh)))).refused = [.cmdRead]
      ∧ (after (step (next (.host 0) (doing [.portWrite (.pwm 0) 4 32 0] fresh)))).refused = [.statusWrite]
      ∧ (after (step (next (.host 0) (doing [.portWrite (.pwm 0) 8 32 0] fresh)))).refused = [.freqWrite]
      ∧ (after (step (next (.host 0) (doing [.portRead (.ws 0 0) 8 32] fresh)))).refused = [.portOffset]
      ∧ (after (step (next (.host 0) (doing [.portRead (.pwm 0) 4 16] fresh)))).refused = [.portWidth]
      ∧ (after (step (next (.host 0) (doing [.ibufWrite 0 6 0] fresh)))).refused = [.ibufRange]
      ∧ (after (step (next (.host 0) (doing [.ibufRead 0 0] fresh)))).faults = [.unwrittenRead] := by decide

/-- 20_memory.md R81: an address in a port's window, and one in none (93_implementation_defined.md I10). -/
theorem test_host_addresses :
    (after (step (next (.host 0) (doing [.addrWrite 0x50 32 0] fresh)))).refused = [.statusWrite]
      ∧ (after (step (next (.host 0) (doing [.addrRead 0x60 32] fresh)))).refused = [.cmdRead]
      ∧ (after (step (next (.host 0) (doing [.addrRead 0x68 32] fresh)))).refused = [.portOffset]
      ∧ (after (step (next (.host 0) (doing [.addrRead 0x68 8] fresh)))).refused = [.portWidth] := by decide

/-- 48_host_reference.md R301, R307, R310: results of operations. -/
theorem test_host_results :
    hostStep0 [.setPixel 0 2 0 0 0] fresh = some ([], [.indexOutOfRange])
      ∧ hostStep0 [.moveToAngle (.pwm 0) none "unknown_servo" 90] fresh = some ([], [.unknownActuator])
      ∧ hostStep0 [.start 0] fresh = some ([], [.ok]) ∧ hostStep0 [.homeReport 0] fresh = some ([], [.ok]) := by
  decide +kernel

/-- 48_host_reference.md R316: the colour wheel's examples. -/
theorem test_wheel :
    wheel 0 = (255, 0, 0) ∧ wheel 84 = (3, 252, 0) ∧ wheel 85 = (0, 255, 0) ∧ wheel 129 = (0, 123, 132)
      ∧ wheel 170 = (0, 0, 255) ∧ wheel 255 = (255, 0, 0) := by decide

/-- 95 2.11: `BRIGHTNESS` 100, GRB. -/
theorem test_pixelBytes :
    pixelBytes { strip.conf with brightness := 100 } 255 128 1 = [0x32, 0x64, 0x00] := by decide

/-- R122: the inverse tables, and bytes in neither. -/
theorem test_unsymbols :
    unsymbols .m4 [0x88, 0x8E, 0xE8, 0xEE] = some (bitsOf 0x1B) ∧ unsymbols .m8 [0xF8, 0x80] = some [true, false]
      ∧ unsymbols .m8 [0x81] = none := by decide

/-- 95 2.11. -/
theorem test_pulseToDuty : pulseToDuty 50 375 = 76 ∧ pulseToDuty 50 600 = 122 ∧ pulseToDuty 50 20000 = 4095 := by
  decide +kernel

/-! ### Witnesses: states and operands that meet a statement's hypotheses, a boundary value for each clause -/

theorem witness_DecodeOfEncode :
    (Instr.i2cWr 0x7F 0xFF 0xFF).wellFormed = true ∧ (Instr.i2cRd 0x01 0x00).wellFormed = true
      ∧ (Instr.i2cGc 0x06).wellFormed = true ∧ (Instr.pwmZero 255).wellFormed = true := by decide

theorem witness_DecodedWireHasItsForm :
    decodeWord 0x1202FFFF = .ok (.wsShowAuto 65535) ∧ decodeFrame [[0xFE, 0xFF], [0xFF, 0xFF]] = .ok (.i2cRd 0x7F 0xFF) := by
  decide

/-- The queue of an idle unit has its form. -/
theorem strip_queueForm : QueueForm strip := by
  refine ⟨by decide, by simp [strip, WUnit.reset], fun q P h hb => ?_, by simp [strip, WUnit.reset]⟩
  have : P.status.busy = false := by
    rcases q with _ | _ | q
    · cases h; rfl
    · cases h; rfl
    · simp [strip, WUnit.reset] at h
  simp [this] at hb

theorem witness_IllegalWordRejected :
    (fresh.unitP.ports[0]? = some PwmPort.reset ∧ ReservedWord 0x0310F000 ∧ 0x10 ≤ (0x10000003 : Word).toNat / 2 ^ 24)
      ∧ fresh.strips[0]? = some strip ∧ QueueForm strip ∧ strip.ports[1]? = some WPort.reset ∧ ReservedWord 0x10030003
      ∧ ReservedWord 0x01000080 ∧ ReservedWord 0x11000001 ∧ (0x03000000 : Word).toNat / 2 ^ 24 ≤ 0x03 :=
  ⟨by decide, by decide, strip_queueForm, by decide, by decide, by decide, by decide, by decide⟩

theorem witness_PwmAccepted :
    (forPort (.pwm 1) [] fresh).sel = .pwm 1 ∧ fresh.unitP.ports[1]? = some PwmPort.reset
      ∧ PwmPort.reset.status.busy = false ∧ (0x01 : BitVec 7) ≠ 0 ∧ (65535 : BitVec 16) ≠ 0
      ∧ (15 : BitVec 8).toNat ≤ 15 := by decide

theorem witness_WsCommandAccepted :
    (forPort (.ws 0 1) [] fresh).sel = .ws 0 1 ∧ fresh.strips[0]? = some strip ∧ strip.ports[1]? = some WPort.reset
      ∧ WPort.reset.status.busy = false ∧ (6 : BitVec 16).toNat ≤ 3 * strip.conf.pixelCount := by decide

theorem witness_ValueErrorRejected :
    encodeWord (.pwmChan 16 0) = some 0x03100000 ∧ 15 < (16 : BitVec 8).toNat ∧ QueueForm strip
      ∧ strip.ports[0]? = some WPort.reset ∧ 3 * strip.conf.pixelCount < (7 : BitVec 16).toNat :=
  ⟨by decide, by decide, strip_queueForm, by decide, by decide⟩

/-- The port after a `pwm.chan 16` from reset. -/
def rejectedPort : PwmPort :=
  { PwmPort.reset with cmd := some 0x03100000, status := { busy := false, failStep := 0, err := .invalidChannel } }

theorem witness_RejectedChangesOnlyItsPort :
    (∃ t, runWord (.pwm 0) 0x03100000 fresh = .next t ∧ t.unitP.ports[0]? = some rejectedPort
      ∧ rejectedPort.status.busy = false)
      ∧ ∃ t v Q, runWord (.ws 0 0) 0x10000007 fresh = .next t ∧ t.strips[0]? = some v ∧ v.ports[0]? = some Q
        ∧ Q.status.busy = false :=
  ⟨⟨_, rfl, rfl, rfl⟩, _, _, _, rfl, rfl, rfl, rfl⟩

/-- Port 0 runs `pwm.chan 3, 76`. -/
def chanBusy : State := withPort (running (.chan 3 76) 0 2) fresh

/-- Port 0 runs `pwm.freq 50`. -/
def freqBusy (k : Nat) : State := withPort (running (.freq 50) k 2) fresh

/-- Port 0 runs `pwm.init 0x40`. -/
def initBusy (k : Nat) : State := withPort (running (.init 0x40) k 2) fresh

theorem witness_BusyPortHoldsMissingPortFaults :
    (encodeWord (.pwmFreq 50) = some 0x02000032
      ∧ portStatus (forPort (.pwm 0) [] chanBusy) (.pwm 0) = some { busy := true, failStep := 0, err := .ok })
      ∧ (next (.host 0) (doing [.portWrite (.pwm 0) 0 32 5] chanBusy)).env.sched = [.host 0]
      ∧ (doing [.portWrite (.pwm 0) 0 32 5] chanBusy).host.threads[0]? = some (thread0 [.portWrite (.pwm 0) 0 32 5])
      ∧ encodeWord .wsTx = some 0x11000000 ∧ portStatus fresh (.pwm 2) = none ∧ portStatus fresh (.ws 0 2) = none
      ∧ portStatus fresh (.ws 1 0) = none ∧ portStatus fresh .direct = none := by decide

theorem witness_ConcurrentIssueMarked :
    (forPort (.pwm 1) [] chanBusy).unitP.ports[1]? = some PwmPort.reset
      ∧ (∃ t, exec (.pwmInit 0x7F) (forPort (.pwm 1) [] chanBusy) = .next t ∧ t.faults = [.seqConflict])
      ∧ (∃ t, exec (.pwmFreq 1) (forPort (.pwm 1) [] chanBusy) = .next t ∧ t.faults = [.seqConflict])
      ∧ ∃ t, exec (.pwmChan 15 0) (forPort (.pwm 1) [] chanBusy) = .next t ∧ t.faults = [] :=
  ⟨by decide, ⟨_, rfl, rfl⟩, ⟨_, rfl, rfl⟩, _, rfl, rfl⟩

theorem witness_RegisterWriteCompletes :
    fresh.unitP.i2cHung = false ∧ nextDraw (forPort .direct [.ok] fresh) = .ok ∧ Selects fresh 0x40 ∧ Selects fresh 0x70
      ∧ (0x45 : Byte).toNat ≤ 0x45 ∧ (0xFA ≤ (0xFA : Byte).toNat ∧ (0xFE : Byte).toNat ≤ 0xFE)
      ∧ (0x3F : Byte).toNat < 0x40 := by decide

theorem witness_SlaveWriteValues :
    Memory.wf slaveReset Slave.reset.sr ∧ Memory.wf slaveReset awake.slave.sr
      ∧ (srRead Slave.reset 0x00).toNat.testBit 4 = true ∧ (srRead awake.slave 0x00).toNat.testBit 4 = false
      ∧ 0x80 ≤ (0x80 : Byte).toNat ∧ 0x40 ≤ (0x40 : Byte).toNat ∧ (0x7F : Byte).toNat < 0x80
      ∧ (0x3F : Byte).toNat < 0x40 ∧ 0x01 ≤ (0x01 : Byte).toNat ∧ (0x45 : Byte).toNat = 0x09 + 4 * 15 := by decide

theorem witness_RegisterWriteRefused :
    nextDraw (forPort .direct [.ok] fresh) = .ok ∧ Selects (forPort .direct [.ok] fresh) 0x40
      ∧ 0x46 ≤ (0x46 : Byte).toNat ∧ (0xF9 : Byte).toNat ≤ 0xF9 ∧ 0x80 ≤ (0x80 : Byte).toNat
      ∧ 0x40 ≤ (0x40 : Byte).toNat ∧ (0x7F : Byte).toNat < 0x80 := by decide

theorem witness_FailedTransactions :
    nextDraw (forPort .direct [.fail] fresh) = .fail ∧ nextDraw (forPort .direct [.hang] fresh) = .hang
      ∧ Selects fresh 0x40 ∧ WriteReaches 0xFD 0x45 ∧ ¬WriteReaches 0xFD 0x44 ∧ ¬WriteReaches 0x00 0x01 := by decide

theorem witness_UnansweredAddressFails :
    fresh.unitP.i2cHung = false ∧ ¬Selects fresh 0x71 ∧ ¬Selects fresh 0x00 := by decide

theorem witness_RegisterReads :
    nextDraw (forPort .direct [.ok] fresh) = .ok ∧ fresh.cfg.slaveAddr ≠ 0 ∧ Selects fresh 0x70
      ∧ (0x70 : BitVec 7) ≠ fresh.cfg.slaveAddr ∧ 0x02 ≤ (0x02 : Byte).toNat ∧ (0x05 : Byte).toNat ≤ 0x05
      ∧ 0x06 ≤ (0x06 : Byte).toNat := by decide

theorem witness_GeneralCall :
    fresh.unitP.i2cHung = false ∧ nextDraw (forPort .direct [.ok] awake) = .ok ∧ (0x07 : Byte) ≠ 0x06
      ∧ nextDraw (forPort .direct [.hang] awake) ≠ .ok := by decide

/-- Port 0 waits for a transaction on a hung bus. -/
def hungState : State := next (.seq 0) { freqBusy 0 with unitP := { (freqBusy 0).unitP with i2cHung := true } }

theorem witness_HungBusHolds :
    hungState.unitP.i2cHung = true ∧ hungState.env.sched = [.seq 0]
      ∧ hungState.unitP.ports[0]? = some (running (.freq 50) 0 2)
      ∧ (running (.freq 50) 0 2).seq[(running (.freq 50) 0 2).upc.toNat]? = some (.rd 0x00) := by decide

theorem witness_StepRunsWrittenWord :
    (next (.host 0) (doing [.portWrite (.ws 0 1) 0 32 0x11000000] fresh)).env.sched = [.host 0]
      ∧ (doing [.portWrite (.ws 0 1) 0 32 0x11000000] fresh).host.threads[0]? =
        some (thread0 [.portWrite (.ws 0 1) 0 32 0x11000000])
      ∧ portStatus fresh (.ws 0 1) = some Status.reset ∧ Status.reset.busy = false ∧ decodeWord 0x11000000 = .ok .wsTx
      ∧ decodeWord 0x11000001 = .error .reservedBits := by decide

theorem witness_StepRunsTransaction_microOp :
    (∀ P ∈ [running (.init 0x40) 0 2, running (.init 0x40) 2 2, running (.chan 3 76) 1 2, running (.freq 50) 1 2],
      P.status.busy = true ∧ P.stuck = false ∧ heldByChannel (withPort P fresh).unitP.ports 0 P = false
        ∧ (withPort P fresh).unitP.ports[0]? = some P)
      ∧ (running (.init 0x40) 0 2).seq[0]? = some (.gc 0x06) ∧ (running (.init 0x40) 2 2).seq[2]? = some (.rd 0x00)
      ∧ (running (.chan 3 76) 1 2).seq[1]? = some (.wr 0x13 (.imm 0x00))
      ∧ (running (.freq 50) 1 2).seq[1]? = some (.wr 0x00 (.tmp 0x6F 0x10)) ∧ (running (.freq 50) 1 2).tmp = some 0x91 := by
  decide

theorem witness_StepRunsTransaction_frame :
    (placeFrame [[0x80, 0x12, 0x4C]] fresh).env.sched = [.master]
      ∧ (placeFrame [[0x80, 0x12, 0x4C]] fresh).frames = [[[0x80, 0x12, 0x4C]]] ∧ fresh.unitP.i2cHung = false
      ∧ decodeFrame [[0x80, 0x12, 0x4C]] = .ok (.i2cWr 0x40 0x12 0x4C)
      ∧ decodeFrame [[0x00, 0x12, 0x4C]] = .ok (.i2cWr 0x00 0x12 0x4C)
      ∧ decodeFrame [[0x00, 0x12], [0x01, 0x00]] = .ok (.i2cRd 0x00 0x12)
      ∧ decodeFrame [[0x02, 0x12], [0x03, 0x00]] = .ok (.i2cRd 0x01 0x12) ∧ decodeFrame [[0x00, 0x06]] = .ok (.i2cGc 0x06)
      ∧ decodeFrame [[0x01, 0x12]] = .error .generalCallRead ∧ decodeFrame [[0x80, 0x12]] = .error .multibyteForm := by
  decide

theorem witness_WaitRule :
    (initBusy 4).unitP.ports[0]? = some (running (.init 0x40) 4 2) ∧ (running (.init 0x40) 4 2).status.busy = true
      ∧ (running (.init 0x40) 4 2).stuck = false ∧ (running (.init 0x40) 4 2).seq[4]? = some (.wait 500)
      ∧ heldByChannel (initBusy 4).unitP.ports 0 (running (.init 0x40) 4 2) = false
      ∧ { awake.slave with osc := Osc.waking }.osc = .waking ∧ ¬(500 ≤ 500 ∧ awake.slave.osc = .waking) := by decide

theorem witness_OscillatorStep : (next .osc fresh).env.sched = [.osc] := by decide

/-- Port 1 runs `pwm.chan 3, 5`, issued after port 0's `pwm.chan 3, 76`. -/
def twoChans : State :=
  { chanBusy with unitP := { chanBusy.unitP with ports := [running (.chan 3 76) 0 2, running (.chan 3 5) 0 3] } }

theorem witness_SameChannelHold :
    (next (.seq 1) twoChans).env.sched = [.seq 1] ∧ twoChans.unitP.ports[1]? = some (running (.chan 3 5) 0 3)
      ∧ (running (.chan 3 5) 0 3).op = some (.chan 3 5) ∧ (running (.chan 3 5) 0 3).stamp = some 3
      ∧ heldByChannel twoChans.unitP.ports 1 (running (.chan 3 5) 0 3) = true
      ∧ heldByChannel twoChans.unitP.ports 0 (running (.chan 3 76) 0 2) = false := by decide

/-- Port 0 is stuck after a refused transaction. -/
def stuckBusy : State := withPort { running (.chan 3 76) 0 2 with stuck := true } fresh

theorem witness_MicroOpOutcome :
    (next (.seq 0) stuckBusy).env.sched = [.seq 0] ∧ (stuckBusy.unitP.ports[0]?).map (·.stuck) = some true
      ∧ (running (.chan 3 76) 0 2).stuck = false ∧ (running (.chan 3 76) 0 2).status.busy = true ∧ (running (.chan 3 76) 0 2).upc.toNat + 1 < 2
      ∧ (running (.chan 3 76) 1 2).upc.toNat + 1 = (running (.chan 3 76) 1 2).seq.length
      ∧ chanBusy.unitP.ports[0]? = some (running (.chan 3 76) 0 2) := by decide

/-- The clauses on delivery: for a port that waits, for one that does not, and for nobody. -/
theorem witness_MicroOpOutcome_delivery :
    (forPort (.pwm 0) [] chanBusy).sel = .pwm 0 ∧ PwmPort.reset.status.busy = false
      ∧ (forPort (.pwm 0) [] fresh).unitP.ports[0]? = some PwmPort.reset
      ∧ (forPort (.pwm 9) [] fresh).unitP.ports[9]? = none
      ∧ (forPort .direct [] chanBusy).sel = .direct ∧ (forPort (.ws 0 0) [] chanBusy).sel = .ws 0 0 := by decide

theorem witness_FreqCompletionEffect :
    (freqBusy 4).unitP.ports[0]? = some (running (.freq 50) 4 2) ∧ (running (.freq 50) 4 2).op = some (.freq 50)
      ∧ chanBusy.unitP.ports[0]?.map (·.op) = some (some (.chan 3 76)) := by decide

/-- A state from which a whole unit P command runs on port 0. -/
def ready (steps : List Agent) (draws : List Draw) (s : State) : State :=
  { s with sel := .pwm 0, env := { s.env with sched := steps, outcomes := draws } }

theorem witness_PwmRuns :
    (ready [.seq 0, .seq 0, .seq 0, .seq 0, .osc, .seq 0] [.ok, .ok, .ok, .ok] awake).unitP.ports[0]? = some PwmPort.reset
      ∧ awake.cfg.slaveAddr ≠ 0 ∧ (0x40 : BitVec 7) = awake.cfg.slaveAddr ∧ awake.unitP.i2cHung = false
      ∧ awake.unitP.devAddr = awake.cfg.slaveAddr ∧ Memory.wf slaveReset awake.slave.sr
      ∧ (50 : BitVec 16) ≠ 0 := by decide

theorem witness_PwmChanRun :
    (∀ P ∈ (ready [.seq 0, .seq 0] [.ok, .ok] awake).unitP.ports, P.status.busy = false)
      ∧ Selects (ready [.seq 0, .seq 0] [.ok, .ok] awake) (ready [.seq 0, .seq 0] [.ok, .ok] awake).unitP.devAddr
      ∧ Memory.wf slaveReset awake.slave.sr ∧ (15 : BitVec 8).toNat ≤ 15 := by decide

theorem witness_WsShowRun :
    (withStrip { strip with ibuf := pixels } fresh).strips[0]? = some { strip with ibuf := pixels }
      ∧ strip.queue = [] ∧ strip.stopped = false ∧ strip.spiHung = false ∧ Memory.wf unwritten strip.obuf
      ∧ strip.ports[0]? = some WPort.reset ∧ 0 < (3 : BitVec 16).toNat
      ∧ (3 : BitVec 16).toNat ≤ 3 * strip.conf.pixelCount
      ∧ Memory.readBytes unwritten pixels 0 3 = some [0x00, 0xFF, 0x0F] := by decide

theorem witness_EncodeStep :
    (∀ c ∈ [WsCmd.enc .m8 3, .display .auto 3],
      (withStrip (queued c 0) fresh).strips[0]? = some (queued c 0) ∧ (queued c 0).stopped = false
        ∧ (queued c 0).spiHung = false ∧ (queued c 0).queue = [(0, c)] ∧ ((queued c 0).ports[0]?).map (·.upc) = some 0)
      ∧ Memory.wf unwritten (queued (.enc .m8 3) 0).obuf
      ∧ Memory.readBytes unwritten (queued (.enc .m8 3) 0).ibuf 0 3 = some [0x00, 0xFF, 0x0F] := by decide

theorem witness_StoppedUnitHolds :
    (queued (.enc .m8 4) 0).queue = [(0, .enc .m8 4)] ∧ 3 < (4 : BitVec 16).toNat
      ∧ Memory.read unwritten (queued (.enc .m8 4) 0).ibuf 3 = none ∧ { strip with stopped := true }.stopped = true
      ∧ { strip with spiHung := true }.spiHung = true ∧ strip.queue = [] := by decide

theorem witness_EmptyTxCompletes :
    (queued .tx 0).queue = [(0, .tx)] ∧ ((queued .tx 0).ports[0]?).map (·.upc) = some 0 ∧ (queued .tx 0).olen = 0
      ∧ (queued .tx 0).stopped = false ∧ (queued .tx 0).spiHung = false := by decide

theorem witness_TransmitterSteps :
    (encoded .tx 0).olen ≠ 0 ∧ (encoded .tx 1).queue = [(0, .tx)]
      ∧ (encoded (.display .m4 1) 3).queue = [(0, .display .m4 1)] ∧ (encoded .tx 1).stopped = false
      ∧ (encoded .tx 1).spiHung = false
      ∧ Memory.readBytes unwritten (encoded .tx 1).obuf 0 (encoded .tx 1).olen = some [0xE8, 0xE8, 0x8E, 0x8E]
      ∧ (forPort .direct [.hang] fresh).env.outcomes = [.hang] := by decide

theorem witness_DividerBounds :
    (0 < strip.conf.clockHz ∧ 0 < strip.conf.fRef ∧ 0 < strip.conf.divMax)
      ∧ strip.conf.fRef ≤ strip.conf.divMax * (strip.conf.clockHz * 8)
      ∧ 39 * (strip.conf.clockHz * 8) < strip.conf.fRef ∧ 6399999 < strip.conf.clockHz * 8
      ∧ 79 ≤ strip.conf.divMax := by decide

theorem witness_StepKeepsMemoryForm :
    MemoryForm (next .osc awake) ∧ SlaveForm (next .osc awake) ∧ step (next .osc awake) = .next awake :=
  ⟨by decide, by decide, rfl⟩

/-- A port at the start of a `pwm.chan` has its form. -/
theorem twoChans_form (stamp : Nat) (duty : BitVec 12) (h : stamp < 5) :
    PortForm platform.params 5 (running (.chan 3 duty) 0 stamp) :=
  ⟨fun _ => rfl, Nat.zero_le 5, fun hb => by simp [running] at hb,
    fun _ => ⟨_, _, rfl, rfl, rfl, rfl, h, Nat.zero_lt_two, by simp [running]⟩⟩

/-- Two ports in the middle of their commands have their form. -/
theorem twoChans_portsForm : PortsForm twoChans := by
  refine ⟨fun P hP => ?_, fun p q P Q hpq hP hQ _ _ => ?_⟩
  · simp only [twoChans, List.mem_cons, List.not_mem_nil, or_false] at hP
    rcases hP with rfl | rfl
    · exact twoChans_form 2 76 (by decide)
    · exact twoChans_form 3 5 (by decide)
  · rcases p with _ | _ | p <;> rcases q with _ | _ | q <;> simp [twoChans] at hpq hP hQ <;> subst hP hQ <;> decide

theorem witness_StepKeepsPortsForm : PortsForm twoChans ∧ ∃ t, step (next (.seq 1) twoChans) = .next t :=
  ⟨twoChans_portsForm, _, rfl⟩

/-- A strip in the middle of a frame has its form. -/
theorem encoded_unitsForm : UnitsForm (withStrip (encoded (.display .m4 1) 2) fresh) := by
  intro u hu
  simp only [withStrip, List.mem_cons, List.not_mem_nil, or_false] at hu
  subst hu
  refine ⟨⟨by decide, ?_, ?_, by simp [encoded, queued]⟩, ⟨by decide, by decide, by decide, by decide, by decide, by decide⟩,
    by decide⟩
  · intro e he
    simp only [encoded, queued, List.mem_cons, List.not_mem_nil, or_false] at he
    subst he
    exact ⟨_, rfl, rfl, by decide, by decide⟩
  · intro q P h hb
    rcases q with _ | _ | q
    · exact ⟨.display .m4 1, by simp [encoded, queued]⟩
    · cases h; simp [WPort.reset, Status.reset] at hb
    · simp [encoded, queued] at h

theorem witness_StepKeepsUnitsForm :
    MemoryForm (withStrip (encoded (.display .m4 1) 2) fresh) ∧ UnitsForm (withStrip (encoded (.display .m4 1) 2) fresh)
      ∧ ∃ t, step (next (.unit 0) (forPort .direct [.ok] (withStrip (encoded (.display .m4 1) 2) fresh))) = .next t :=
  ⟨by decide, encoded_unitsForm, _, rfl⟩

theorem witness_EveryStep :
    (∃ t, step (next (.seq 0) (forPort .direct [.ok] chanBusy)) = .next t ∧ t.slave ≠ fresh.slave)
      ∧ (∃ t, step (next (.unit 0) (forPort .direct [.hang] (withStrip (encoded .tx 1) fresh))) = .next t)
      ∧ (next (.unit 0) fresh).env.sched = [.unit 0] ∧ (next .master fresh).env.sched = [.master]
      ∧ (next .osc fresh).env.sched = [.osc] ∧ (1 : Nat) ≠ 0 :=
  ⟨⟨_, rfl, by decide⟩, ⟨_, rfl⟩, rfl, rfl, rfl, by decide⟩

theorem witness_HostPixelAccess :
    (next (.host 0) (doing [.ibufWrite 0 5 7] (withStrip { strip with ibuf := pixels } fresh))).env.sched = [.host 0]
      ∧ (doing [.ibufWrite 0 5 7] fresh).host.threads[0]? = some (thread0 [.ibufWrite 0 5 7])
      ∧ Memory.wf unwritten pixels ∧ 5 < 3 * strip.conf.pixelCount ∧ 3 * strip.conf.pixelCount ≤ 6
      ∧ Memory.read unwritten pixels 2 = some 0x0F ∧ Memory.read unwritten pixels 3 = none := by decide

theorem witness_PortAccesses :
    portStatus chanBusy (.pwm 0) = some { busy := true, failStep := 0, err := .ok }
      ∧ portStatus fresh (.ws 0 1) = some Status.reset
      ∧ (doing [.portRead (.pwm 0) 8 32] fresh).host.threads[0]? = some (thread0 [.portRead (.pwm 0) 8 32]) := by decide

/-- The addresses where the windows meet: the last of port 0's, the first of port 1's, and the first after all; and a
write of a busy port's `CMD`. -/
theorem witness_PortAccesses_addresses :
    (∀ e ∈ fresh.cfg.portBase, (e.2 ≤ 0x4B ∧ 0x4B < e.2 + windowSize e.1) → e = (.pwm 0, 0x40))
      ∧ (PortSel.pwm 0, 0x40) ∈ fresh.cfg.portBase ∧ 0x4B < 0x40 + 12
      ∧ (∀ e ∈ fresh.cfg.portBase, (e.2 ≤ 0x4C ∧ 0x4C < e.2 + windowSize e.1) → e = (.pwm 1, 0x4C))
      ∧ (∀ e ∈ fresh.cfg.portBase, ¬(e.2 ≤ 0x68 ∧ 0x68 < e.2 + windowSize e.1))
      ∧ (doing [.addrWrite 0x40 32 0] chanBusy).host.threads[0]? = some (thread0 [.addrWrite 0x40 32 0]) := by decide

theorem witness_PrescaleValue :
    (2 * 121 + 1) * (2048 * 50) < 25000000 ∧ 25000000 < (2 * 121 + 3) * (2048 * 50) ∧ 9 * 2048 = (2 * 3 + 3) * (2048 * 1)
      ∧ 2400 ≤ 7 * (2048 * 1) ∧ 513 * (2048 * 1) ≤ 25000000 := by decide

/-- The wrist of 95 W6. -/
def wrist : Actuator :=
  { name := "wrist", channel := 3, minPulse := 150, maxPulse := 600, minAngle := 0, maxAngle := 180, defaultAngle := 90 }

theorem witness_ServoArithmetic :
    wrist.minAngle < wrist.maxAngle ∧ wrist.minPulse < wrist.maxPulse ∧ (-10 : Rat) ≤ wrist.minAngle
      ∧ wrist.maxAngle ≤ 200 ∧ (4095 * 1000000 : Rat) ≤ 20000 * 4096 * 50 ∧ (76 : Rat) * 1000000 ≤ 375 * 4096 * 50 := by
  decide +kernel

/-- The platform with the wrist calibrated. -/
def calibrated : State := { fresh with host := { fresh.host with load := .loaded [wrist] } }

theorem witness_ServoMove :
    (doing [.moveToAngle (.pwm 0) none "wrist" 90] calibrated).host.threads[0]? =
        some (thread0 [.moveToAngle (.pwm 0) none "wrist" 90])
      ∧ wrist ∈ calibration calibrated ∧ (∀ e ∈ calibration calibrated, e.name = "wrist" → e = wrist)
      ∧ (doing [.moveToPulse (.pwm 0) "wrist" 375] calibrated).host.threads[0]? =
        some (thread0 [.moveToPulse (.pwm 0) "wrist" 375])
      ∧ (doing [.homeAll (.pwm 0)] calibrated).host.threads[0]? = some (thread0 [.homeAll (.pwm 0)])
      ∧ (∀ e ∈ calibration calibrated, e.name ≠ "unknown_servo") := by decide +kernel

theorem witness_SetPixel :
    fresh.strips[0]? = some strip ∧ fresh.host.anim[0]? = some Anim.reset ∧ 1 < strip.conf.pixelCount
      ∧ strip.conf.pixelCount ≤ 2 ∧ strip.conf.channelOrder = .grb
      ∧ (doing [.setPixel 0 1 255 0 0] fresh).host.threads[0]? =
        some (thread0 [.setPixel 0 1 255 0 0])
      ∧ (doing [.fill 0 1 2 3] fresh).host.threads[0]? = some (thread0 [.fill 0 1 2 3])
      ∧ (doing [.clear 0] fresh).host.threads[0]? = some (thread0 [.clear 0]) := by decide

/-- The strip's animation is in this state. -/
def animated (a : Anim) (s : State) : State := { s with host := { s.host with anim := [a] } }

theorem witness_AnimationOperations :
    (∀ a ∈ [Anim.reset, { Anim.reset with demo := .running }, { Anim.reset with mode := .running, running := true },
        { Anim.reset with mode := .running, running := true, lock := some 2 },
        { Anim.reset with mode := .paused, frameOffset := 255, demo := .done }],
      (animated a fresh).host.anim[0]? = some a ∧ (animated a fresh).strips[0]? = some strip)
      ∧ (∀ op ∈ [HostOp.start 0, .resume 0, .pause (.ws 0 1) 0, .unlock 0,
          .startupDemo (.ws 0 0) 0 [.fill 1 2 3, .wheel 4], .demoDone 0],
        (doing [op] fresh).host.threads[0]? = some (thread0 [op])) := by decide

/-- The strip's animation runs. -/
def animating : State := animated { Anim.reset with mode := .running, running := true } fresh

theorem witness_AnimationFrame :
    (next (.host 2) animating).env.sched = [.host 2]
      ∧ animating.host.threads[2]? = some { Thread.reset with task := some 0 } ∧ animating.host.load ≠ .failed
      ∧ (animating.host.anim[0]?).map (·.lock) = some none ∧ animating.strips[0]? = some strip
      ∧ (doing [.frameDone 0] animating).host.threads[0]? = some (thread0 [.frameDone 0]) := by decide

/-- A configuration with these servos. -/
def withServos (rs : List RawActuator) (s : State) : State := { s with cfg := { s.cfg with servos := rs } }

/-- The wrist as declared, without its angle limits. -/
def rawWrist : RawActuator :=
  { name := "wrist", channel := some (.int 15), minPulse := some 150, maxPulse := some 600, defaultAngle := some 90
    minAngle := none, maxAngle := none }

/-- 95 2.11: a good configuration, and one for each check of R302 that fails. -/
theorem witness_LoadAndBoot :
    hostStep0 [.loadConfig] (withServos [rawWrist, { rawWrist with channel := some (.int 0) }] fresh) = some ([], [.ok])
      ∧ (∀ rs ∈ [[{ rawWrist with channel := some (.int 16) }], [{ rawWrist with channel := some (.int (-1)) }],
            [{ rawWrist with channel := some (.other "3.5") }], [{ rawWrist with channel := none }],
            [{ rawWrist with minPulse := none }], [{ rawWrist with minPulse := some 600 }],
            [{ rawWrist with minAngle := some 180 }], [rawWrist, rawWrist]],
          hostStep0 [.loadConfig, .start 0] (withServos rs fresh) = some ([], [.configurationError]))
      ∧ (doing [.command (.pwm 0) 0x01000040] fresh).host.threads[0]? = some (thread0 [.command (.pwm 0) 0x01000040])
      ∧ (doing [.checkOk] fresh).host.threads[0]? = some (thread0 [.checkOk])
      ∧ (doing [.boot (.pwm 0) [(.ws 0 0, 0, [.wheel 0])]] fresh).host.threads[0]? =
        some (thread0 [.boot (.pwm 0) [(.ws 0 0, 0, [.wheel 0])]]) := by decide +kernel

/-- The idle clause of LoadAndBoot: after a failed load, the task of a strip whose animation runs with the lock free. -/
theorem witness_LoadAndBoot_idle :
    let s := next (.host 2) { animating with host := { animating.host with load := .failed } }
    s.env.sched = [.host 2] ∧ s.host.load = .failed
      ∧ s.host.threads[2]? = some { Thread.reset with task := some 0, prog := [] }
      ∧ (s.host.anim[0]?).map (fun a => (a.mode, a.lock)) = some (.running, none) := by decide

end Sys2Proof.Tests
end

section
/-! The host's pixel accesses (spec/20_memory.md R82): what each gives at a strip the platform has, below `IBUF_SIZE`
and from it on, and the step of the thread whose next operation is one. -/

namespace Sys2Proof.Machine

section Access

variable {s : State} {i idx : Nat} {u : WUnit} (k : Nat) (t : Thread) (hu : s.strips[i]? = some u)
include hu

theorem ibufWrite_of_lt (v : Byte) (h : idx < ibufSize u.conf) :
    ibufWrite k t i idx v s =
      .next (setThread k t (setStrip i { u with ibuf := Memory.write unwritten u.ibuf idx v } s)) := by
  simp only [ibufWrite, hu, if_pos h]

theorem ibufWrite_of_ge (v : Byte) (h : ibufSize u.conf ≤ idx) :
    ibufWrite k t i idx v s = .next (refuse .ibufRange (setThread k t s)) := by
  simp only [ibufWrite, hu, if_neg h.not_gt]

theorem ibufRead_of_written {v : Byte} (h : idx < ibufSize u.conf) (hv : Memory.read unwritten u.ibuf idx = some v) :
    ibufRead k t i idx s = .next (setThread k { t with got := some (v.setWidth 32) } s) := by
  simp only [ibufRead, hu, if_pos h, hv]

theorem ibufRead_of_unwritten (h : idx < ibufSize u.conf) (hv : Memory.read unwritten u.ibuf idx = none) :
    ibufRead k t i idx s = .next (markFault .unwrittenRead (setThread k { t with got := none } s)) := by
  simp only [ibufRead, hu, if_pos h, hv]

theorem ibufRead_of_ge (h : ibufSize u.conf ≤ idx) :
    ibufRead k t i idx s = .next (refuse .ibufRange (setThread k { t with got := none } s)) := by
  simp only [ibufRead, hu, if_neg h.not_gt]

end Access

section Scheduled

variable {s : State} {k : Nat} {rest : List Agent} {t : Thread} {ops : List HostOp} {i idx : Nat}
  (hsched : s.env.sched = .host k :: rest) (ht : s.host.threads[k]? = some t)
include hsched ht

theorem step_ibufWrite {v : Byte} (hprog : t.prog = .ibufWrite i idx v :: ops) :
    step s = ibufWrite k { t with prog := ops } i idx v { s with env := { s.env with sched := rest } } := by
  simp only [step_of_sched hsched, agentStep, hostStep, ht, hprog]

theorem step_ibufRead (hprog : t.prog = .ibufRead i idx :: ops) :
    step s = ibufRead k { t with prog := ops } i idx { s with env := { s.env with sched := rest } } := by
  simp only [step_of_sched hsched, agentStep, hostStep, ht, hprog]

end Scheduled

/-- Settles O52: the scheduled step is the pixel access itself, on one side of `IBUF_SIZE` or the other; that a write
stores its byte and no other is the law of the memory's write. -/
theorem hostPixelAccess : Obligations.HostPixelAccess := by
  intro s k rest t ops i idx u v hsched ht hu hwf after size
  replace hu : ({ s with env := { s.env with sched := rest } } : State).strips[i]? = some u := hu
  refine ⟨fun hprog => ?write, fun hprog => ?read⟩
  case write =>
    rw [step_ibufWrite hsched ht hprog]
    refine ⟨fun hlt => ?_, fun hge => ibufWrite_of_ge k _ hu v hge⟩
    exact ⟨Memory.write unwritten u.ibuf idx v, ibufWrite_of_lt k _ hu v hlt, Memory.read_write_same hwf idx v,
      fun a ha => Memory.read_write_other ha v⟩
  case read =>
    rw [step_ibufRead hsched ht hprog]
    refine ⟨fun hlt hv => ?_, fun hlt hv => ibufRead_of_unwritten k _ hu hlt hv,
      fun hge => ibufRead_of_ge k _ hu hge⟩
    rw [BitVec.ofNat_toNat]
    exact ibufRead_of_written k _ hu hlt hv

end Sys2Proof.Machine
end

section
/-! The decoder on command words (spec/30_encoding.md R111-R114): what it answers for each opcode, the words it
rejects, the words of the encoder, and which unit an accepted word is a command of. -/

namespace Sys2Proof

open Sys2Proof.Machine Sys2Proof.Safety

/-- An opcode that is none of the six of R111. -/
def UnknownOpcode (opc : Nat) : Prop :=
  opc ≠ 0x01 ∧ opc ≠ 0x02 ∧ opc ≠ 0x03 ∧ opc ≠ 0x10 ∧ opc ≠ 0x11 ∧ opc ≠ 0x12

theorem opcode_cases (opc : Nat) :
    opc = 0x01 ∨ opc = 0x02 ∨ opc = 0x03 ∨ opc = 0x10 ∨ opc = 0x11 ∨ opc = 0x12 ∨ UnknownOpcode opc := by
  unfold UnknownOpcode; omega

section Opcode

variable {w : Word}

theorem opcode_eq_ofNat {n : Nat} (h : w.toNat / 2 ^ 24 = n) : bits w 24 8 = BitVec.ofNat 8 n := by
  rw [← h, ← opcode_toNat, BitVec.ofNat_toNat, BitVec.setWidth_eq]

theorem decodeWord_opcode_01 (h : w.toNat / 2 ^ 24 = 0x01) :
    decodeWord w = guardReserved (bits w 7 17) (.ok (.pwmInit (bits w 0 7))) := by
  simp [decodeWord, opcode_eq_ofNat h]

theorem decodeWord_opcode_02 (h : w.toNat / 2 ^ 24 = 0x02) :
    decodeWord w = guardReserved (bits w 16 8) (.ok (.pwmFreq (bits w 0 16))) := by
  simp [decodeWord, opcode_eq_ofNat h]

theorem decodeWord_opcode_03 (h : w.toNat / 2 ^ 24 = 0x03) :
    decodeWord w = guardReserved (bits w 12 4) (.ok (.pwmChan (bits w 16 8) (bits w 0 12))) := by
  simp [decodeWord, opcode_eq_ofNat h]

theorem decodeWord_opcode_10 (h : w.toNat / 2 ^ 24 = 0x10) :
    decodeWord w =
      guardReserved (bits w 18 6)
        (byMode (bits w 16 2) (.wsEncM8 (bits w 0 16)) (.wsEncM4 (bits w 0 16)) (.wsEncAuto (bits w 0 16))) := by
  simp [decodeWord, opcode_eq_ofNat h]

theorem decodeWord_opcode_11 (h : w.toNat / 2 ^ 24 = 0x11) :
    decodeWord w = guardReserved (bits w 0 24) (.ok .wsTx) := by
  simp [decodeWord, opcode_eq_ofNat h]

theorem decodeWord_opcode_12 (h : w.toNat / 2 ^ 24 = 0x12) :
    decodeWord w =
      guardReserved (bits w 18 6)
        (byMode (bits w 16 2) (.wsShowM8 (bits w 0 16)) (.wsShowM4 (bits w 0 16)) (.wsShowAuto (bits w 0 16))) := by
  simp [decodeWord, opcode_eq_ofNat h]

theorem decodeWord_unknownOpcode (h : UnknownOpcode (w.toNat / 2 ^ 24)) :
    decodeWord w = .error .unknownOpcode := by
  obtain ⟨h1, h2, h3, h4, h5, h6⟩ := h
  have ne {n : Nat} (hn : n < 256) (h : w.toNat / 2 ^ 24 ≠ n) : bits w 24 8 ≠ BitVec.ofNat 8 n :=
    mt (opcode_eq_iff hn).1 h
  simp [decodeWord, ne _ h1, ne _ h2, ne _ h3, ne _ h4, ne _ h5, ne _ h6]

end Opcode

/-! ### The words the decoder rejects -/

theorem guardReserved_ok_error {len : Nat} {x : BitVec len} {i : Instr} :
    (∃ e, guardReserved x (.ok i) = .error e) ↔ x ≠ 0 := by
  simp [guardReserved_error]

theorem guardReserved_byMode_error {len : Nat} {x : BitVec len} {m : BitVec 2} {a b c : Instr} :
    (∃ e, guardReserved x (byMode m a b c) = .error e) ↔ x ≠ 0 ∨ m = 3 := by
  rw [guardReserved_error, byMode_error]

/-- The decoder rejects exactly the words of items 1 to 3 of R114. -/
theorem reservedWord_iff_decodeWord_error (w : Word) : ReservedWord w ↔ ∃ e, decodeWord w = .error e := by
  have hmode : bits w 16 2 = 3 ↔ w.toNat / 2 ^ 16 % 4 = 3 := bits_eq_iff
  simp only [ReservedWord]
  rcases opcode_cases (w.toNat / 2 ^ 24) with h | h | h | h | h | h | h
  · rw [decodeWord_opcode_01 h, guardReserved_ok_error, bits_ne_zero]; omega
  · rw [decodeWord_opcode_02 h, guardReserved_ok_error, bits_ne_zero]; omega
  · rw [decodeWord_opcode_03 h, guardReserved_ok_error, bits_ne_zero]; omega
  · rw [decodeWord_opcode_10 h, guardReserved_byMode_error, bits_ne_zero, hmode]; omega
  · rw [decodeWord_opcode_11 h, guardReserved_ok_error, bits_ne_zero]; omega
  · rw [decodeWord_opcode_12 h, guardReserved_byMode_error, bits_ne_zero, hmode]; omega
  · rw [decodeWord_unknownOpcode h]; exact iff_of_true (.inl h) ⟨_, rfl⟩

theorem not_reservedWord_of_decodeWord_ok {w : Word} {i : Instr} (h : decodeWord w = .ok i) : ¬ReservedWord w := by
  simp [reservedWord_iff_decodeWord_error, h]

/-! ### The words of the encoder -/

section Operands

variable {w : Word}

/-- A reserved field that is 0 lets the word through. -/
theorem guardReserved_zero {lo len : Nat} (h : w.toNat / 2 ^ lo % 2 ^ len = 0) (e : Except DecodeError Instr) :
    guardReserved (bits w lo len) e = e :=
  if_pos (bits_eq h)

theorem decodeWord_pwmInit {a : BitVec 7} (h : w.toNat = 0x01 * 2 ^ 24 + a.toNat) :
    decodeWord w = .ok (.pwmInit a) := by
  rw [decodeWord_opcode_01 (by omega), guardReserved_zero (by omega), bits_eq (x := a) (by omega)]

theorem decodeWord_pwmFreq {hz : BitVec 16} (h : w.toNat = 0x02 * 2 ^ 24 + hz.toNat) :
    decodeWord w = .ok (.pwmFreq hz) := by
  rw [decodeWord_opcode_02 (by omega), guardReserved_zero (by omega), bits_eq (x := hz) (by omega)]

theorem decodeWord_pwmChan {ch : BitVec 8} {duty : BitVec 12}
    (h : w.toNat = 0x03 * 2 ^ 24 + (ch.toNat * 2 ^ 16 + duty.toNat)) : decodeWord w = .ok (.pwmChan ch duty) := by
  rw [decodeWord_opcode_03 (by omega), guardReserved_zero (by omega), bits_eq (x := ch) (by omega),
    bits_eq (x := duty) (by omega)]

theorem decodeWord_wsEnc (mode : BitVec 2) {n : BitVec 16}
    (h : w.toNat = 0x10 * 2 ^ 24 + (mode.toNat * 2 ^ 16 + n.toNat)) :
    decodeWord w = byMode mode (.wsEncM8 n) (.wsEncM4 n) (.wsEncAuto n) := by
  rw [decodeWord_opcode_10 (by omega), guardReserved_zero (by omega), bits_eq (x := mode) (by omega),
    bits_eq (x := n) (by omega)]

theorem decodeWord_wsTx (h : w.toNat = 0x11 * 2 ^ 24) : decodeWord w = .ok .wsTx := by
  rw [decodeWord_opcode_11 (by omega), guardReserved_zero (by omega)]

theorem decodeWord_wsShow (mode : BitVec 2) {n : BitVec 16}
    (h : w.toNat = 0x12 * 2 ^ 24 + (mode.toNat * 2 ^ 16 + n.toNat)) :
    decodeWord w = byMode mode (.wsShowM8 n) (.wsShowM4 n) (.wsShowAuto n) := by
  rw [decodeWord_opcode_12 (by omega), guardReserved_zero (by omega), bits_eq (x := mode) (by omega),
    bits_eq (x := n) (by omega)]

end Operands

/-- What the decoder answers on a word given by its opcode and operands as numbers. -/
theorem decode_of_word {opc operands : Nat} {x : Wire} {r : Except DecodeError Instr}
    (hx : Laws.Encoding.word opc operands x)
    (h : ∀ w : Word, w.toNat = opc * 2 ^ 24 + operands → decodeWord w = r) : decode x = r := by
  obtain ⟨w, rfl, hw⟩ := hx
  exact h w hw

open Laws in
/-- Every instruction that has a command word decodes from it, a pseudo-instruction as its expansion (R115, R125). -/
theorem decode_encode_of_encodeWord {i : Instr} {w : Word} (h : encodeWord i = some w) :
    decode (encode i) = .ok i.expand := by
  cases i with
  | pwmInit a => exact decode_of_word (Encoding.pwmInit a) fun _ => decodeWord_pwmInit
  | pwmFreq hz => exact decode_of_word (Encoding.pwmFreq hz) fun _ => decodeWord_pwmFreq
  | pwmChan ch duty => exact decode_of_word (Encoding.pwmChan ch duty) fun _ => decodeWord_pwmChan
  | wsEncM8 n => exact decode_of_word (Encoding.wsEncM8 n) fun _ hw => decodeWord_wsEnc 0 (by simpa using hw)
  | wsEncM4 n => exact decode_of_word (Encoding.wsEncM4 n) fun _ => decodeWord_wsEnc 1
  | wsEncAuto n => exact decode_of_word (Encoding.wsEncAuto n) fun _ => decodeWord_wsEnc 2
  | wsTx => exact decode_of_word Encoding.wsTx fun _ => decodeWord_wsTx
  | wsShowM8 n => exact decode_of_word (Encoding.wsShowM8 n) fun _ hw => decodeWord_wsShow 0 (by simpa using hw)
  | wsShowM4 n => exact decode_of_word (Encoding.wsShowM4 n) fun _ => decodeWord_wsShow 1
  | wsShowAuto n => exact decode_of_word (Encoding.wsShowAuto n) fun _ => decodeWord_wsShow 2
  | pwmZero ch => exact decode_of_word (Encoding.pwmZero ch) fun _ hw =>
    decodeWord_pwmChan (duty := 0) (by simpa using hw)
  | wsFrame n => exact decode_of_word (Encoding.wsFrame n) fun _ => decodeWord_wsShow 2
  | i2cWr a r d => exact absurd h (by simp [encodeWord, encode])
  | i2cRd a r => exact absurd h (by simp [encodeWord, encode])
  | i2cGc d => exact absurd h (by simp [encodeWord, encode])

/-! ### The unit a command belongs to -/

/-- An accepted word is a command of unit P when its opcode is at most 0x03 and a W command when it is at least 0x10
(R113). -/
theorem decodeWord_unit {w : Word} {i : Instr} (h : decodeWord w = .ok i) :
    (w.toNat / 2 ^ 24 ≤ 0x03 ∧ ∃ c, ∀ s, exec i s = issuePwm c s)
      ∨ (0x10 ≤ w.toNat / 2 ^ 24 ∧ ∃ c, ∀ s, exec i s = issueWs c s) := by
  rcases opcode_cases (w.toNat / 2 ^ 24) with hop | hop | hop | hop | hop | hop | hop
  · rw [decodeWord_opcode_01 hop] at h
    cases (guardReserved_ok h).2
    exact .inl ⟨by omega, _, fun _ => rfl⟩
  · rw [decodeWord_opcode_02 hop] at h
    cases (guardReserved_ok h).2
    exact .inl ⟨by omega, _, fun _ => rfl⟩
  · rw [decodeWord_opcode_03 hop] at h
    cases (guardReserved_ok h).2
    exact .inl ⟨by omega, _, fun _ => rfl⟩
  · rw [decodeWord_opcode_10 hop] at h
    rcases byMode_ok (guardReserved_ok h).2 with ⟨-, rfl⟩ | ⟨-, rfl⟩ | ⟨-, rfl⟩ <;>
      exact .inr ⟨by omega, _, fun _ => rfl⟩
  · rw [decodeWord_opcode_11 hop] at h
    cases (guardReserved_ok h).2
    exact .inr ⟨by omega, _, fun _ => rfl⟩
  · rw [decodeWord_opcode_12 hop] at h
    rcases byMode_ok (guardReserved_ok h).2 with ⟨-, rfl⟩ | ⟨-, rfl⟩ | ⟨-, rfl⟩ <;>
      exact .inr ⟨by omega, _, fun _ => rfl⟩
  · rw [decodeWord_unknownOpcode hop] at h
    cases h

/-- Settles O5: the words and frames of the table, each run through the decoder. -/
theorem specWordsDecode : Obligations.SpecWordsDecode := by
  unfold Obligations.SpecWordsDecode
  decide

end Sys2Proof
end

section
/-! Rejection at an idle port (spec/30_encoding.md R114, R115): an illegal word, a word of the other unit, or an operand
value the command does not take completes at once, and only the port changes. -/

namespace Sys2Proof.Machine

open Sys2Proof.Safety

section Pwm

variable {s : State} {p : Nat} {P : PwmPort} (hP : s.unitP.ports[p]? = some P)
include hP

/-- A completion with any code but `OK` and `BUS_ERROR` changes the port's `STATUS` and `SEQ` and nothing else. -/
theorem completePwm_rejected {code : ErrCode} (hok : code ≠ .ok) (hbus : code ≠ .busError) :
    completePwm p code 0 s =
      setPort p { P with status := { busy := false, failStep := 0, err := code }, seq := [] } s := by
  rw [completePwm_some hP, completeEffect_rejected _ _ hok hbus]
  rfl

theorem issuePwm_rejected (hsel : s.sel = .pwm p) (hidle : P.status.busy = false) {c : PwmCmd} {code : ErrCode}
    (hc : validate c = some code) :
    issuePwm c s =
      .next (setPort p { P with status := { busy := false, failStep := 0, err := code }, seq := [] } s) := by
  obtain ⟨hok, hbus⟩ := validate_code hc
  simp only [issuePwm_at hsel hP, hidle, hc, completePwm_rejected hP hok hbus, Bool.false_eq_true, if_false]

end Pwm

section Ws

variable {s : State} {i q : Nat} {u : WUnit} {P : WPort} (hu : s.strips[i]? = some u) (hP : u.ports[q]? = some P)
  (hq : ∀ e ∈ u.queue, e.1 ≠ q)
include hu hP hq

/-- A completion of a port that is not queued changes the port's `STATUS` and nothing else. -/
theorem completeWs_unqueued (code : ErrCode) :
    completeWs i q code 0 s =
      setStrip i (setWPort q { P with status := { busy := false, failStep := 0, err := code } } u) s := by
  rw [completeWs_some hu, completeUnit_some hP, dropQueued_none hq]
  rfl

theorem issueWs_rejected (hsel : s.sel = .ws i q) (hidle : P.status.busy = false) (c : WsCmd)
    (hc : ibufSize u.conf < c.count) :
    issueWs c s =
      .next
        (setStrip i (setWPort q { P with status := { busy := false, failStep := 0, err := .bufferRange } } u) s) := by
  simp only [issueWs_at hsel hu hP, hidle, hc, completeWs_unqueued hu hP hq, Bool.false_eq_true, if_false, if_true]

end Ws

/-! ### A word that is illegal at its port -/

/-- At a PWM port a word is illegal if it is reserved or a W command (R114). -/
theorem runWord_pwm_illegal {w : Word} (h : ReservedWord w ∨ 0x10 ≤ w.toNat / 2 ^ 24) (p : Nat) (s : State) :
    runWord (.pwm p) w s = issueIllegal { storeCmd (.pwm p) w s with sel := .pwm p } := by
  cases hd : decodeWord w with
  | error e => simp only [runWord, hd]
  | ok i =>
    have hopc := h.resolve_left (not_reservedWord_of_decodeWord_ok hd)
    obtain ⟨hle, -⟩ | ⟨-, c, hc⟩ := decodeWord_unit hd
    · omega
    · simp only [runWord, hd, hc, issueWs]

/-- At a W port a word is illegal if it is reserved or a command of unit P (R114). -/
theorem runWord_ws_illegal {w : Word} (h : ReservedWord w ∨ w.toNat / 2 ^ 24 ≤ 0x03) (i q : Nat) (s : State) :
    runWord (.ws i q) w s = issueIllegal { storeCmd (.ws i q) w s with sel := .ws i q } := by
  cases hd : decodeWord w with
  | error e => simp only [runWord, hd]
  | ok instr =>
    have hopc := h.resolve_left (not_reservedWord_of_decodeWord_ok hd)
    obtain ⟨-, c, hc⟩ | ⟨hge, -⟩ := decodeWord_unit hd
    · simp only [runWord, hd, hc, issuePwm]
    · omega

/-- Settles O6: such a word is `issueIllegal` at its port, and the completion there leaves the word in `CMD`. -/
theorem illegalWordRejected : Obligations.IllegalWordRejected := by
  refine ⟨reservedWord_iff_decodeWord_error, fun s p P w hP hidle hw => ?pwm,
    fun s i q u P w hu hform hP hidle hw => ?ws⟩
  case pwm =>
    have hP' := getElem?_set_of_some (y := { P with cmd := some w }) hP
    rw [runWord_pwm_illegal hw, storeCmd_pwm hP, issueIllegal_pwm rfl hP', if_neg (by simp [hidle]),
      completePwm_rejected hP' (by decide) (by decide)]
    simp [setPort]
  case ws =>
    have hu' := getElem?_set_of_some (y := setWPort q { P with cmd := some w } u) hu
    have hP' := getElem?_set_of_some (y := { P with cmd := some w }) hP
    have hq := idle_not_queued hform hP hidle
    rw [runWord_ws_illegal hw, storeCmd_ws hu hP, issueIllegal_ws rfl hu' hP', if_neg (by simp [hidle]),
      completeWs_unqueued (u := setWPort q { P with cmd := some w } u) hu' hP' hq]
    simp [setStrip, setWPort]

/-- Settles O11: the words decode as encoded, and each command's own check fails at the idle port. -/
theorem valueErrorRejected : Obligations.ValueErrorRejected := by
  refine ⟨fun i ⟨w, hw⟩ => decode_encode_of_encodeWord hw, fun s p P hsel hP hidle => ?pwm,
    fun s i q u P n hsel hu hform hP hidle hn => ?ws⟩
  case pwm =>
    refine ⟨issuePwm_rejected hP hsel hidle (c := .init 0) rfl, issuePwm_rejected hP hsel hidle (c := .freq 0) rfl,
      fun ch hch => ?_⟩
    have hv (duty : BitVec 12) : validate (.chan ch duty) = some .invalidChannel := if_pos hch
    exact ⟨fun duty => issuePwm_rejected hP hsel hidle (hv duty), issuePwm_rejected hP hsel hidle (hv 0)⟩
  case ws =>
    have hq := idle_not_queued hform hP hidle
    have rejected (c : WsCmd) (hc : c.count = n.toNat) := issueWs_rejected hu hP hq hsel hidle c (hc ▸ hn)
    simp only [List.forall_mem_cons]
    exact ⟨rejected (.enc .m8 n) rfl, rejected (.enc .m4 n) rfl, rejected (.enc .auto n) rfl,
      rejected (.display .m8 n) rfl, rejected (.display .m4 n) rfl, rejected (.display .auto n) rfl,
      rejected (.display .auto n) rfl, by simp⟩

end Sys2Proof.Machine
end

section
/-! The register `PRE_SCALE` written (spec/40_pwm_slave.md R152), and what a register read at the slave's own address
answers: the byte of each kind of register (R143, R145, R153) and the machine after the transaction. -/

namespace Sys2Proof.Machine

/-! ### The prescale write -/

theorem asleep_eq_testBit (sl : Slave) : asleep sl = (srRead sl 0x00).toNat.testBit 4 := by
  rw [testBit_eq_getLsbD, asleep]

theorem slaveWrite_prescale (d : Byte) (sl : Slave) : slaveWrite 0xFE d sl = .ok (prescaleWrite d sl) := rfl

/-- The byte a sleeping slave stores for the written `d`. -/
theorem prescaleRaised_toNat (d : Byte) :
    (if d.toNat < Config.prescaleMin then BitVec.ofNat 8 Config.prescaleMin else d).toNat = max d.toNat 3 := by
  unfold Config.prescaleMin
  split
  · rw [Nat.max_eq_right (by omega)]; rfl
  · rw [Nat.max_eq_left (by omega)]

section Prescale

variable {sl : Slave} (d : Byte)

theorem prescaleWrite_awake (h : asleep sl = false) : prescaleWrite d sl = sl := if_neg (by simp [h])

theorem prescaleWrite_osc : (prescaleWrite d sl).osc = sl.osc := by
  unfold prescaleWrite; split <;> rfl

theorem srRead_prescaleWrite_other {r : Nat} (hr : r ≠ 0xFE) : srRead (prescaleWrite d sl) r = srRead sl r := by
  unfold prescaleWrite
  split
  · exact srRead_srWrite_other hr _
  · rfl

theorem srRead_prescaleWrite_asleep (hwf : Memory.wf slaveReset sl.sr) (h : asleep sl = true) :
    (srRead (prescaleWrite d sl) 0xFE).toNat = max d.toNat 3 := by
  rw [prescaleWrite, if_pos h, srRead_srWrite_same hwf, prescaleRaised_toNat]

end Prescale

/-- Settles O18: a write of `PRE_SCALE` is `prescaleWrite`, which asks whether the slave sleeps. -/
theorem prescaleWriteValue : Obligations.PrescaleWriteValue := by
  intro sl d hwf
  rw [slaveWrite_prescale, ← asleep_eq_testBit]
  refine ⟨fun hasleep => ?_, fun hawake => by rw [prescaleWrite_awake d hawake]⟩
  exact ⟨prescaleWrite d sl, rfl, srRead_prescaleWrite_asleep d hwf hasleep, prescaleWrite_osc d,
    fun r hr => srRead_prescaleWrite_other d hr⟩

/-! ### The byte of a register read -/

section Read

variable {reg : Byte} (free : Byte) (sl : Slave)

/-- `MODE1` reads bits 5:0 as stored and bit 6 as 0; bit 7 is drawn (R145). -/
theorem slaveRead_mode1 : (slaveRead 0x00 free sl).toNat % 128 = (srRead sl 0x00).toNat % 64 := by
  have hread : slaveRead 0x00 free sl = (free &&& 0x80) ||| (srRead sl 0x00 &&& 0x3F) := rfl
  have hdrawn : (free.toNat &&& 0x80) % 2 ^ 7 = 0 := by rw [Nat.and_mod_two_pow]; exact Nat.and_zero _
  have hstored : (srRead sl 0x00).toNat &&& 0x3F = (srRead sl 0x00).toNat % 64 :=
    Nat.and_two_pow_sub_one_eq_mod _ 6
  calc (slaveRead 0x00 free sl).toNat % 128
      = ((free.toNat &&& 0x80) ||| ((srRead sl 0x00).toNat &&& 0x3F)) % 2 ^ 7 := by rw [hread]; rfl
    _ = (srRead sl 0x00).toNat % 64 % 2 ^ 7 := by rw [Nat.or_mod_two_pow, hdrawn, hstored, Nat.zero_or]
    _ = (srRead sl 0x00).toNat % 64 := by omega

/-- The address registers read bits 7:1 as stored; bit 0 is drawn (R153). -/
theorem slaveRead_address (hlo : 0x02 ≤ reg.toNat) (hhi : reg.toNat ≤ 0x05) :
    (slaveRead reg free sl).toNat / 2 = (srRead sl reg.toNat).toNat / 2 := by
  have hread : slaveRead reg free sl = (srRead sl reg.toNat &&& 0xFE) ||| (free &&& 0x01) := by
    simp only [slaveRead]; rw [if_neg (by omega), if_neg (by omega), if_pos hhi]
  have hstored : (srRead sl reg.toNat).toNat / 2 &&& 0x7F = (srRead sl reg.toNat).toNat / 2 % 128 :=
    Nat.and_two_pow_sub_one_eq_mod _ 7
  have hbyte := (srRead sl reg.toNat).isLt
  calc (slaveRead reg free sl).toNat / 2
      = (((srRead sl reg.toNat).toNat &&& 0xFE) ||| (free.toNat &&& 0x01)) / 2 := by rw [hread]; rfl
    _ = (((srRead sl reg.toNat).toNat / 2 &&& 0x7F) ||| (free.toNat / 2 &&& 0)) := by
        rw [Nat.or_div_two, Nat.and_div_two, Nat.and_div_two]
    _ = (srRead sl reg.toNat).toNat / 2 := by rw [Nat.and_zero, Nat.or_zero, hstored]; omega

/-- `MODE2`, the LED registers and `PRE_SCALE` read as stored (R143). -/
theorem slaveRead_stored (h : reg = 0x01 ∨ (0x06 ≤ reg.toNat ∧ reg.toNat ≤ 0x45) ∨ reg = 0xFE) :
    slaveRead reg free sl = srRead sl reg.toNat := by
  obtain rfl | ⟨hlo, hhi⟩ | rfl := h
  · rfl
  · simp only [slaveRead]
    rw [if_neg (by omega), if_neg (by omega), if_neg (by omega), if_pos hhi]
  · rfl

end Read

/-! ### A register read as a transaction -/

theorem afterDraw_only_env (s : State) : afterDraw s = { s with env := (afterDraw s).env } := by
  unfold afterDraw; split <;> rfl

/-- A register read at the slave's own address, drawn `OK` on a bus that is not hung (41_pwm_commands.md R194). -/
theorem transactRd_own (s : State) (reg : Byte) (hbus : s.unitP.i2cHung = false) (hdraw : nextDraw s = .ok)
    (haddr : s.cfg.slaveAddr ≠ 0) :
    transactRd s.cfg.slaveAddr reg s =
      let v := slaveRead reg (freeByte (afterDraw s) 0) s.slave
      (.ok (some v),
        logBus { kind := .rd, a7 := s.cfg.slaveAddr, reg := some reg, data := some v, outcome := .ok }
          (advance freePerTransaction (afterDraw s))) := by
  simp only [transactRd, hbus, hdraw, decodeAddr_own s haddr, Bool.false_eq_true, if_false]

/-- Settles O22: the read answers the byte of `slaveRead`, and only the log, the draws and the waiting port move. -/
theorem registerReadCompletes : Obligations.RegisterReadCompletes := by
  intro s reg hbus hdraw haddr
  refine ⟨slaveRead reg (freeByte (afterDraw s) 0) s.slave, ?_, fun h => ?_, slaveRead_address _ _,
    slaveRead_stored _ _⟩
  · rw [exec, execI2cRd, perform, transactRd_own s reg hbus hdraw haddr, afterDraw_only_env s]
    rfl
  · subst h; exact slaveRead_mode1 _ _

end Sys2Proof.Machine
end

section
/-! The step of a sequencer context (spec/41_pwm_commands.md R192, R196, R232) and the effect of a completion on `F_CONF`
(R213). -/

namespace Sys2Proof.Machine

/-! ### The same-channel hold -/

theorem earlierSameChannel_iff (ch : BitVec 8) (mine : Nat) (Q : PwmPort) :
    earlierSameChannel ch (some mine) Q = true
      ↔ Q.status.busy = true ∧ ∃ d k, Q.op = some (.chan ch d) ∧ Q.stamp = some k ∧ k < mine := by
  unfold earlierSameChannel
  rw [Bool.and_eq_true]
  refine and_congr_right fun _ => ?_
  split
  next ch' d k m hop hstamp hmine =>
    cases hmine
    simp only [hop, hstamp, Bool.and_eq_true, beq_iff_eq, decide_eq_true_eq, Option.some.injEq, PwmCmd.chan.injEq]
    constructor
    · rintro ⟨rfl, hlt⟩; exact ⟨d, k, ⟨rfl, rfl⟩, rfl, hlt⟩
    · rintro ⟨_, _, ⟨rfl, -⟩, rfl, hlt⟩; exact ⟨rfl, hlt⟩
  next hnot =>
    refine iff_of_false Bool.false_ne_true ?_
    rintro ⟨d, k, hop, hstamp, -⟩
    exact hnot ch d k mine hop hstamp rfl

theorem heldByChannel_iff {P : PwmPort} {ch : BitVec 8} {duty : BitVec 12} {mine : Nat}
    (hop : P.op = some (.chan ch duty)) (hstamp : P.stamp = some mine) (ports : List PwmPort) (p : Nat) :
    heldByChannel ports p P = true
      ↔ ∃ q Q d k, q ≠ p ∧ ports[q]? = some Q ∧ Q.status.busy = true ∧ Q.op = some (.chan ch d)
        ∧ Q.stamp = some k ∧ k < mine := by
  simp only [heldByChannel, hop, hstamp, List.any_eq_true, List.mem_range, Bool.and_eq_true, bne_iff_ne]
  constructor
  · rintro ⟨q, hq, hne, h⟩
    rw [List.getElem?_eq_getElem hq] at h
    obtain ⟨hbusy, d, k, hQ⟩ := (earlierSameChannel_iff ch mine _).1 h
    exact ⟨q, ports[q], d, k, hne, List.getElem?_eq_getElem hq, hbusy, hQ⟩
  · rintro ⟨q, Q, d, k, hne, hQ, hbusy, hearlier⟩
    refine ⟨q, (List.getElem?_eq_some_iff.1 hQ).1, hne, ?_⟩
    simp only [hQ, earlierSameChannel_iff]
    exact ⟨hbusy, d, k, hearlier⟩

/-! ### The next micro-op and the step that takes it -/

section NextMicroOp

variable {ports : List PwmPort} {p : Nat} {P : PwmPort} (hP : ports[p]? = some P)
include hP

theorem nextMicroOp_held (hheld : heldByChannel ports p P = true) : nextMicroOp ports p = none := by
  simp only [nextMicroOp, hP, hheld, Bool.not_true, Bool.and_false, Bool.false_eq_true, if_false]

/-- A busy port that is neither stuck nor held takes the micro-op at `upc`: none, if it is past its end. -/
theorem nextMicroOp_of_not_held (hbusy : P.status.busy = true) (hstuck : P.stuck = false)
    (hheld : heldByChannel ports p P = false) : nextMicroOp ports p = P.seq[P.upc.toNat]? := by
  simp only [nextMicroOp, hP, PwmPort.pending, hbusy, hstuck, hheld, Bool.true_and, Bool.not_false, Bool.and_true,
    decide_eq_true_eq]
  split
  · rfl
  next hend => exact (List.getElem?_eq_none (Nat.le_of_not_lt hend)).symm

end NextMicroOp

theorem step_seq {s : State} {p : Nat} {rest : List Agent} (hsched : s.env.sched = .seq p :: rest) :
    step s = seqStep p { s with env := { s.env with sched := rest } } := step_of_sched hsched

theorem seqStep_of_none {s : State} {p : Nat} (h : nextMicroOp s.unitP.ports p = none) : seqStep p s = .next s := by
  simp only [seqStep, h]

theorem seqStep_of_wait {s : State} {p us : Nat} (h : nextMicroOp s.unitP.ports p = some (.wait us)) :
    seqStep p s = .next (if waitEnabled s.slave.osc us then settle p (.ok none) s else s) := by
  simp only [seqStep, h]

theorem waitEnabled_iff (o : Osc) (us : Nat) : waitEnabled o us = true ↔ ¬(500 ≤ us ∧ o = .waking) := by
  simp only [waitEnabled, Bool.not_eq_true', ← Bool.not_eq_true, Bool.and_eq_true, decide_eq_true_eq, beq_iff_eq]
  rfl

/-- Settles O31: the hold is `heldByChannel`; while it lasts the port has no next micro-op, and after it the one at
`upc`. -/
theorem sameChannelHold : Obligations.SameChannelHold := by
  intro s p rest P c duty mine hsched hP hop hstamp earlier
  have hheld : heldByChannel s.unitP.ports p P = true ↔ earlier := heldByChannel_iff hop hstamp _ _
  refine ⟨fun h => ?_, fun h hbusy hstuck _ => ?_⟩
  · rw [step_seq hsched]
    exact seqStep_of_none (nextMicroOp_held hP (hheld.2 h))
  · exact nextMicroOp_of_not_held hP hbusy hstuck (Bool.eq_false_iff.2 (mt hheld.1 h))

/-- Settles O29: the step asks `waitEnabled`, and nothing of the bus. -/
theorem waitRule : Obligations.WaitRule := by
  intro s p rest P us hsched hP hbusy hstuck hseq hheld s0
  have hnext : nextMicroOp s0.unitP.ports p = some (.wait us) :=
    (nextMicroOp_of_not_held hP hbusy hstuck hheld).trans hseq
  have hstep : step s = .next (if waitEnabled s.slave.osc us then settle p (.ok none) s0 else s0) :=
    (step_seq hsched).trans (seqStep_of_wait hnext)
  refine ⟨fun h => ?_, fun h => ?_⟩
  · rw [hstep, if_neg (mt (waitEnabled_iff _ _).1 (not_not_intro h))]
  · rw [hstep, if_pos ((waitEnabled_iff _ _).2 h)]

/-! ### Completion and `F_CONF` -/

/-- Completion of a command that is no `pwm.freq` leaves `F_CONF` alone, whatever the code (R213). -/
theorem completeEffect_not_freq {o : Option PwmCmd} (h : ∀ hz, o ≠ some (.freq hz)) (code : ErrCode) (f : FConf) :
    completeEffect o code f = f := by
  unfold completeEffect
  split
  next hz => exact absurd rfl (h hz)
  next hz => exact absurd rfl (h hz)
  next => rfl

/-- Settles O33: completion of a port that is there sets `F_CONF` by `completeEffect`. -/
theorem freqCompletionEffect : Obligations.FreqCompletionEffect := by
  intro s p P code failStep hP f
  have hf : f = completeEffect P.op code s.unitP.fConf := by simp only [f, completePwm_some hP]
  rw [hf]
  refine ⟨fun hz hop => ?_, fun hop => completeEffect_not_freq hop code _⟩
  rw [hop]
  exact ⟨fun hok => by rw [hok]; rfl, fun hbus => by rw [hbus]; rfl, completeEffect_rejected _ _⟩

end Sys2Proof.Machine
end

section
/-! The prescale (spec/41_pwm_commands.md R212): the rounded quotient is within one half of the exact one, and even where
it is a tie; `PRE_SCALE` gets it clamped to 3..255. -/

namespace Sys2Proof.Machine

/-! ### Rounding half to even -/

section Rounding

variable {n d : Int} (hd : 0 < d)
include hd

/-- The rounded quotient `r` lies within one half of `n / d`: `2 r - 1 ≤ 2 n / d ≤ 2 r + 1`. -/
theorem roundHalfEven_near :
    (2 * roundHalfEven n d - 1) * d ≤ 2 * n ∧ 2 * n ≤ (2 * roundHalfEven n d + 1) * d := by
  have hdiv : n = n / d * d + n % d := (Int.ediv_mul_add_emod n d).symm
  have hnonneg := Int.emod_nonneg n hd.ne'
  have hlt := Int.emod_lt_of_pos n hd
  simp only [roundHalfEven]
  generalize n / d = f, n % d = r at *
  split_ifs <;> constructor <;> linarith

/-- At a tie the rounded quotient is even. -/
theorem roundHalfEven_even_of_tie {m : Int} (h : 2 * n = (2 * m + 1) * d) : roundHalfEven n d % 2 = 0 := by
  obtain ⟨hquot, hrem⟩ : n / d = m ∧ n % d = n - d * m :=
    (Int.ediv_emod_unique hd).2 ⟨sub_add_cancel n _, by linarith, by linarith⟩
  have hhalf : 2 * (n - d * m) = d := by linarith
  simp only [roundHalfEven, hquot, hrem, hhalf, lt_irrefl, if_false]
  split_ifs <;> omega

theorem roundHalfEven_le {m : Int} (h : 2 * n < (2 * m + 1) * d) : roundHalfEven n d ≤ m := by
  have := lt_of_mul_lt_mul_right ((roundHalfEven_near hd).1.trans_lt h) hd.le
  omega

theorem le_roundHalfEven {m : Int} (h : (2 * m - 1) * d < 2 * n) : m ≤ roundHalfEven n d := by
  have := lt_of_mul_lt_mul_right (h.trans_le (roundHalfEven_near hd).2) hd.le
  omega

/-- Half way between `m` and `m + 1`, the quotient rounds to the even one. -/
theorem roundHalfEven_of_tie {m : Int} (h : 2 * n = (2 * m + 1) * d) :
    roundHalfEven n d = if m % 2 = 0 then m else m + 1 := by
  have heven := roundHalfEven_even_of_tie hd h
  have hge : m ≤ roundHalfEven n d := le_roundHalfEven hd (by linarith)
  have hle : roundHalfEven n d ≤ m + 1 := roundHalfEven_le hd (by linarith)
  split_ifs <;> omega

end Rounding

/-! ### The clamped value -/

/-- `PRE_SCALE` as a number: the rounded quotient, clamped; the clamp fits a byte. -/
theorem prescale_toNat (num hz : Nat) :
    ((prescale num hz).toNat : Int) =
      min (max (roundHalfEven (num - 4096 * (hz : Int)) (4096 * hz)) 3) 255 := by
  change ((BitVec.ofInt 8 (min (max (roundHalfEven (num - 4096 * (hz : Int)) (4096 * hz)) 3) 255)).toNat : Int) = _
  rw [BitVec.toNat_ofInt]
  omega

section Prescale

variable {num hz : Nat} (hhz : 0 < hz)
include hhz

theorem prescaleDenom_pos : (0 : Int) < 4096 * hz := by omega

theorem prescale_of_near {k : Nat} (hlo3 : 3 ≤ k) (hhi255 : k ≤ 255) (hlo : (2 * k + 1) * (2048 * hz) < num)
    (hhi : num < (2 * k + 3) * (2048 * hz)) : (prescale num hz).toNat = k := by
  have hd := prescaleDenom_pos hhz
  zify at hlo hhi
  have hle := roundHalfEven_le hd (n := num - 4096 * (hz : Int)) (m := k) (by linarith)
  have hge := le_roundHalfEven hd (n := num - 4096 * (hz : Int)) (m := k) (by linarith)
  have := prescale_toNat num hz
  omega

theorem prescale_of_tie {k : Nat} (hlo3 : 3 ≤ k) (hhi254 : k ≤ 254) (htie : num = (2 * k + 3) * (2048 * hz)) :
    (prescale num hz).toNat = if k % 2 = 0 then k else k + 1 := by
  have hd := prescaleDenom_pos hhz
  zify at htie
  have hround := roundHalfEven_of_tie hd (n := num - 4096 * (hz : Int)) (m := k) (by linarith)
  have := prescale_toNat num hz
  split_ifs at hround ⊢ <;> omega

theorem prescale_of_le (h : num ≤ 7 * (2048 * hz)) : (prescale num hz).toNat = 3 := by
  have hle := roundHalfEven_le (prescaleDenom_pos hhz) (n := num - 4096 * (hz : Int)) (m := 3) (by omega)
  have := prescale_toNat num hz
  omega

theorem prescale_of_ge (h : 513 * (2048 * hz) ≤ num) : (prescale num hz).toNat = 255 := by
  have hge := le_roundHalfEven (prescaleDenom_pos hhz) (n := num - 4096 * (hz : Int)) (m := 255) (by omega)
  have := prescale_toNat num hz
  omega

/-- With `PRESCALE_NUM` = 2400 the quotient lies between -1 and -0.41. -/
theorem roundHalfEven_2400 :
    roundHalfEven (2400 - 4096 * (hz : Int)) (4096 * hz) = 0
      ∨ roundHalfEven (2400 - 4096 * (hz : Int)) (4096 * hz) = -1 := by
  have hle := roundHalfEven_le (prescaleDenom_pos hhz) (n := 2400 - 4096 * (hz : Int)) (m := 0) (by omega)
  have hge := le_roundHalfEven (prescaleDenom_pos hhz) (n := 2400 - 4096 * (hz : Int)) (m := -1) (by omega)
  omega

end Prescale

/-- A numerator that 2048 does not divide gives no tie. -/
theorem no_tie_of_not_dvd {num : Nat} (h : ¬2048 ∣ num) (k hz : Nat) : num ≠ (2 * k + 1) * (2048 * hz) :=
  fun htie => h (htie ▸ (Dvd.intro hz rfl).mul_left _)

/-- Settles O54: `prescale` is the rounded quotient clamped, and `roundHalfEven` is within one half of the exact one. -/
theorem prescaleValue : Obligations.PrescaleValue := by
  refine ⟨fun num hz hhz => ⟨fun k => prescale_of_near hhz, fun k => prescale_of_tie hhz, prescale_of_le hhz,
    prescale_of_ge hhz⟩, fun hz hhz => ⟨by omega, roundHalfEven_2400 hhz, ?value, fun k => ?noTie⟩, by decide, by decide⟩
  case value => exact BitVec.eq_of_toNat_eq (prescale_of_le hhz (by omega))
  case noTie => exact ⟨no_tie_of_not_dvd (by decide) k hz, no_tie_of_not_dvd (by decide) k hz⟩

end Sys2Proof.Machine
end

section
/-! The clock divider (spec/42_ws2812_encoder.md R256, R264): the ceiling of `F_REF` over the target clock, clamped to
1..`DIV_MAX`, and the `SYNTH` and `LATCH` steps of a W unit (R256, R257, R262). -/

namespace Sys2Proof.Machine

/-! ### The divider -/

theorem bitsPerSymbol_eq_ite (m : Packing) : bitsPerSymbol m = if m = .m8 then 8 else 4 := by cases m <;> rfl

section Ceiling

variable {a b : Nat} (hb : 0 < b)
include hb

theorem ceilDiv_le_iff {k : Nat} : ceilDiv a b ≤ k ↔ a ≤ b * k := ceilDiv_le_iff_le_mul hb

theorem ceilDiv_pos (ha : 0 < a) : 0 < ceilDiv a b := not_le.1 (mt (ceilDiv_le_iff hb).1 (by omega))

theorem le_mul_ceilDiv : a ≤ b * ceilDiv a b := (ceilDiv_le_iff hb).1 le_rfl

theorem mul_ceilDiv_lt (ha : 0 < a) : b * ceilDiv a b < a + b := by
  have hpos := ceilDiv_pos hb ha
  have hpred : ¬a ≤ b * (ceilDiv a b - 1) := mt (ceilDiv_le_iff hb).2 (by omega)
  rw [Nat.mul_sub_one] at hpred
  omega

end Ceiling

section Divider

variable {c : StripConfig} {m : Packing} {target : Nat} (htarget : c.clockHz * bitsPerSymbol m = target)
include htarget

theorem divider_eq : divider c m = min (max (ceilDiv c.fRef target) 1) c.divMax := by rw [divider, htarget]

variable (hpos : 0 < target)
include hpos

theorem divider_of_le (hf : 0 < c.fRef) (h : c.fRef ≤ c.divMax * target) :
    divider c m = ceilDiv c.fRef target := by
  have hle : ceilDiv c.fRef target ≤ c.divMax := (ceilDiv_le_iff hpos).2 (by rwa [Nat.mul_comm])
  have hge := ceilDiv_pos hpos hf
  rw [divider_eq htarget]
  omega

theorem divider_of_gt (h : c.divMax * target < c.fRef) : divider c m = c.divMax := by
  have hgt : ¬ceilDiv c.fRef target ≤ c.divMax := mt (ceilDiv_le_iff hpos).1 (by rwa [Nat.mul_comm, Nat.not_le])
  rw [divider_eq htarget]
  omega

theorem divider_of_le_target (hmax : 0 < c.divMax) (h : c.fRef ≤ target) : divider c m = 1 := by
  have hle : ceilDiv c.fRef target ≤ 1 := (ceilDiv_le_iff hpos).2 (by rwa [Nat.mul_one])
  rw [divider_eq htarget]
  omega

end Divider

/-- Settles O44: without the clamp the divider is the ceiling of `F_REF` over `target`, and a ceiling times `target` lies
in `F_REF` .. `F_REF` + `target`, the upper end left out. -/
theorem dividerBounds : Obligations.DividerBounds := by
  refine ⟨?bounds, fun c hf hclock hmax => ?ruleExample⟩
  case bounds =>
    intro c m target div hclock hf hmax
    have htarget : c.clockHz * bitsPerSymbol m = target := by rw [bitsPerSymbol_eq_ite]
    have hpos : 0 < target := Nat.mul_pos hclock (by split <;> decide)
    refine ⟨fun h => ?_, fun h => ?_, fun h => divider_of_le_target htarget hpos hmax h.le⟩
    · have hdiv : div = _ := divider_of_le htarget hpos hf h
      rw [hdiv, Nat.mul_comm]
      exact ⟨le_mul_ceilDiv hpos, mul_ceilDiv_lt hpos hf⟩
    · have hdiv : div = _ := divider_of_gt htarget hpos h
      exact ⟨hdiv, by rwa [hdiv]⟩
  case ruleExample =>
    simp only [divider, hf, hclock, bitsPerSymbol, ceilDiv]
    omega

/-! ### The step of the head command -/

theorem emptyTx_eq_false {c : WsCmd} {P : WPort} {u : WUnit} (h : ¬(c = .tx ∧ P.upc = 0 ∧ u.olen = 0)) :
    emptyTx c P u = false := by
  simpa [emptyTx, and_assoc] using h

section Head

variable {s : State} {i q : Nat} {u : WUnit} {P : WPort} {c : WsCmd}

/-- A scheduled unit that may step takes the step of the command at the head of its queue (R262). -/
theorem step_unit_head {qs : List (Nat × WsCmd)} {rest : List Agent} (hsched : s.env.sched = .unit i :: rest)
    (hu : s.strips[i]? = some u) (hstop : u.stopped = false) (hhung : u.spiHung = false) (hq : u.queue = (q, c) :: qs)
    (hP : u.ports[q]? = some P) :
    step s = .next (headStep i q P c u { s with env := { s.env with sched := rest } }) := by
  simp only [step_of_sched hsched, agentStep, unitStep, hu, hstop, hhung, hq, hP, Bool.or_false, Bool.false_eq_true,
    if_false]

variable (hempty : emptyTx c P u = false)
include hempty

theorem headStep_synth (h : (wsSteps c)[P.upc.toNat]? = some .synth) :
    headStep i q P c u s = setStrip i (bumpStep q P (synth u)) s := by
  simp only [headStep, hempty, h, Bool.false_eq_true, if_false]

theorem headStep_latch (h : (wsSteps c)[P.upc.toNat]? = some .latch) :
    headStep i q P c u s = setStrip i (latchUnit q P u) s := by
  simp only [headStep, hempty, h, Bool.false_eq_true, if_false]

end Head

theorem latchUnit_head {q : Nat} {P : WPort} {c : WsCmd} {u : WUnit} {qs : List (Nat × WsCmd)}
    (hq : u.queue = (q, c) :: qs) (hP : u.ports[q]? = some P) :
    latchUnit q P u =
      { u with
        trace := u.trace ++ [.latch], txState := .idle, queue := qs
        ports := u.ports.set q { P with status := Status.completed .ok 0, upc := P.upc + 1 } } :=
  completeUnit_bumpStep (u := { u with trace := u.trace ++ [.latch], txState := .idle }) hq hP .ok 0

/-- Settles O42: the head command is at its `SYNTH` or its `LATCH`; the step is `synth` or `latchUnit`. -/
theorem synthAndLatch : Obligations.SynthAndLatch := by
  intro s i q u P c qs rest hsched hu hstop hhung hq hP becomes isShow target
  rw [step_unit_head hsched hu hstop hhung hq hP]
  refine ⟨fun h => ?synth, fun h => ?latch⟩
  case synth =>
    have hat : emptyTx c P u = false ∧ (wsSteps c)[P.upc.toNat]? = some .synth := by
      obtain ⟨rfl, hupc, holen⟩ | ⟨⟨mode, n, rfl⟩, hupc⟩ := h
      · exact ⟨emptyTx_eq_false fun h => holen h.2.2, by rw [hupc]; rfl⟩
      · exact ⟨rfl, by rw [hupc]; rfl⟩
    have htarget : u.conf.clockHz * bitsPerSymbol u.omode = target := by rw [bitsPerSymbol_eq_ite]
    rw [headStep_synth hat.1 hat.2, synth, divider_eq htarget]
    rfl
  case latch =>
    have hat : emptyTx c P u = false ∧ (wsSteps c)[P.upc.toNat]? = some .latch := by
      obtain ⟨rfl, hupc⟩ | ⟨⟨mode, n, rfl⟩, hupc⟩ := h
      · exact ⟨emptyTx_eq_false fun h => by simp [hupc] at h, by rw [hupc]; rfl⟩
      · exact ⟨rfl, by rw [hupc]; rfl⟩
    rw [headStep_latch hat.1 hat.2, latchUnit_head hq hP]
    rfl

end Sys2Proof.Machine
end

section
/-! The servo arithmetic (spec/48_host_reference.md R304-R306): a clamp inside its limits and beyond each of them, the
pulse of an angle, and the duty of a pulse as the floor of its ticks, clamped to 0..4095. -/

namespace Sys2Proof.Machine

/-! ### The clamps of an angle and of a pulse -/

section Clamp

variable {v lo hi : Rat}

theorem clampRat_of_le_lo (hlohi : lo ≤ hi) (h : v ≤ lo) : clampRat v lo hi = lo := by
  rw [clampRat, max_eq_right h, min_eq_left hlohi]

theorem clampRat_of_hi_le (h : hi ≤ v) : clampRat v lo hi = hi := by
  rw [clampRat, min_eq_right (h.trans (le_max_left v lo))]

theorem clampRat_of_mem (hlo : lo ≤ v) (hhi : v ≤ hi) : clampRat v lo hi = v := by
  rw [clampRat, max_eq_left hlo, min_eq_left hhi]

end Clamp

section Angle

variable {e : Actuator} (hangle : e.minAngle < e.maxAngle) {a : Rat}
include hangle

theorem anglePulse_of_le (h : a ≤ e.minAngle) : anglePulse e a = e.minPulse := by
  rw [anglePulse, clampRat_of_le_lo hangle.le h, sub_self, zero_div, zero_mul, add_zero]

theorem anglePulse_of_ge (h : e.maxAngle ≤ a) : anglePulse e a = e.maxPulse := by
  rw [anglePulse, clampRat_of_hi_le h, div_self (sub_pos.2 hangle).ne', one_mul, add_sub_cancel]

/-- Between the two angles the interpolation is exact, here without the quotient. -/
theorem anglePulse_sub_mul (hlo : e.minAngle ≤ a) (hhi : a ≤ e.maxAngle) :
    (anglePulse e a - e.minPulse) * (e.maxAngle - e.minAngle) = (a - e.minAngle) * (e.maxPulse - e.minPulse) := by
  rw [anglePulse, clampRat_of_mem hlo hhi, add_sub_cancel_left, mul_right_comm,
    div_mul_cancel₀ _ (sub_pos.2 hangle).ne']

end Angle

/-! ### The duty of a pulse -/

section Duty

variable {f : Nat} {u : Rat}

/-- The duty as a number: the floor of the pulse's ticks, clamped; the clamp fits 12 bits. -/
theorem pulseToDuty_toNat (f : Nat) (u : Rat) :
    ((pulseToDuty f u).toNat : Int) = min (max ⌊u * 4096 * f / 1000000⌋ 0) 4095 := by
  change ((BitVec.ofInt 12 (min (max ⌊u * 4096 * f / 1000000⌋ 0) 4095)).toNat : Int) = _
  rw [BitVec.toNat_ofInt]
  omega

theorem pulseToDuty_of_floor {k : Nat} (hk : k < 4096) (hlo : (k : Rat) * 1000000 ≤ u * 4096 * f)
    (hhi : u * 4096 * f < ((k : Rat) + 1) * 1000000) : (pulseToDuty f u).toNat = k := by
  have hfloor : ⌊u * 4096 * f / 1000000⌋ = (k : Int) :=
    Int.floor_eq_iff.2 ⟨(le_div_iff₀ (by norm_num)).2 hlo, (div_lt_iff₀ (by norm_num)).2 hhi⟩
  have := pulseToDuty_toNat f u
  omega

/-- Less than one tick, a negative pulse among them, is duty 0. -/
theorem pulseToDuty_of_lt_tick (h : u * 4096 * f < 1000000) : pulseToDuty f u = 0 := by
  have hfloor : ⌊u * 4096 * f / 1000000⌋ < 1 := Int.floor_lt.2 ((div_lt_iff₀ (by norm_num)).2 (by simpa using h))
  have := pulseToDuty_toNat f u
  exact BitVec.eq_of_toNat_eq (by change _ = 0; omega)

theorem pulseToDuty_of_ge (h : 4095 * 1000000 ≤ u * 4096 * f) : pulseToDuty f u = 4095 := by
  have hfloor : 4095 ≤ ⌊u * 4096 * f / 1000000⌋ := Int.le_floor.2 ((le_div_iff₀ (by norm_num)).2 (by simpa using h))
  have := pulseToDuty_toNat f u
  exact BitVec.eq_of_toNat_eq (by change _ = 4095; omega)

end Duty

/-! ### The frequency the host assumes -/

theorem freqWord_valid (c : FConf) : (freqWord c).getLsbD 16 = c.valid := by
  simp only [freqWord, BitVec.getLsbD_append]; simp

theorem freqWord_hz (c : FConf) : (freqWord c).extractLsb' 0 16 = c.hz :=
  BitVec.extractLsb'_append_eq_right

theorem assumedFreq_freqWord (dflt : BitVec 16) (c : FConf) :
    assumedFreq dflt (some (freqWord c)) = if c.valid then c.hz.toNat else dflt.toNat := by
  simp only [assumedFreq, freqWord_valid, freqWord_hz]

/-- Settles O55: the angle and the pulse are clamped by `clampRat`, and `pulseToDuty` is the clamped floor. -/
theorem servoArithmetic : Obligations.ServoArithmetic := by
  refine ⟨fun e a u hangle hpulse => ⟨anglePulse_of_le hangle, anglePulse_of_ge hangle, anglePulse_sub_mul hangle,
      clampRat_of_le_lo hpulse.le, clampRat_of_hi_le, clampRat_of_mem⟩,
    fun f u => ⟨pulseToDuty_of_lt_tick, pulseToDuty_of_ge, fun k => pulseToDuty_of_floor⟩,
    fun dflt hz valid => assumedFreq_freqWord dflt _, ?sample⟩
  case sample => exact BitVec.eq_of_toNat_eq (pulseToDuty_of_floor (k := 76) (by decide) (by norm_num) (by norm_num))

end Sys2Proof.Machine
end

section
/-! The power-on reset state (spec/70_reset_and_hazards.md R390, R391): its ports and its W units, and the slave's
registers. -/

namespace Sys2Proof.Machine

variable {c : Config}

/-- Every PWM port is made by the one reset value. -/
theorem eq_reset_of_mem_resetOf_ports {P : PwmPort} (h : P ∈ (State.resetOf c).unitP.ports) : P = PwmPort.reset :=
  List.eq_of_mem_replicate h

theorem length_resetOf_ports : (State.resetOf c).unitP.ports.length = c.nPwmPorts :=
  List.length_replicate

theorem eq_reset_of_mem_wUnitReset_ports {conf : StripConfig} {n : Nat} {P : WPort}
    (h : P ∈ (WUnit.reset conf n).ports) : P = WPort.reset :=
  List.eq_of_mem_replicate h

/-- Every W unit is reset with its strip's parameters. -/
theorem eq_wUnitReset_of_mem_resetOf_strips {u : WUnit} (h : u ∈ (State.resetOf c).strips) :
    ∃ conf n, u = WUnit.reset conf n := by
  obtain ⟨⟨conf, n⟩, -, rfl⟩ := List.mem_map.1 h
  exact ⟨conf, n, rfl⟩

theorem resetOf_strips_conf : (State.resetOf c).strips.map (·.conf) = c.strips.map Prod.fst :=
  List.map_map

/-- `FREQ` of the reset `F_CONF` (R35): no frequency is valid. -/
theorem freqWord_reset : freqWord { valid := false, hz := 0 } = 0x00000000 := by decide

/-- A register that no one has written reads as its reset value. -/
theorem srRead_reset (r : Nat) : srRead Slave.reset r = (slaveReset r).getD 0 := rfl

/-- The four registers of an LED channel at reset: only `OFF_H` is not 0, with its full-OFF bit (R391). -/
theorem srRead_reset_led {n k : Nat} (hn : n < 16) (hk : k < 4) :
    srRead Slave.reset (0x06 + k + 4 * n) = if k = 3 then 0x10 else 0x00 := by
  have hreg : slaveReset (0x06 + k + 4 * n) = if (0x06 + k + 4 * n - 0x06) % 4 = 3 then some 0x10 else some 0x00 := by
    simp (disch := omega) only [slaveReset, if_neg, if_pos]
  rw [srRead_reset, hreg, show (0x06 + k + 4 * n - 0x06) % 4 = k by omega]
  split <;> rfl

/-- Settles O1: every port is the one reset port, every W unit a `WUnit.reset`, and every register of the slave reads
as its reset value. -/
theorem powerOnReset : Obligations.PowerOnReset := by
  intro c s
  refine ⟨⟨length_resetOf_ports, fun P hP => eq_reset_of_mem_resetOf_ports hP, rfl, rfl, freqWord_reset, rfl, rfl⟩,
    ⟨resetOf_strips_conf, fun u hu => ?unit⟩, ⟨rfl, rfl, rfl⟩,
    rfl, rfl, rfl, rfl, rfl, rfl, fun n hn => ?led, rfl, rfl⟩
  case unit =>
    obtain ⟨conf, nPorts, rfl⟩ := eq_wUnitReset_of_mem_resetOf_strips hu
    exact ⟨fun P hP => eq_reset_of_mem_wUnitReset_ports hP, fun i => rfl, fun i => rfl,
      rfl, rfl, rfl, rfl, rfl, rfl, rfl⟩
  case led =>
    exact ⟨srRead_reset_led (k := 0) hn (by decide), srRead_reset_led (k := 1) hn (by decide),
      srRead_reset_led (k := 2) hn (by decide), srRead_reset_led (k := 3) hn (by decide)⟩

end Sys2Proof.Machine
end

section
/-! The encoder and the decoder agree (spec/30_encoding.md R111-R118): the bus frames the decoder accepts are the three
forms, and an accepted word is the encoding of what it decodes to. -/

namespace Sys2Proof

open Sys2Proof.Machine Sys2Proof.Safety

/-! ### Bus frames -/

theorem addrByte_false_ne_one (a : BitVec 7) : addrByte a false ≠ 1#8 := fun h => by
  have := isRead_addrByte a false
  rw [h] at this
  exact absurd this (by decide)

theorem decodeFrame_write (a : BitVec 7) (r d : Byte) :
    decodeFrame [[addrByte a false, r, d]] = .ok (.i2cWr a r d) := by
  simp [decodeFrame, addrByte_false_ne_one, isRead_addrByte, addrOf_addrByte]

theorem decodeFrame_read (a : BitVec 7) (r d : Byte) :
    decodeFrame [[addrByte a false, r], [addrByte a true, d]] = .ok (.i2cRd a r) := by
  simp [decodeFrame, addrByte_false_ne_one, isRead_addrByte, addrOf_addrByte]

theorem decodeFrame_generalCall (d : Byte) : decodeFrame [[0x00, d]] = .ok (.i2cGc d) := rfl

/-- The frames the decoder accepts have one of the three forms (R116-R118). -/
theorem frame_of_decodeFrame_ok {f : List (List Byte)} {i : Instr} (h : decodeFrame f = .ok i) :
    (∃ a reg d, i = .i2cWr a reg d ∧ f = [[addrByte a false, reg, d]])
      ∨ (∃ a reg d, i = .i2cRd a reg ∧ f = [[addrByte a false, reg], [addrByte a true, d]])
      ∨ ∃ d, i = .i2cGc d ∧ f = [[0x00, d]] := by
  unfold decodeFrame at h
  split at h
  next b0 rest more =>
    split at h
    · cases h
    split at h
    · cases h
    next hwrite =>
      have hb0 : addrByte (addrOf b0) false = b0 := by
        rw [← addrByte_addrOf b0, addrOf_addrByte, (Bool.not_eq_true _).mp hwrite]
      split at h
      next d =>
        split at h
        next hzero => cases h; exact .inr (.inr ⟨d, rfl, by rw [hzero]⟩)
        next => cases h
      next r d => cases h; exact .inl ⟨addrOf b0, r, d, rfl, by rw [hb0]⟩
      next r b2 d =>
        split at h
        next hread =>
          cases h
          obtain ⟨hbit, haddr⟩ := Bool.and_eq_true_iff.1 hread
          have hb2 : addrByte (addrOf b0) true = b2 := by
            rw [← addrByte_addrOf b2, beq_iff_eq.1 haddr, hbit]
          exact .inr (.inl ⟨addrOf b0, r, d, rfl, by rw [hb0, hb2]⟩)
        next => cases h
      next => cases h
  next => cases h

/-! ### Command words -/

/-- A wire with the opcode and the operands of a word is that word. -/
theorem eq_word_of_encoding {w : Word} {opc operands : Nat} {x : Wire} (hx : Laws.Encoding.word opc operands x)
    (hw : w.toNat = opc * 2 ^ 24 + operands) : x = .word w := by
  obtain ⟨v, rfl, hv⟩ := hx
  exact congrArg _ (BitVec.eq_of_toNat_eq (hv.trans hw.symm))

open Laws in
/-- An accepted word is the encoding of what it decodes to, which is no pseudo-instruction (R111, R125). -/
theorem encode_of_decodeWord_ok {w : Word} {i : Instr} (h : decodeWord w = .ok i) :
    i.wellFormed = true ∧ i.expand = i ∧ encode i = .word w := by
  have hlt := w.isLt
  have zero {lo len : Nat} (hf : bits w lo len = 0) : w.toNat / 2 ^ lo % 2 ^ len = 0 := bits_eq_iff.1 hf
  rcases opcode_cases (w.toNat / 2 ^ 24) with hop | hop | hop | hop | hop | hop | hop
  · rw [decodeWord_opcode_01 hop, guardReserved_eq_ok] at h
    obtain ⟨hres, h⟩ := h
    cases h
    have := zero hres
    exact ⟨rfl, rfl, eq_word_of_encoding (Encoding.pwmInit _) (by rw [bits_toNat]; omega)⟩
  · rw [decodeWord_opcode_02 hop, guardReserved_eq_ok] at h
    obtain ⟨hres, h⟩ := h
    cases h
    have := zero hres
    exact ⟨rfl, rfl, eq_word_of_encoding (Encoding.pwmFreq _) (by rw [bits_toNat]; omega)⟩
  · rw [decodeWord_opcode_03 hop, guardReserved_eq_ok] at h
    obtain ⟨hres, h⟩ := h
    cases h
    have := zero hres
    exact ⟨rfl, rfl, eq_word_of_encoding (Encoding.pwmChan _ _) (by rw [bits_toNat, bits_toNat]; omega)⟩
  · rw [decodeWord_opcode_10 hop, guardReserved_eq_ok, byMode_eq_ok] at h
    obtain ⟨hres, ⟨hmode, rfl⟩ | ⟨hmode, rfl⟩ | ⟨hmode, rfl⟩⟩ := h
    all_goals have := zero hres
    · have : w.toNat / 2 ^ 16 % 2 ^ 2 = 0 := bits_eq_iff.1 hmode
      exact ⟨rfl, rfl, eq_word_of_encoding (Encoding.wsEncM8 _) (by rw [bits_toNat]; omega)⟩
    · have : w.toNat / 2 ^ 16 % 2 ^ 2 = 1 := bits_eq_iff.1 hmode
      exact ⟨rfl, rfl, eq_word_of_encoding (Encoding.wsEncM4 _) (by rw [bits_toNat]; omega)⟩
    · have : w.toNat / 2 ^ 16 % 2 ^ 2 = 2 := bits_eq_iff.1 hmode
      exact ⟨rfl, rfl, eq_word_of_encoding (Encoding.wsEncAuto _) (by rw [bits_toNat]; omega)⟩
  · rw [decodeWord_opcode_11 hop, guardReserved_eq_ok] at h
    obtain ⟨hres, h⟩ := h
    cases h
    have := zero hres
    exact ⟨rfl, rfl, eq_word_of_encoding Encoding.wsTx (by omega)⟩
  · rw [decodeWord_opcode_12 hop, guardReserved_eq_ok, byMode_eq_ok] at h
    obtain ⟨hres, ⟨hmode, rfl⟩ | ⟨hmode, rfl⟩ | ⟨hmode, rfl⟩⟩ := h
    all_goals have := zero hres
    · have : w.toNat / 2 ^ 16 % 2 ^ 2 = 0 := bits_eq_iff.1 hmode
      exact ⟨rfl, rfl, eq_word_of_encoding (Encoding.wsShowM8 _) (by rw [bits_toNat]; omega)⟩
    · have : w.toNat / 2 ^ 16 % 2 ^ 2 = 1 := bits_eq_iff.1 hmode
      exact ⟨rfl, rfl, eq_word_of_encoding (Encoding.wsShowM4 _) (by rw [bits_toNat]; omega)⟩
    · have : w.toNat / 2 ^ 16 % 2 ^ 2 = 2 := bits_eq_iff.1 hmode
      exact ⟨rfl, rfl, eq_word_of_encoding (Encoding.wsShowAuto _) (by rw [bits_toNat]; omega)⟩
  · rw [decodeWord_unknownOpcode hop] at h
    cases h

/-- Settles O3: a command decodes from its word, a transaction from its frame, which no operand's value disturbs. -/
theorem decodeOfEncode : Obligations.DecodeOfEncode := by
  intro i _
  cases hi : encodeWord i with
  | some w => exact decode_encode_of_encodeWord hi
  | none =>
    cases i with
    | i2cWr a r d => exact decodeFrame_write a r d
    | i2cRd a r => exact decodeFrame_read a r 0
    | i2cGc d => exact decodeFrame_generalCall d
    | _ => cases hi

/-- Settles O4: the decoder's branches, read backwards. -/
theorem decodedWireHasItsForm : Obligations.DecodedWireHasItsForm := by
  refine ⟨fun w i => encode_of_decodeWord_ok, fun f i => ⟨frame_of_decodeFrame_ok, ?_⟩⟩
  rintro (⟨a, reg, d, rfl, rfl⟩ | ⟨a, reg, d, rfl, rfl⟩ | ⟨d, rfl, rfl⟩)
  · exact decodeFrame_write a reg d
  · exact decodeFrame_read a reg d
  · exact decodeFrame_generalCall d

end Sys2Proof
end

section
/-! What one step keeps of the whole machine (spec/10_state.md R40, R57, R58, R60): parameters and shape stay, marks and
histories grow; and how the slave moves, by a logged transaction or by the oscillator (spec/40_pwm_slave.md). -/

namespace Sys2Proof.Machine

open Sys2Proof.Safety

/-! ### What never comes back -/

/-- How the machine may move: the parameters and the platform's shape stay, the marks and the log grow, a hung bus stays
hung, the issue counter does not go down, and every W unit moves as a unit may. -/
structure Moves (s t : State) : Prop where
  cfg : t.cfg = s.cfg
  ports : t.unitP.ports.length = s.unitP.ports.length
  issueCtr : s.unitP.issueCtr ≤ t.unitP.issueCtr
  hung : s.unitP.i2cHung = true → t.unitP.i2cHung = true
  strips : t.strips.length = s.strips.length
  units : ∀ {i : Nat} {u : WUnit}, s.strips[i]? = some u → ∃ v, t.strips[i]? = some v ∧ UnitMoves u v
  faults : s.faults <+: t.faults
  refused : s.refused <+: t.refused
  busLog : s.busLog <+: t.busLog

theorem Moves.trans {s t v : State} (h : Moves s t) (h' : Moves t v) : Moves s v where
  cfg := h'.cfg.trans h.cfg
  ports := h'.ports.trans h.ports
  issueCtr := h.issueCtr.trans h'.issueCtr
  hung := h'.hung ∘ h.hung
  strips := h'.strips.trans h.strips
  units hu := by
    obtain ⟨v, hv, huv⟩ := h.units hu
    obtain ⟨w, hw, hvw⟩ := h'.units hv
    exact ⟨w, hw, huv.trans hvw⟩
  faults := h.faults.trans h'.faults
  refused := h.refused.trans h'.refused
  busLog := h.busLog.trans h'.busLog

/-- A move of unit P, of the marks and of the log: the W units are as they were. -/
theorem Moves.of_strips_eq {s t : State} (hstrips : t.strips = s.strips) (hcfg : t.cfg = s.cfg)
    (hports : t.unitP.ports.length = s.unitP.ports.length) (hctr : s.unitP.issueCtr ≤ t.unitP.issueCtr)
    (hhung : s.unitP.i2cHung = true → t.unitP.i2cHung = true) (hfaults : s.faults <+: t.faults)
    (hrefused : s.refused <+: t.refused) (hlog : s.busLog <+: t.busLog) : Moves s t :=
  ⟨hcfg, hports, hctr, hhung, by rw [hstrips], fun {i u} hu => ⟨u, by rw [hstrips, hu], UnitMoves.refl u⟩, hfaults,
    hrefused, hlog⟩

theorem Quiet.moves {s t : State} (h : Quiet s t) : Moves s t :=
  .of_strips_eq h.strips h.cfg (by rw [h.unitP]) (by rw [h.unitP]) (by rw [h.unitP]; exact id) h.faults h.refused
    (by rw [h.busLog])

theorem Moves.refl (s : State) : Moves s s := (Quiet.refl s).moves

theorem moves_setStrip {s : State} {i : Nat} {u v : WUnit} (hu : s.strips[i]? = some u) (h : UnitMoves u v) :
    Moves s (setStrip i v s) := by
  refine ⟨rfl, rfl, le_rfl, id, List.length_set, fun {j w} hw => ?_, List.prefix_refl _, List.prefix_refl _,
    List.prefix_refl _⟩
  by_cases hij : i = j
  · subst hij
    rw [hu] at hw
    cases hw
    exact ⟨v, getElem?_set_of_some hu, h⟩
  · exact ⟨w, (List.getElem?_set_ne hij).trans hw, UnitMoves.refl w⟩

/-! ### Unit P -/

theorem completePwm_ports_length (p : Nat) (code : ErrCode) (step : Byte) (s : State) :
    (completePwm p code step s).unitP.ports.length = s.unitP.ports.length := by
  unfold completePwm; split <;> simp

theorem settle_ports_length (p : Nat) (r : TxReturn) (s : State) :
    (settle p r s).unitP.ports.length = s.unitP.ports.length := by
  unfold settle
  split
  · rfl
  · dsimp only
    split
    · split
      · split <;> simp [completePwm_ports_length]
      · exact completePwm_ports_length ..
      · rfl
      · simp
      · rfl
    · rfl

theorem moves_completePwm (p : Nat) (code : ErrCode) (step : Byte) (s : State) :
    Moves s (completePwm p code step s) := by
  obtain ⟨-, hctr, hhung⟩ := completePwm_unitP_rest p code step s
  have hlen := completePwm_ports_length p code step s
  rw [completePwm_only_unitP] at hlen ⊢
  exact .of_strips_eq rfl rfl hlen hctr.ge (hhung ▸ id) (List.prefix_refl _) (List.prefix_refl _) (List.prefix_refl _)

theorem moves_settle (p : Nat) (r : TxReturn) (s : State) : Moves s (settle p r s) := by
  obtain ⟨-, hctr, hhung⟩ := settle_unitP_rest p r s
  have hlen := settle_ports_length p r s
  rw [settle_only_unitP] at hlen ⊢
  exact .of_strips_eq rfl rfl hlen hctr.ge (hhung ▸ id) (List.prefix_refl _) (List.prefix_refl _) (List.prefix_refl _)

theorem moves_deliver (r : TxReturn) (s : State) : Moves s (deliver r s) := by
  obtain h | ⟨p, -, h⟩ := deliver_cases r s
  · rw [h]; exact Moves.refl s
  · rw [h]; exact moves_settle p r s

theorem TxFrame.moves {s t : State} (h : TxFrame s t) : Moves s t :=
  .of_strips_eq h.strips h.cfg (by rw [h.ports]) h.issueCtr.ge (fun hh => by rw [h.hung hh, hh])
    (by rw [h.faults]) h.refused h.busLog

theorem moves_acceptPwm {p : Nat} {P : PwmPort} {c : PwmCmd} (s : State) : Moves s (acceptPwm p P c s) := by
  rw [acceptPwm_eq]
  refine .of_strips_eq rfl rfl ?_ ?_ ?_ ?_ (List.prefix_refl _) (List.prefix_refl _)
  · cases c <;> exact List.length_set
  · cases c <;> exact Nat.le_succ _
  · cases c <;> exact id
  · dsimp only
    split
    · exact prefix_addMark _ _
    · exact List.prefix_refl _

/-- A transaction performed for whoever `sel` names. -/
theorem Transacts.moves {s t : State} {o : Host.Outcome State Fault Refusal} (h : Transacts s o) (ho : o = .next t) :
    Moves s t := by
  have done {tx : State → TxReturn × State} (hf : TxFrame s (tx s).2) : Moves s (perform tx s) :=
    hf.moves.trans (moves_deliver _ _)
  cases h with
  | wr a reg d => cases ho; exact done (transactWr_frame a reg d s)
  | rd a reg => cases ho; exact done (transactRd_frame a reg s)
  | gc d => cases ho; exact done (transactGc_frame d s)

/-! ### The issue of a word -/

theorem moves_storeCmd (π : PortSel) (w : Word) (s : State) : Moves s { storeCmd π w s with sel := π } := by
  refine Moves.trans ?_ (Quiet.sel _ π).moves
  unfold storeCmd
  split
  · split
    · exact Moves.refl s
    · exact .of_strips_eq rfl rfl List.length_set le_rfl id (List.prefix_refl _) (List.prefix_refl _)
        (List.prefix_refl _)
  · split
    · exact Moves.refl s
    next hu =>
      split
      · exact Moves.refl s
      · exact moves_setStrip hu ⟨rfl, List.length_set, List.prefix_refl _, id, id, id⟩
  · exact Moves.refl s

theorem IssueCase.moves {s t : State} (h : IssueCase s t) : Moves s t := by
  cases h with
  | rejected p P hP hidle code hok hbus ht => rw [ht]; exact moves_completePwm p code 0 s
  | rejectedWs i q u P hu hP hidle code hok hbus ht => rw [ht]; exact moves_setStrip hu (unitMoves_completeUnit ..)
  | accepted p P hP hidle c hc ht => rw [ht]; exact moves_acceptPwm s
  | acceptedWs i q u P hu hP hidle c hc ht =>
    rw [ht]
    exact moves_setStrip hu ⟨rfl, List.length_set, List.prefix_refl _, id, id, id⟩

/-! ### The W units -/

theorem unitMoves_encodeInto (m : Packing) (bytes : List Byte) (u : WUnit) : UnitMoves u (encodeInto m bytes u) :=
  ⟨rfl, rfl, List.prefix_refl _, id, id, fun ⟨hi, ho⟩ => ⟨hi, Memory.writeBytes_wf ho 0 _⟩⟩

theorem unitMoves_latchUnit (q : Nat) (P : WPort) (u : WUnit) : UnitMoves u (latchUnit q P u) :=
  UnitMoves.trans (v := { u with trace := u.trace ++ [TraceEvent.latch], txState := .idle })
    ⟨rfl, rfl, List.prefix_append _ _, id, id, id⟩ ((unitMoves_bumpStep q P _).trans (unitMoves_completeUnit q .ok 0 _))

section Unit

variable {s : State} {i : Nat} {u : WUnit} (hu : s.strips[i]? = some u) (q : Nat) (P : WPort)
include hu

theorem moves_encStep (c : WsCmd) (mode : EncMode) (n : BitVec 16) : Moves s (encStep i q P c mode n u s) := by
  unfold encStep
  split
  · exact (moves_setStrip (v := { u with stopped := true }) hu
      ⟨rfl, rfl, List.prefix_refl _, id, fun _ => rfl, id⟩).trans (Quiet.fault _ _).moves
  next bytes _ =>
    refine moves_setStrip hu (.trans (unitMoves_encodeInto (packing s.cfg.encAutoThreshold mode n.toNat) bytes u) ?_)
    split
    · exact (unitMoves_bumpStep q P _).trans (unitMoves_completeUnit q .ok 0 _)
    · exact unitMoves_bumpStep ..

theorem moves_xferStep : Moves s (xferStep i q P u s) := by
  have sent (tx : TxState) (hung : Bool) (hh : u.spiHung = true → hung = true) (e : TraceEvent) :
      UnitMoves u { u with trace := u.trace ++ [e], txState := tx, spiHung := hung } :=
    ⟨rfl, rfl, List.prefix_append _ _, hh, id, id⟩
  have hdraw : Quiet s (afterDraw s) := by constructor <;> simp
  have hadv (t : State) : Quiet t (advance u.olen t) := by constructor <;> simp
  refine hdraw.moves.trans ((moves_setStrip (by simpa using hu) ?_).trans (hadv _).moves)
  split
  · exact (sent .latch u.spiHung id _).trans (unitMoves_bumpStep q P _)
  · exact (sent .idle u.spiHung id _).trans (unitMoves_completeUnit q .busError P.upc _)
  · exact sent .sending true (fun _ => rfl) _

theorem moves_headStep (c : WsCmd) : Moves s (headStep i q P c u s) := by
  unfold headStep
  split
  · exact moves_setStrip hu (unitMoves_completeUnit ..)
  · split
    · exact Moves.refl s
    · exact moves_encStep hu q P c _ _
    · exact moves_setStrip hu (UnitMoves.trans (v := synth u) ⟨rfl, rfl, List.prefix_refl _, id, id, id⟩
        (unitMoves_bumpStep ..))
    · exact moves_xferStep hu q P
    · exact moves_setStrip hu (unitMoves_latchUnit q P u)

end Unit

theorem moves_unitStep (i : Nat) (s : State) : Moves s (unitStep i s) := by
  unfold unitStep
  split
  · exact Moves.refl s
  next hu =>
    split
    · exact Moves.refl s
    · split
      · exact Moves.refl s
      · split
        · exact Moves.refl s
        · exact moves_headStep hu _ _ _

theorem oscStep_only_slave (s : State) : oscStep s = { s with slave := (oscStep s).slave } := by
  unfold oscStep; split <;> rfl

/-- No step takes back a mark, a history entry, a hang or an issue number, nor changes the platform. -/
theorem step_moves {s t : State} (h : step s = .next t) : Moves s t := by
  cases step_cases h with
  | quiet hq => exact hq.moves
  | pixel s0 hq i idx v u hu hidx ht =>
    rw [ht]
    exact hq.moves.trans (moves_setStrip hu
      ⟨rfl, rfl, List.prefix_refl _, id, id, fun ⟨hi, ho⟩ => ⟨Memory.write_wf hi idx v, ho⟩⟩)
  | word s0 hq π w st hst hidle ht =>
    exact hq.moves.trans ((moves_storeCmd π w s0).trans (runWord_cases hst hidle ht).moves)
  | wait s0 hq p us hm he ht => rw [ht]; exact hq.moves.trans (moves_settle p _ s0)
  | micro s0 hq p m i hm hi ht =>
    exact (hq.trans (Quiet.sel s0 _)).moves.trans ((exec_micro hi _).moves ht)
  | osc s0 hq ht =>
    rw [ht, oscStep_only_slave]
    exact hq.moves.trans (.of_strips_eq rfl rfl rfl le_rfl id (List.prefix_refl _) (List.prefix_refl _)
      (List.prefix_refl _))
  | unit s0 hq i ht => rw [ht]; exact hq.moves.trans (moves_unitStep i s0)
  | bare s0 hq f i hf hb ht =>
    exact (hq.trans (Quiet.sel s0 _)).moves.trans ((exec_frame hf _).moves ht)

/-- Settles O48: every step is a move of the machine. -/
theorem marksAndHistoriesGrow : Obligations.MarksAndHistoriesGrow := by
  intro s t h
  have m := step_moves h
  refine ⟨m.faults, m.refused, m.busLog, m.hung, m.issueCtr, fun i u hu => ?_⟩
  obtain ⟨v, hv, huv⟩ := m.units hu
  exact ⟨v, hv, huv.trace, huv.hung, huv.stopped⟩

/-- A W unit after the step is a unit of before that has moved. -/
theorem Moves.unit_of_mem {s t : State} (m : Moves s t) {v : WUnit} (hv : v ∈ t.strips) :
    ∃ u ∈ s.strips, UnitMoves u v := by
  obtain ⟨i, hi, rfl⟩ := List.mem_iff_getElem.1 hv
  obtain ⟨v, hv, huv⟩ := m.units (List.getElem?_eq_getElem (m.strips ▸ hi))
  rw [List.getElem?_eq_getElem hi] at hv
  cases hv
  exact ⟨_, List.getElem_mem _, huv⟩

/-- Settles O49: every step is a move of the machine, and a unit that moves keeps its configuration and its ports. -/
theorem parametersFixed : Obligations.ParametersFixed := by
  intro s t h
  have m := step_moves h
  refine ⟨m.cfg, m.ports, List.ext_getElem (by simp [m.strips]) fun i hi hi' => ?_⟩
  rw [List.length_map] at hi hi'
  obtain ⟨v, hv, huv⟩ := m.units (List.getElem?_eq_getElem hi')
  rw [List.getElem?_eq_getElem hi] at hv
  cases hv
  simp only [List.getElem_map, huv.conf, huv.ports]

/-! ### The slave and the log -/

/-- What a step can do to the slave and to the bus log: nothing, the oscillator's start-up, or one transaction. -/
inductive BusCase (s t : State) : Prop where
  | same (hlog : t.busLog = s.busLog) (hslave : t.slave = s.slave)
  | wakes (hlog : t.busLog = s.busLog) (hosc : s.slave.osc = .waking)
      (hslave : t.slave = { s.slave with osc := .running })
  | transacts (s0 : State) (hlog : s0.busLog = s.busLog) (hslave : s0.slave = s.slave) (h : Transacts s0 (.next t))

theorem IssueCase.bus {s t : State} (h : IssueCase s t) : t.busLog = s.busLog ∧ t.slave = s.slave := by
  cases h with
  | rejected p P hP hidle code hok hbus ht => rw [ht, completePwm_only_unitP]; exact ⟨rfl, rfl⟩
  | rejectedWs i q u P hu hP hidle code hok hbus ht => rw [ht]; exact ⟨rfl, rfl⟩
  | accepted p P hP hidle c hc ht => rw [ht, acceptPwm_eq]; exact ⟨rfl, rfl⟩
  | acceptedWs i q u P hu hP hidle c hc ht => rw [ht]; exact ⟨rfl, rfl⟩

theorem step_busCase {s t : State} (h : step s = .next t) : BusCase s t := by
  cases step_cases h with
  | quiet hq => exact .same hq.busLog hq.slave
  | pixel s0 hq i idx v u hu hidx ht => rw [ht]; exact .same hq.busLog hq.slave
  | word s0 hq π w st hst hidle ht =>
    obtain ⟨hlog, hslave⟩ := (runWord_cases hst hidle ht).bus
    obtain ⟨-, -, -, -, -, -, hslave', hlog'⟩ := storeCmd_rest π w s0
    exact .same (hlog.trans (hlog'.trans hq.busLog)) (hslave.trans (hslave'.trans hq.slave))
  | wait s0 hq p us hm he ht => rw [ht, settle_only_unitP]; exact .same hq.busLog hq.slave
  | micro s0 hq p m i hm hi ht => exact .transacts { s0 with sel := .pwm p } hq.busLog hq.slave (ht ▸ exec_micro hi _)
  | osc s0 hq ht =>
    rw [ht]
    unfold oscStep
    split
    next hosc => exact .wakes hq.busLog (hq.slave ▸ hosc) (by rw [hq.slave])
    next => exact .same hq.busLog hq.slave
    next => exact .same hq.busLog hq.slave
  | unit s0 hq i ht =>
    have hf := unitStep_frame i s0
    exact .same (by rw [ht, hf.busLog, hq.busLog]) (by rw [ht, hf.slave, hq.slave])
  | bare s0 hq f i hf hb ht => exact .transacts { s0 with sel := .direct } hq.busLog hq.slave (ht ▸ exec_frame hf _)

/-- A transaction either leaves the slave and the log, or adds one entry, and a read or an unacknowledged one leaves the
slave (R143, R157; 10_state.md R60). -/
def SlaveLogged (s t : State) : Prop :=
  (t.busLog = s.busLog ∧ t.slave = s.slave)
    ∨ ∃ e : BusEntry, t.busLog = s.busLog ++ [e] ∧ (e.kind = .rd ∨ e.outcome = .nack → t.slave = s.slave)

theorem slaveLogged_entry {s t : State} (e : BusEntry) (hlog : t.busLog = s.busLog)
    (hslave : e.kind = .rd ∨ e.outcome = .nack → t.slave = s.slave) : SlaveLogged s (logBus e t) :=
  .inr ⟨e, by rw [logBus_busLog, hlog], hslave⟩

theorem slaveLogged_wr (a : BitVec 7) (reg d : Byte) (s : State) : SlaveLogged s (transactWr a reg d s).2 := by
  unfold transactWr
  split
  · exact .inl ⟨rfl, rfl⟩
  · dsimp only
    split
    · exact slaveLogged_entry _ (by simp) fun _ => by simp
    · exact slaveLogged_entry _ (by simp) fun _ => by simp
    · exact .inl (by simp)
    · split
      · split
        · exact .inl (by simp)
        · exact slaveLogged_entry _ (by simp) (by simp)
      · exact slaveLogged_entry _ (by simp) (by simp)
      · exact slaveLogged_entry _ (by simp) (by simp)

theorem slaveLogged_rd (a : BitVec 7) (reg : Byte) (s : State) : SlaveLogged s (transactRd a reg s).2 := by
  unfold transactRd
  split
  · exact .inl ⟨rfl, rfl⟩
  · dsimp only
    split
    · exact slaveLogged_entry _ (by simp) fun _ => by simp
    · exact slaveLogged_entry _ (by simp) fun _ => by simp
    · exact .inl (by simp)
    · split
      · split
        · exact .inl (by simp)
        all_goals exact slaveLogged_entry _ (by simp) fun _ => by simp
      · exact slaveLogged_entry _ (by simp) fun _ => by simp
      · exact slaveLogged_entry _ (by simp) fun _ => by simp

theorem slaveLogged_gc (d : Byte) (s : State) : SlaveLogged s (transactGc d s).2 := by
  unfold transactGc
  split
  · exact .inl ⟨rfl, rfl⟩
  · dsimp only
    split
    · exact .inl (by simp)
    · split
      · exact slaveLogged_entry _ (by simp) (by simp)
      · exact slaveLogged_entry _ (by simp) (by simp)
      · exact slaveLogged_entry _ (by simp) (by simp)

theorem deliver_busLog (r : TxReturn) (s : State) : (deliver r s).busLog = s.busLog := by rw [deliver_only_unitP]

theorem perform_slaveLogged {s : State} {tx : State → TxReturn × State} (h : SlaveLogged s (tx s).2) :
    SlaveLogged s (perform tx s) := by
  unfold SlaveLogged perform
  rw [deliver_busLog, deliver_slave]
  exact h

theorem Transacts.slaveLogged {s t : State} (h : Transacts s (.next t)) : SlaveLogged s t := by
  cases h with
  | wr a reg d => exact perform_slaveLogged (slaveLogged_wr a reg d s)
  | rd a reg => exact perform_slaveLogged (slaveLogged_rd a reg s)
  | gc d => exact perform_slaveLogged (slaveLogged_gc d s)

/-- Settles O51: the slave and the log move by a transaction or by the oscillator alone. -/
theorem slaveChangesAreLogged : Obligations.SlaveChangesAreLogged := by
  intro s t h
  cases step_busCase h with
  | same hlog hslave => rw [hslave]; exact .inl ⟨hlog, rfl, .inl rfl⟩
  | wakes hlog hosc hslave => rw [hslave]; exact .inl ⟨hlog, rfl, .inr ⟨hosc, rfl⟩⟩
  | transacts s0 hlog hslave h =>
    rw [← hlog, ← hslave]
    obtain ⟨hlog', hslave'⟩ | h := h.slaveLogged
    · rw [hslave']; exact .inl ⟨hlog', rfl, .inl rfl⟩
    · exact .inr h

/-- A transaction keeps the slave's form (R142, R141, R157). -/
theorem Transacts.slaveOk {s t : State} (h : Transacts s (.next t)) (hok : SlaveOk s.slave) : SlaveOk t.slave := by
  cases h with
  | wr a reg d =>
    rw [perform, deliver_slave]
    obtain h | h | ⟨n, h⟩ := transactWr_slave a reg d s
    · rwa [h]
    · exact slaveWrite_ok hok h
    · rw [h]; exact scrambleWrite_ok hok
  | rd a reg => rwa [perform, deliver_slave, transactRd_slave]
  | gc d =>
    rw [perform, deliver_slave]
    obtain h | h | ⟨n, h⟩ := transactGc_slave d s
    · rwa [h]
    · exact generalCall_ok h
    · rw [h]; exact scrambleAll_ok hok

/-- Settles O45: the W units' memories keep their form as the units move, the slave's as it moves. -/
theorem stepKeepsMemoryForm : Obligations.StepKeepsMemoryForm := by
  intro s t hmem hlisted h
  obtain ⟨hwf, hunits⟩ := hmem
  have hslave : SlaveOk t.slave := by
    have hok : SlaveOk s.slave := ⟨hwf, hlisted⟩
    cases step_busCase h with
    | same _ hslave => rwa [hslave]
    | wakes _ _ hslave => rw [hslave]; exact hok.withOsc _
    | transacts s0 _ hslave h => exact h.slaveOk (by rwa [hslave])
  refine ⟨⟨hslave.wf, fun v hv => ?_⟩, hslave.listed⟩
  obtain ⟨u, hu, huv⟩ := (step_moves h).unit_of_mem hv
  exact huv.mem (hunits u hu)

end Sys2Proof.Machine
end

section
/-! Every step keeps the form of the PWM ports and of the W units (spec/10_state.md R32, R36, R39, R49-R54). -/

namespace Sys2Proof.Machine

open Sys2Proof.Safety

/-! ### The PWM ports -/

theorem portsForm_congr {s t : State} (h : PortsForm s) (hcfg : t.cfg = s.cfg) (hports : t.unitP.ports = s.unitP.ports)
    (hctr : t.unitP.issueCtr = s.unitP.issueCtr) : PortsForm t := by
  unfold PortsForm
  rw [hcfg, hports, hctr]
  exact h

/-- Storing a word in `CMD` keeps the form of the ports, which does not ask for it. -/
theorem portsForm_storeCmd {s : State} (h : PortsForm s) (π : PortSel) (w : Word) :
    PortsForm { storeCmd π w s with sel := π } := by
  cases π with
  | pwm p =>
    cases hP : s.unitP.ports[p]? with
    | none => simp only [storeCmd, hP]; exact h
    | some P =>
      rw [storeCmd_pwm hP]
      exact portsForm_set h hP (h.1 P (mem_of_get hP)) fun hb => ⟨hb, rfl⟩
  | ws i q =>
    simp only [storeCmd]
    split
    · exact h
    · split <;> exact h
  | direct => exact h

theorem stuck_of_idle {s : State} (h : PortsForm s) {p : Nat} {P : PwmPort} (hP : s.unitP.ports[p]? = some P)
    (hidle : P.status.busy = false) : P.stuck = false := by
  obtain ⟨-, -, hrest, -⟩ := h.1 P (mem_of_get hP)
  exact (hrest hidle).2

theorem IssueCase.portsForm {s t : State} (hc : IssueCase s t) (h : PortsForm s) : PortsForm t := by
  cases hc with
  | rejected p P hP hidle code hok hbus ht =>
    rw [ht]
    refine portsForm_completePwm h p (fun _ => rfl) fun P' hP' => ?_
    rw [hP] at hP'
    cases hP'
    exact stuck_of_idle h hP hidle
  | rejectedWs i q u P hu hP hidle code hok hbus ht => rw [ht]; exact h
  | accepted p P hP hidle c hc ht => rw [ht]; exact portsForm_acceptPwm h hP hc
  | acceptedWs i q u P hu hP hidle c hc ht => rw [ht]; exact h

/-- The next micro-op of a port is the one at its `upc` (R192). -/
theorem seq_of_nextMicroOp {ports : List PwmPort} {p : Nat} {m : MicroOp} (h : nextMicroOp ports p = some m)
    {P : PwmPort} (hP : ports[p]? = some P) : P.seq[P.upc.toNat]? = some m := by
  simp only [nextMicroOp, hP] at h
  split at h
  · exact h
  · cases h

/-- A read that is done brings its byte (R194). -/
theorem transactRd_byte {a : BitVec 7} {reg : Byte} {s : State} {data : Option Byte}
    (h : (transactRd a reg s).1 = .ok data) : data ≠ none := by
  unfold transactRd at h
  split at h
  · cases h
  · dsimp only at h
    split at h
    · cases h
    · cases h
    · cases h
    · split at h
      · split at h <;> cases h <;> simp
      · cases h
      · cases h

theorem portsForm_txFrame {s t : State} (hf : TxFrame s t) (h : PortsForm s) : PortsForm t :=
  portsForm_congr h hf.cfg hf.ports hf.issueCtr

/-- A transaction of a sequencer context keeps the form of the ports: after a read that is done `TMP` is written. -/
theorem portsForm_micro {s t : State} {p : Nat} {m : MicroOp} {i : Instr} {a : BitVec 7} {tmp : Option Byte}
    {free : Byte} (h : PortsForm s) (hsel : s.sel = .pwm p) (hm : nextMicroOp s.unitP.ports p = some m)
    (hi : microInstr a tmp free m = some i) (ht : exec i s = .next t) : PortsForm t := by
  have settled {tx : State → TxReturn × State} (hf : TxFrame s (tx s).2)
      (hread : ∀ reg data, m = .rd reg → (tx s).1 = .ok data → data ≠ none) : PortsForm (perform tx s) := by
    simp only [perform, deliver, hf.sel, hsel]
    refine portsForm_settle (portsForm_txFrame hf h) p _ fun P hP reg hreg data => hread reg data ?_
    rw [hf.ports] at hP
    rw [seq_of_nextMicroOp hm hP] at hreg
    exact Option.some.inj hreg
  cases m with
  | gc d => cases hi; cases ht; exact settled (transactGc_frame ..) (by simp)
  | wait us => cases hi
  | rd reg => cases hi; cases ht; exact settled (transactRd_frame ..) fun _ _ _ => transactRd_byte
  | wr reg v => cases hi; cases ht; exact settled (transactWr_frame ..) (by simp)

/-- A transaction performed for no port leaves the ports alone. -/
theorem Transacts.ports_of_direct {s t : State} (h : Transacts s (.next t)) (hsel : s.sel = .direct) : TxFrame s t := by
  have done {tx : State → TxReturn × State} (hf : TxFrame s (tx s).2) : TxFrame s (perform tx s) := by
    simp only [perform, deliver, hf.sel, hsel]
    exact hf
  cases h with
  | wr a reg d => exact done (transactWr_frame ..)
  | rd a reg => exact done (transactRd_frame ..)
  | gc d => exact done (transactGc_frame ..)

/-- Settles O46: an issue and the outcome of a micro-op keep the form; no other step touches the ports. -/
theorem stepKeepsPortsForm : Obligations.StepKeepsPortsForm := by
  intro s t h hstep
  have quiet {s0 : State} (hq : Quiet s s0) : PortsForm s0 :=
    portsForm_congr h hq.cfg (by rw [hq.unitP]) (by rw [hq.unitP])
  cases step_cases hstep with
  | quiet hq => exact quiet hq
  | pixel s0 hq i idx v u hu hidx ht => rw [ht]; exact (quiet hq : PortsForm s0)
  | word s0 hq π w st hst hidle ht =>
    exact (runWord_cases hst hidle ht).portsForm (portsForm_storeCmd (quiet hq) π w)
  | wait s0 hq p us hm he ht =>
    rw [ht]
    refine portsForm_settle (quiet hq) p _ fun P hP reg hreg => ?_
    rw [seq_of_nextMicroOp hm hP] at hreg
    cases hreg
  | micro s0 hq p m i hm hi ht => exact portsForm_micro (quiet (hq.trans (Quiet.sel s0 (.pwm p)))) rfl hm hi ht
  | osc s0 hq ht => rw [ht, oscStep_only_slave]; exact (quiet hq : PortsForm s0)
  | unit s0 hq i ht =>
    have hf := unitStep_frame i s0
    rw [ht]
    exact portsForm_congr (quiet hq) hf.cfg (by rw [hf.unitP]) (by rw [hf.unitP])
  | bare s0 hq f i hf hb ht =>
    exact portsForm_txFrame (Transacts.ports_of_direct (ht ▸ exec_frame hf { s0 with sel := .direct }) rfl)
      (quiet (hq.trans (Quiet.sel s0 .direct)))

/-! ### The W units -/

theorem unitsForm_setStrip {s : State} (h : UnitsForm s) (i : Nat) {u : WUnit} (hu : UnitForm u) :
    UnitsForm (setStrip i u s) :=
  forall_mem_set h hu

theorem unitsForm_congr {s t : State} (h : UnitsForm s) (hstrips : t.strips = s.strips) : UnitsForm t := by
  unfold UnitsForm; rw [hstrips]; exact h

/-- A unit whose queue and ports are as they were keeps its form with its buffers'. -/
theorem unitForm_buffers {u v : WUnit} (h : UnitForm u) (hb : BufferForm v) (hports : v.ports = u.ports)
    (hqueue : v.queue = u.queue) (hconf : v.conf = u.conf) : UnitForm v :=
  ⟨queueForm_congr h.1 hports hqueue hconf, hb, hports ▸ h.2.2⟩

theorem bufferForm_ibufWrite {u : WUnit} (h : BufferForm u) {idx : Nat} (hidx : idx < ibufSize u.conf) (v : Byte) :
    BufferForm { u with ibuf := Memory.write unwritten u.ibuf idx v } := by
  obtain ⟨hi, hrest⟩ := h
  refine ⟨fun c hc => ?_, hrest⟩
  obtain hc | rfl := Memory.write_keys hc
  · exact hi c hc
  · exact hidx

/-- The queue's form asks for a port's status and `upc` only. -/
theorem queueForm_setCmd {u : WUnit} (h : QueueForm u) {q : Nat} {P : WPort} (hP : u.ports[q]? = some P) (w : Word) :
    QueueForm (setWPort q { P with cmd := some w } u) := by
  have at_q : (u.ports.set q { P with cmd := some w })[q]? = some { P with cmd := some w } := getElem?_set_of_some hP
  obtain ⟨hnodup, hqueued, hbusy, htail⟩ := h
  refine ⟨hnodup, fun e he => ?_, fun q' P' hP' hb => ?_, fun e he P' hP' => ?_⟩
  · obtain ⟨P', hP', hrest⟩ := hqueued e he
    by_cases hq : q = e.1
    · rw [← hq, hP] at hP'
      cases hP'
      rw [← hq]
      exact ⟨_, at_q, hrest⟩
    · exact ⟨P', (List.getElem?_set_ne hq).trans hP', hrest⟩
  · simp only [setWPort] at hP'
    by_cases hq : q = q'
    · subst hq
      rw [at_q] at hP'
      cases hP'
      exact hbusy q P hP hb
    · exact hbusy q' P' ((List.getElem?_set_ne hq).symm.trans hP') hb
  · simp only [setWPort] at hP'
    by_cases hq : q = e.1
    · rw [← hq, at_q] at hP'
      cases hP'
      exact htail e he P (hq ▸ hP)
    · exact htail e he P' ((List.getElem?_set_ne hq).symm.trans hP')

theorem unitForm_setCmd {u : WUnit} (h : UnitForm u) {q : Nat} {P : WPort} (hP : u.ports[q]? = some P) (w : Word) :
    UnitForm (setWPort q { P with cmd := some w } u) :=
  ⟨queueForm_setCmd h.1 hP w, bufferForm_congr h.2.1 rfl rfl rfl rfl rfl rfl rfl,
    forall_mem_set h.2.2 (h.2.2 P (mem_of_get hP))⟩

theorem unitsForm_storeCmd {s : State} (h : UnitsForm s) (π : PortSel) (w : Word) :
    UnitsForm { storeCmd π w s with sel := π } := by
  cases π with
  | pwm p => simp only [storeCmd]; split <;> exact h
  | ws i q =>
    simp only [storeCmd]
    split
    · exact h
    next hu =>
      split
      · exact h
      next hP => exact unitsForm_setStrip h i (unitForm_setCmd (h _ (mem_of_get hu)) hP w)
  | direct => exact h

theorem IssueCase.unitsForm {s t : State} (hc : IssueCase s t) (h : UnitsForm s) : UnitsForm t := by
  cases hc with
  | rejected p P hP hidle code hok hbus ht => rw [ht, completePwm_only_unitP]; exact h
  | rejectedWs i q u P hu hP hidle code hok hbus ht =>
    rw [ht]; exact unitsForm_setStrip h i (unitForm_rejected (h u (mem_of_get hu)) hP hidle code)
  | accepted p P hP hidle c hc ht => rw [ht, acceptPwm_eq]; exact h
  | acceptedWs i q u P hu hP hidle c hc ht =>
    rw [ht]; exact unitsForm_setStrip h i (unitForm_accepted (h u (mem_of_get hu)) hP hidle hc)

theorem Transacts.strips {s t : State} (h : Transacts s (.next t)) : t.strips = s.strips := by
  have done {tx : State → TxReturn × State} (hf : TxFrame s (tx s).2) : (perform tx s).strips = s.strips := by
    rw [perform, deliver_only_unitP]; exact hf.strips
  cases h with
  | wr a reg d => exact done (transactWr_frame ..)
  | rd a reg => exact done (transactRd_frame ..)
  | gc d => exact done (transactGc_frame ..)

/-! ### The step of the head command -/

/-- An `ENC` step has the byte count of its command. -/
theorem count_of_enc {c : WsCmd} {k : Nat} {mode : EncMode} {n : BitVec 16}
    (h : (wsSteps c)[k]? = some (.enc mode n)) : c.count = n.toNat := by
  have hmem := List.mem_of_getElem? h
  cases c <;> simp [wsSteps] at hmem <;> simp [WsCmd.count, hmem]

/-- A command that has a step besides its `ENC` has more than one. -/
theorem wsSteps_length_ne_one {c : WsCmd} {k : Nat} {st : WStep} (h : (wsSteps c)[k]? = some st)
    (hst : ∀ mode n, st ≠ .enc mode n) : (wsSteps c).length ≠ 1 := by
  cases c with
  | enc mode n => exact absurd (List.mem_singleton.1 (List.mem_of_getElem? h)) (hst mode n)
  | tx => simp [wsSteps]
  | display mode n => simp [wsSteps]

section Head

variable {s : State} {i q : Nat} {u : WUnit} {P : WPort} {c : WsCmd} {rest : List (Nat × WsCmd)}
  (hs : UnitsForm s) (hu : UnitForm u) (hq : u.queue = (q, c) :: rest) (hP : u.ports[q]? = some P)
include hs hu hq hP

theorem unitsForm_encStep {mode : EncMode} {n : BitVec 16} (hwf : Memory.wf unwritten u.obuf)
    (hstep : (wsSteps c)[P.upc.toNat]? = some (.enc mode n)) : UnitsForm (encStep i q P c mode n u s) := by
  unfold encStep
  split
  · exact unitsForm_setStrip hs i (unitForm_buffers (v := { u with stopped := true }) hu hu.2.1 rfl rfl rfl)
  next bytes hbytes =>
    have hfit : bytes.length ≤ ibufSize u.conf := by
      obtain ⟨-, -, -, -, hcount⟩ := hu.1.2.1 (q, c) (by simp [hq])
      rwa [Memory.readBytes_length hbytes, ← count_of_enc hstep]
    have hv := unitForm_buffers (v := encodeInto (packing s.cfg.encAutoThreshold mode n.toNat) bytes u) hu
      (bufferForm_encodeInto hu.2.1 hwf _ hfit) rfl rfl rfl
    refine unitsForm_setStrip hs i ?_
    split
    · exact unitForm_finished hv hq hP (List.getElem?_eq_some_iff.1 hstep).1
    next hlast =>
      have hone : (wsSteps c).length ≠ 1 := fun h => hlast (by simp [h])
      exact unitForm_bumped hv hq hP (wsSteps_more hstep (by simp) hone)

theorem unitsForm_xferStep (hhung : u.spiHung = false) (hstep : (wsSteps c)[P.upc.toNat]? = some .xfer) :
    UnitsForm (xferStep i q P u s) := by
  have hone := wsSteps_length_ne_one hstep (by simp)
  obtain ⟨hib, hob, holen, hwritten, hdiv, -⟩ := hu.2.1
  have sent (tx : TxState) (hung : Bool) (h : hung = true ↔ tx = .sending) (e : TraceEvent) :
      UnitForm { u with trace := u.trace ++ [e], txState := tx, spiHung := hung } :=
    unitForm_buffers hu ⟨hib, hob, holen, hwritten, hdiv, h⟩ rfl rfl rfl
  have hs' : UnitsForm (afterDraw s) := unitsForm_congr hs (afterDraw_strips s)
  refine unitsForm_setStrip hs' i ?_
  split
  · exact unitForm_bumped (sent .latch u.spiHung (by simp [hhung]) _) hq hP (wsSteps_more hstep (by simp) hone)
  · exact unitForm_completed (sent .idle u.spiHung (by simp [hhung]) _) hq hP (by simp)
  · exact sent .sending true (by simp) _

theorem unitsForm_headStep (hwf : Memory.wf unwritten u.obuf) (hhung : u.spiHung = false) :
    UnitsForm (headStep i q P c u s) := by
  obtain ⟨hib, hob, holen, hwritten, hdiv, -⟩ := hu.2.1
  unfold headStep
  split
  · exact unitsForm_setStrip hs i (unitForm_completed hu hq hP fun _ => rfl)
  · split
    · exact hs
    next hstep => exact unitsForm_encStep hs hu hq hP hwf hstep
    next hstep =>
      have hone := wsSteps_length_ne_one hstep (by simp)
      exact unitsForm_setStrip hs i
        (unitForm_bumped (unitForm_buffers hu (bufferForm_synth hu.2.1) rfl rfl rfl) hq hP
          (wsSteps_more hstep (by simp) hone))
    next hstep => exact unitsForm_xferStep hs hu hq hP hhung hstep
    next hstep =>
      exact unitsForm_setStrip hs i
        (unitForm_finished (u := { u with trace := u.trace ++ [TraceEvent.latch], txState := .idle })
          (unitForm_buffers hu ⟨hib, hob, holen, hwritten, hdiv, by simp [hhung]⟩ rfl rfl rfl) hq hP
          (List.getElem?_eq_some_iff.1 hstep).1)

end Head

theorem unitsForm_unitStep {s : State} (hs : UnitsForm s) (hmem : ∀ u ∈ s.strips, Memory.wf unwritten u.obuf)
    (i : Nat) : UnitsForm (unitStep i s) := by
  unfold unitStep
  split
  · exact hs
  next u hu =>
    split
    · exact hs
    next hstops =>
      split
      · exact hs
      next hq =>
        split
        · exact hs
        next hP =>
          have hmem_u := mem_of_get hu
          rw [Bool.or_eq_true, not_or, Bool.not_eq_true, Bool.not_eq_true] at hstops
          exact unitsForm_headStep hs (hs u hmem_u) hq hP (hmem u hmem_u) hstops.2

/-- Settles O47: a pixel write, an issue and the step of a W unit keep the form; no other step touches the units. -/
theorem stepKeepsUnitsForm : Obligations.StepKeepsUnitsForm := by
  intro s t hmem h hstep
  have quiet {s0 : State} (hq : Quiet s s0) : UnitsForm s0 := unitsForm_congr h hq.strips
  cases step_cases hstep with
  | quiet hq => exact quiet hq
  | pixel s0 hq i idx v u hu hidx ht =>
    have hform := quiet hq u (mem_of_get hu)
    rw [ht]
    exact unitsForm_setStrip (quiet hq) i (unitForm_buffers hform (bufferForm_ibufWrite hform.2.1 hidx v) rfl rfl rfl)
  | word s0 hq π w st hst hidle ht =>
    exact (runWord_cases hst hidle ht).unitsForm (unitsForm_storeCmd (quiet hq) π w)
  | wait s0 hq p us hm he ht => rw [ht, settle_only_unitP]; exact (quiet hq : UnitsForm s0)
  | micro s0 hq p m i hm hi ht =>
    exact unitsForm_congr (quiet (hq.trans (Quiet.sel s0 (.pwm p)))) (Transacts.strips (ht ▸ exec_micro hi _))
  | osc s0 hq ht => rw [ht, oscStep_only_slave]; exact (quiet hq : UnitsForm s0)
  | unit s0 hq i ht =>
    rw [ht]
    exact unitsForm_unitStep (quiet hq) (fun u hu => (hmem.2 u (hq.strips ▸ hu)).2) i
  | bare s0 hq f i hf hb ht =>
    exact unitsForm_congr (quiet (hq.trans (Quiet.sel s0 .direct))) (Transacts.strips (ht ▸ exec_frame hf _))

end Sys2Proof.Machine
end

section
/-! Unit P and the W units neither change nor read each other, nor do two strips (spec/10_state.md R30, 20_memory.md
R94, 42_ws2812_encoder.md R262): a step of the one commutes with a change of the other. -/

namespace Sys2Proof.Machine

/-! ### A change that W unit `i` does not see -/

/-- A change of the state that the step of W unit `i` neither sees nor undoes: it keeps the unit, the parameters and the
environment, and commutes with all the step does. -/
structure UnseenBy (i : Nat) (f : State → State) : Prop where
  strip (s : State) : (f s).strips[i]? = s.strips[i]?
  cfg (s : State) : (f s).cfg = s.cfg
  env (s : State) : (f s).env = s.env
  setStrip (u : WUnit) (s : State) : setStrip i u (f s) = f (setStrip i u s)
  markFault (r : FaultReason) (s : State) : markFault r (f s) = f (markFault r s)
  withEnv (e : Env) (s : State) : { f s with env := e } = f { s with env := e }

/-- Another unit P and another slave are not seen. -/
theorem unseenBy_unitP (i : Nat) (P : PwmUnit) (sl : Slave) :
    UnseenBy i fun s => { s with unitP := P, slave := sl } :=
  ⟨fun _ => rfl, fun _ => rfl, fun _ => rfl, fun _ _ => rfl, fun _ _ => rfl, fun _ _ => rfl⟩

/-- Other contents of another strip are not seen. -/
theorem unseenBy_strip {i j : Nat} (hij : j ≠ i) (v : WUnit) :
    UnseenBy i fun s => { s with strips := s.strips.set j v } where
  strip s := List.getElem?_set_ne hij
  cfg _ := rfl
  env _ := rfl
  setStrip u s := by simp only [Machine.setStrip, List.set_comm _ _ hij]
  markFault _ _ := rfl
  withEnv _ _ := rfl

section Unseen

variable {i : Nat} {f : State → State} (hf : UnseenBy i f) (s : State)
include hf

theorem UnseenBy.advance (n : Nat) : advance n (f s) = f (advance n s) := by
  simp only [Machine.advance, hf.env, hf.withEnv]

theorem UnseenBy.nextDraw : nextDraw (f s) = nextDraw s := by
  simp only [Machine.nextDraw, hf.env]

theorem UnseenBy.afterDraw : afterDraw (f s) = f (afterDraw s) := by
  simp only [Machine.afterDraw, hf.env]
  split
  · exact hf.withEnv _ s
  · exact hf.advance s 1

theorem UnseenBy.frameBytes (u : WUnit) : frameBytes (f s) u = frameBytes s u := by
  simp only [Machine.frameBytes, freeByte, hf.env]

theorem UnseenBy.headStep (q : Nat) (P : WPort) (c : WsCmd) (u : WUnit) :
    headStep i q P c u (f s) = f (headStep i q P c u s) := by
  unfold Machine.headStep
  split
  · exact hf.setStrip _ s
  · split
    · rfl
    · unfold encStep
      split
      · rw [hf.setStrip, hf.markFault]
      · rw [hf.cfg]
        exact hf.setStrip _ s
    · exact hf.setStrip _ s
    · simp only [xferStep, hf.nextDraw, hf.afterDraw, hf.frameBytes, hf.setStrip, hf.advance]
    · exact hf.setStrip _ s

theorem UnseenBy.unitStep : unitStep i (f s) = f (unitStep i s) := by
  unfold Machine.unitStep
  rw [hf.strip]
  split
  · rfl
  · split
    · rfl
    · split
      · rfl
      · split
        · rfl
        · exact hf.headStep s _ _ _ _

end Unseen

/-! ### Other strips, which unit P and the slave do not see -/

/-- The state with other W units. -/
def withStrips (us : List WUnit) (s : State) : State := { s with strips := us }

section WithStrips

variable (us : List WUnit) (s : State)

@[simp] theorem withStrips_cfg : (withStrips us s).cfg = s.cfg := rfl
@[simp] theorem withStrips_unitP : (withStrips us s).unitP = s.unitP := rfl
@[simp] theorem withStrips_slave : (withStrips us s).slave = s.slave := rfl
@[simp] theorem withStrips_sel : (withStrips us s).sel = s.sel := rfl
@[simp] theorem withStrips_frames : (withStrips us s).frames = s.frames := rfl

@[simp] theorem refuse_withStrips (r : RefuseReason) : refuse r (withStrips us s) = withStrips us (refuse r s) := rfl
@[simp] theorem logBus_withStrips (e : BusEntry) : logBus e (withStrips us s) = withStrips us (logBus e s) := rfl
@[simp] theorem advance_withStrips (n : Nat) : advance n (withStrips us s) = withStrips us (advance n s) := rfl
@[simp] theorem setPort_withStrips (p : Nat) (P : PwmPort) :
    setPort p P (withStrips us s) = withStrips us (setPort p P s) := rfl
@[simp] theorem hangBus_withStrips : hangBus (withStrips us s) = withStrips us (hangBus s) := rfl
@[simp] theorem withSlave_withStrips (sl : Slave) : withSlave sl (withStrips us s) = withStrips us (withSlave sl s) :=
  rfl
@[simp] theorem nextDraw_withStrips : nextDraw (withStrips us s) = nextDraw s := rfl
@[simp] theorem freeByte_withStrips (n : Nat) : freeByte (withStrips us s) n = freeByte s n := rfl

@[simp] theorem withStrips_count : (withStrips us s).env.count = s.env.count := rfl

@[simp] theorem afterDraw_withStrips : afterDraw (withStrips us s) = withStrips us (afterDraw s) := by
  cases h : s.env.outcomes with
  | nil => simp only [afterDraw, withStrips, h]; rfl
  | cons o rest => simp only [afterDraw, withStrips, h]

@[simp] theorem completePwm_withStrips (p : Nat) (code : ErrCode) (step : Byte) :
    completePwm p code step (withStrips us s) = withStrips us (completePwm p code step s) := by
  cases h : s.unitP.ports[p]? with
  | none => simp only [completePwm, withStrips_unitP, h]
  | some P => simp only [completePwm, withStrips_unitP, h]; rfl

@[simp] theorem settle_withStrips (p : Nat) (r : TxReturn) :
    settle p r (withStrips us s) = withStrips us (settle p r s) := by
  cases hP : s.unitP.ports[p]? with
  | none => simp only [settle, withStrips_unitP, hP]
  | some P =>
    by_cases hpend : P.pending = true
    · cases r with
      | ok data => by_cases hlast : P.upc.toNat + 1 = P.seq.length <;> simp [settle, hP, hpend, hlast]
      | _ => simp [settle, hP, hpend]
    · simp [settle, hP, hpend]

@[simp] theorem deliver_withStrips (r : TxReturn) : deliver r (withStrips us s) = withStrips us (deliver r s) := by
  cases h : s.sel <;> simp [deliver, h]

end WithStrips

/-- A transaction does the same with any other strips. -/
def IgnoresStrips (tx : State → TxReturn × State) : Prop :=
  ∀ us s, tx (withStrips us s) = ((tx s).1, withStrips us (tx s).2)

theorem transactWr_ignoresStrips (a : BitVec 7) (reg d : Byte) : IgnoresStrips (transactWr a reg d) := by
  intro us s
  by_cases hh : s.unitP.i2cHung = true
  · simp [transactWr, hh]
  · cases ha : decodeAddr s.cfg.slaveAddr s.slave a false with
    | selected =>
      cases hd : nextDraw s with
      | ok => cases hw : slaveWrite reg d s.slave <;> simp [transactWr, hh, ha, hd, hw]
      | _ => simp [transactWr, hh, ha, hd]
    | _ => simp [transactWr, hh, ha]

theorem transactRd_ignoresStrips (a : BitVec 7) (reg : Byte) : IgnoresStrips (transactRd a reg) := by
  intro us s
  by_cases hh : s.unitP.i2cHung = true
  · simp [transactRd, hh]
  · cases ha : decodeAddr s.cfg.slaveAddr s.slave a false with
    | selected =>
      cases hd : nextDraw s with
      | ok => cases hr : decodeAddr s.cfg.slaveAddr s.slave a true <;> simp [transactRd, hh, ha, hd, hr]
      | _ => simp [transactRd, hh, ha, hd]
    | _ => simp [transactRd, hh, ha]

theorem transactGc_ignoresStrips (d : Byte) : IgnoresStrips (transactGc d) := by
  intro us s
  by_cases hh : s.unitP.i2cHung = true
  · simp [transactGc, hh]
  · cases hg : generalCall d with
    | error r => simp [transactGc, hh, hg]
    | ok sl => cases hd : nextDraw s <;> simp [transactGc, hh, hg, hd]

/-- An instruction that is one transaction with a frame, which other strips do not disturb. -/
def RunsTransaction (i : Instr) : Prop :=
  ∃ tx, (∀ s, exec i s = .next (perform tx s)) ∧ (∀ s, TxFrame s (tx s).2) ∧ IgnoresStrips tx

theorem runsTransaction_wr (a : BitVec 7) (reg d : Byte) : RunsTransaction (.i2cWr a reg d) :=
  ⟨_, fun _ => rfl, transactWr_frame a reg d, transactWr_ignoresStrips a reg d⟩

theorem runsTransaction_rd (a : BitVec 7) (reg : Byte) : RunsTransaction (.i2cRd a reg) :=
  ⟨_, fun _ => rfl, transactRd_frame a reg, transactRd_ignoresStrips a reg⟩

theorem runsTransaction_gc (d : Byte) : RunsTransaction (.i2cGc d) :=
  ⟨_, fun _ => rfl, transactGc_frame d, transactGc_ignoresStrips d⟩

theorem runsTransaction_of_micro {a : BitVec 7} {tmp : Option Byte} {free : Byte} {m : MicroOp} {i : Instr}
    (h : microInstr a tmp free m = some i) : RunsTransaction i := by
  cases m <;> cases h
  · exact runsTransaction_gc _
  · exact runsTransaction_rd _ _
  · exact runsTransaction_wr _ _ _

theorem runsTransaction_of_frame {f : List (List Byte)} {i : Instr} (h : decodeFrame f = .ok i) :
    RunsTransaction i := by
  obtain ⟨a, reg, d, rfl, -⟩ | ⟨a, reg, d, rfl, -⟩ | ⟨d, rfl, -⟩ := frame_of_decodeFrame_ok h
  · exact runsTransaction_wr _ _ _
  · exact runsTransaction_rd _ _
  · exact runsTransaction_gc _

/-- What a step of unit P's side does with the strips: it leaves them and the faults, and does the same with others. -/
def LeavesStrips (step : State → Host.Outcome State Fault Refusal) : Prop :=
  ∀ {s t : State}, step s = .next t →
    (t.strips = s.strips ∧ t.faults = s.faults) ∧ ∀ us, step (withStrips us s) = .next (withStrips us t)

theorem RunsTransaction.leavesStrips {i : Instr} (h : RunsTransaction i) : LeavesStrips (exec i) := by
  obtain ⟨tx, hexec, hframe, hignore⟩ := h
  intro s t ht
  rw [hexec] at ht
  cases ht
  refine ⟨?_, fun us => ?_⟩
  · rw [perform, deliver_only_unitP]
    exact ⟨(hframe s).strips, (hframe s).faults⟩
  · rw [hexec, perform, hignore, perform, deliver_withStrips]

/-- The step of a context whose next micro-op is a transaction (R193-R195). -/
theorem seqStep_of_instr {s : State} {p : Nat} {m : MicroOp} {i : Instr} (hm : nextMicroOp s.unitP.ports p = some m)
    (hi : microInstr s.unitP.devAddr (portTmp s.unitP.ports p) (freeByte s 0) m = some i) :
    seqStep p s = exec i { s with sel := .pwm p } := by
  cases m with
  | wait us => cases hi
  | _ => simp only [seqStep, hm, hi]

theorem seqStep_leavesStrips (p : Nat) : LeavesStrips (seqStep p) := by
  intro s t h
  cases hm : nextMicroOp s.unitP.ports p with
  | none =>
    rw [seqStep_of_none hm] at h
    cases h
    exact ⟨⟨rfl, rfl⟩, fun us => seqStep_of_none hm⟩
  | some m =>
    cases hi : microInstr s.unitP.devAddr (portTmp s.unitP.ports p) (freeByte s 0) m with
    | none =>
      cases m with
      | wait us =>
        rw [seqStep_of_wait hm] at h
        cases h
        refine ⟨?_, fun us' => ?_⟩
        · split
          · rw [settle_only_unitP]; exact ⟨rfl, rfl⟩
          · exact ⟨rfl, rfl⟩
        · rw [seqStep_of_wait (s := withStrips us' s) hm]
          by_cases he : waitEnabled s.slave.osc us = true <;> simp [he]
      | _ => cases hi
    | some i =>
      rw [seqStep_of_instr hm hi] at h
      obtain ⟨hleft, hother⟩ := (runsTransaction_of_micro hi).leavesStrips h
      exact ⟨hleft, fun us => (seqStep_of_instr (s := withStrips us s) hm hi).trans (hother us)⟩

theorem masterStep_leavesStrips : LeavesStrips masterStep := by
  intro s t h
  cases hframes : s.frames with
  | nil =>
    simp only [masterStep, hframes] at h
    cases h
    exact ⟨⟨rfl, rfl⟩, fun us => by simp only [masterStep, withStrips_frames, hframes]⟩
  | cons f rest =>
    by_cases hhung : s.unitP.i2cHung = true
    · simp only [masterStep, hframes, hhung, if_true] at h
      cases h
      exact ⟨⟨rfl, rfl⟩, fun us => by simp [masterStep, hframes, hhung]⟩
    · cases hf : decodeFrame f with
      | error e =>
        simp only [masterStep, hframes, hhung, hf] at h
        cases h
        exact ⟨⟨rfl, rfl⟩, fun us => by simp [masterStep, hframes, hhung, hf]; rfl⟩
      | ok i =>
        cases hb : bareRefusal i with
        | some r =>
          simp only [masterStep, hframes, hhung, hf, hb] at h
          cases h
          exact ⟨⟨rfl, rfl⟩, fun us => by simp [masterStep, hframes, hhung, hf, hb]; rfl⟩
        | none =>
          have hrun (us : List WUnit) : masterStep (withStrips us s) =
              exec i (withStrips us { s with frames := rest, sel := .direct }) := by
            simp only [masterStep, withStrips_frames, withStrips_unitP, hframes, hhung, hf, hb]
            rfl
          obtain ⟨hleft, hother⟩ := (runsTransaction_of_frame hf).leavesStrips ((hrun s.strips).symm.trans h)
          exact ⟨hleft, fun us => (hrun us).trans (hother us)⟩

theorem oscStep_leavesStrips : LeavesStrips fun s => .next (oscStep s) := by
  intro s t h
  cases h
  rw [oscStep_only_slave]
  refine ⟨⟨rfl, rfl⟩, fun us => ?_⟩
  simp only [oscStep, withStrips]
  split <;> rfl

/-- The step of the scheduled agent of unit P's side leaves the strips. -/
theorem step_leavesStrips {s t : State} {rest : List Agent} (h : step s = .next t)
    (hsched : (∃ p, s.env.sched = .seq p :: rest) ∨ s.env.sched = .osc :: rest ∨ s.env.sched = .master :: rest) :
    (t.strips = s.strips ∧ t.faults = s.faults) ∧
      ∀ us : List WUnit, step { s with strips := us } = .next { t with strips := us } := by
  have of_agent {a : Agent} (hsched : s.env.sched = a :: rest) (ha : LeavesStrips (agentStep a)) := by
    have hstep := step_of_sched hsched
    refine (⟨?_, fun us => ?_⟩ : (t.strips = s.strips ∧ t.faults = s.faults) ∧
      ∀ us : List WUnit, step { s with strips := us } = .next { t with strips := us })
    · exact (ha (hstep.symm.trans h)).1
    · rw [step_of_sched (s := { s with strips := us }) hsched]
      exact (ha (hstep.symm.trans h)).2 us
  obtain ⟨p, hsched⟩ | hsched | hsched := hsched
  · exact of_agent hsched (seqStep_leavesStrips p)
  · exact of_agent hsched oscStep_leavesStrips
  · exact of_agent hsched masterStep_leavesStrips

/-- Settles O50: the frames of the agents' steps, and that each commutes with a change of what it does not read. -/
theorem unitsIndependent : Obligations.UnitsIndependent := by
  intro s t rest h
  refine ⟨fun i hsched => ?_, fun hsched => (step_leavesStrips h hsched).1, fun i hsched => ?_,
    fun hsched => (step_leavesStrips h hsched).2⟩
  · rw [step_of_sched hsched] at h
    cases h
    have hf := unitStep_frame i { s with env := { s.env with sched := rest } }
    exact ⟨hf.unitP, hf.slave, hf.busLog, hf.refused, hf.others⟩
  · have unseen {f : State → State} (hf : UnseenBy i f) : step (f s) = .next (f t) := by
      rw [step_of_sched (s := f s) ((hf.env s).symm ▸ hsched), hf.env, hf.withEnv]
      rw [step_of_sched hsched] at h
      cases h
      exact congrArg _ (hf.unitStep _)
    exact ⟨fun P sl => unseen (unseenBy_unitP i P sl), fun j v hj => unseen (unseenBy_strip hj v)⟩

end Sys2Proof.Machine
end

section
/-! The issue of a command (spec/41_pwm_commands.md R190, R233; 42_ws2812_encoder.md R254): at an idle port it is
accepted or rejected, at a busy port it holds, and a port the platform does not have is a fault. -/

namespace Sys2Proof.Machine

open Sys2Proof.Safety

/-! ### An accepted command of unit P -/

theorem issuePwm_accepted {s : State} {p : Nat} {P : PwmPort} (hsel : s.sel = .pwm p)
    (hP : s.unitP.ports[p]? = some P) (hidle : P.status.busy = false) {c : PwmCmd} (hc : validate c = none) :
    issuePwm c s = .next (acceptPwm p P c s) := by
  simp only [issuePwm_at hsel hP, hidle, hc, Bool.false_eq_true, if_false]

theorem validate_init {a : BitVec 7} (h : a ≠ 0) : validate (.init a) = none := if_neg h

theorem validate_freq {hz : BitVec 16} (h : hz ≠ 0) : validate (.freq hz) = none := if_neg h

theorem validate_chan {ch : BitVec 8} (h : ch.toNat ≤ 15) (duty : BitVec 12) : validate (.chan ch duty) = none :=
  if_neg h.not_gt

/-- The low duty register of a channel (R221). -/
theorem dutyReg_eq_lowDuty (cfg : Params) (ch : Nat) : dutyReg cfg.dutyPair ch = lowDuty cfg ch := by
  unfold dutyReg lowDuty
  cases cfg.dutyPair <;> rfl

theorem dutyLow_eq (duty : BitVec 12) : duty.extractLsb' 0 8 = BitVec.ofNat 8 (duty.toNat % 256) :=
  BitVec.eq_of_toNat_eq (by simp)

theorem dutyHigh_eq (duty : BitVec 12) : (duty.extractLsb' 8 4).setWidth 8 = BitVec.ofNat 8 (duty.toNat / 256) :=
  BitVec.eq_of_toNat_eq (by have := duty.isLt; simp [Nat.shiftRight_eq_div_pow]; omega)

/-- The sequence of `pwm.chan`, the duty's two bytes as numbers (R221). -/
theorem commandSeq_chan (cfg : Params) (ch : BitVec 8) (duty : BitVec 12) :
    commandSeq cfg (.chan ch duty) =
      [.wr (BitVec.ofNat 8 (lowDuty cfg ch.toNat)) (.imm (BitVec.ofNat 8 (duty.toNat % 256))),
        .wr (BitVec.ofNat 8 (lowDuty cfg ch.toNat + 1)) (.imm (BitVec.ofNat 8 (duty.toNat / 256)))] := by
  simp only [commandSeq, dutyReg_eq_lowDuty, dutyLow_eq, dutyHigh_eq]

/-- Settles O7: the command passes its check, and an accepted command is `acceptPwm`. -/
theorem pwmInitAccepted : Obligations.PwmInitAccepted := by
  intro s p P a hsel hP hidle ha
  exact (issuePwm_accepted hsel hP hidle (validate_init ha)).trans (congrArg _ (acceptPwm_eq p P _ s))

/-- Settles O8: the command passes its check, and an accepted command is `acceptPwm`. -/
theorem pwmFreqAccepted : Obligations.PwmFreqAccepted := by
  intro s p P hz hsel hP hidle hhz
  exact (issuePwm_accepted hsel hP hidle (validate_freq hhz)).trans (congrArg _ (acceptPwm_eq p P _ s))

/-- Settles O9: the channel passes its check; `pwm.zero` issues the same command with duty 0. -/
theorem pwmChanAccepted : Obligations.PwmChanAccepted := by
  intro s p P ch hsel hP hidle hch accepted
  have issued (duty : BitVec 12) : issuePwm (.chan ch duty) s = .next (accepted duty) := by
    rw [issuePwm_accepted hsel hP hidle (validate_chan hch duty), acceptPwm_eq, acceptedPort, commandSeq_chan]
    rfl
  exact ⟨issued, issued 0⟩

/-- Settles O14: the mark is `conflicts`, which asks the other ports for an active or an exclusive command. -/
theorem concurrentIssueMarked : Obligations.ConcurrentIssueMarked := by
  intro s t p P hsel hP hidle another marked
  have issued {c : PwmCmd} {test : Option PwmCmd → Prop} (hc : validate c = none)
      (htest : conflicts s.unitP.ports p c = true ↔ another test) (ht : issuePwm c s = .next t) : marked test := by
    rw [issuePwm_accepted hsel hP hidle hc] at ht
    cases ht
    obtain ⟨hports, -, -⟩ := acceptPwm_ports p P c s
    refine ⟨?_, acceptedPort s.cfg c s.unitP.issueCtr P, by rw [hports]; exact getElem?_set_of_some hP, rfl⟩
    rw [acceptPwm_eq, ← htest]
    by_cases hconf : conflicts s.unitP.ports p c = true
    · simp [hconf, mem_addMark]
    · simp [hconf]
  have exclusive_iff (op : Option PwmCmd) :
      exclusive op = true ↔ (∃ a, op = some (.init a)) ∨ ∃ hz, op = some (.freq hz) := by
    rcases op with - | (_ | _ | _) <;> simp [exclusive]
  have any (c : PwmCmd) (hc : exclusive (some c) = true) :
      conflicts s.unitP.ports p c = true ↔ another fun _ => True := by
    rw [conflicts, if_pos hc, otherActive_iff]
    simp only [another]
  refine ⟨fun a ha => issued (test := fun _ => True) (validate_init ha) (any _ rfl),
    fun hz hhz => issued (test := fun _ => True) (validate_freq hhz) (any _ rfl),
    fun ch duty hch => issued (test := fun op => (∃ a, op = some (.init a)) ∨ ∃ hz, op = some (.freq hz))
      (validate_chan hch duty) ?_⟩
  rw [conflicts, if_neg (by simp [exclusive]), otherActive_iff]
  simp only [exclusive_iff, another]

/-! ### An accepted W command -/

theorem issueWs_accepted {s : State} {i q : Nat} {u : WUnit} {P : WPort} (hsel : s.sel = .ws i q)
    (hu : s.strips[i]? = some u) (hP : u.ports[q]? = some P) (hidle : P.status.busy = false) {c : WsCmd}
    (hc : c.count ≤ ibufSize u.conf) : issueWs c s = .next (setStrip i (acceptWs q P c u) s) := by
  simp only [issueWs_at hsel hu hP, hidle, if_neg hc.not_gt, Bool.false_eq_true, if_false]

/-- Settles O10: the byte count fits, and an accepted command is `acceptWs`. -/
theorem wsCommandAccepted : Obligations.WsCommandAccepted := by
  intro s i q u P hsel hu hP hidle accepted
  have issued (c : WsCmd) (hc : c.count ≤ 3 * u.conf.pixelCount) : issueWs c s = .next (accepted c) :=
    issueWs_accepted hsel hu hP hidle hc
  exact ⟨issued .tx (Nat.zero_le _), fun n hn => ⟨issued (.enc .m8 n) hn, issued (.enc .m4 n) hn,
    issued (.enc .auto n) hn, issued (.display .m8 n) hn, issued (.display .m4 n) hn, issued (.display .auto n) hn,
    issued (.display .auto n) hn⟩⟩

/-! ### A word written to an idle port -/

/-- A word at an idle PWM port is rejected with a code of its own, or a command of unit P is accepted (R190, R114). -/
theorem runWord_pwm_idle {s : State} {p : Nat} {P : PwmPort} (hP : s.unitP.ports[p]? = some P)
    (hidle : P.status.busy = false) (w : Word) :
    (∃ code, code ≠ .ok ∧ code ≠ .busError ∧
        runWord (.pwm p) w s =
          .next
            (setPort p { P with cmd := some w, status := { busy := false, failStep := 0, err := code }, seq := [] }
              { s with sel := .pwm p }))
      ∨ ∃ c, runWord (.pwm p) w s =
          .next
            (acceptPwm p { P with cmd := some w } c (setPort p { P with cmd := some w } { s with sel := .pwm p })) := by
  have illegal (h : ReservedWord w ∨ 0x10 ≤ w.toNat / 2 ^ 24) := illegalWordRejected.2.1 s p P w hP hidle h
  cases hd : decodeWord w with
  | error e => exact .inl ⟨_, by decide, by decide, illegal (.inl ((reservedWord_iff_decodeWord_error w).2 ⟨e, hd⟩))⟩
  | ok i =>
    obtain ⟨-, c, hc⟩ | ⟨hopc, -⟩ := decodeWord_unit hd
    · have hP' : (setPort p { P with cmd := some w } { s with sel := .pwm p }).unitP.ports[p]? =
          some { P with cmd := some w } := getElem?_set_of_some hP
      have hrun : runWord (.pwm p) w s = issuePwm c (setPort p { P with cmd := some w } { s with sel := .pwm p }) := by
        simp only [runWord, hd, hc, storeCmd_pwm hP]
        rfl
      rw [hrun]
      cases hv : validate c with
      | none => exact .inr ⟨c, issuePwm_accepted rfl hP' hidle hv⟩
      | some code =>
        refine .inl ⟨code, (validate_code hv).1, (validate_code hv).2, ?_⟩
        rw [issuePwm_rejected hP' rfl hidle hv]
        simp [setPort]
    · exact .inl ⟨_, by decide, by decide, illegal (.inr hopc)⟩

/-- A word at an idle W port is rejected with a code of its own, or a W command is accepted (R254, R114). -/
theorem runWord_ws_idle {s : State} {i q : Nat} {u : WUnit} {P : WPort} (hu : s.strips[i]? = some u)
    (hform : QueueForm u) (hP : u.ports[q]? = some P) (hidle : P.status.busy = false) (w : Word) :
    (∃ code, code ≠ .ok ∧ code ≠ .busError ∧
        runWord (.ws i q) w s =
          .next
            (setStrip i (setWPort q { P with cmd := some w, status := { busy := false, failStep := 0, err := code } } u)
              { s with sel := .ws i q }))
      ∨ ∃ c, runWord (.ws i q) w s =
          .next
            (setStrip i (acceptWs q { P with cmd := some w } c (setWPort q { P with cmd := some w } u))
              { s with sel := .ws i q }) := by
  have illegal (h : ReservedWord w ∨ w.toNat / 2 ^ 24 ≤ 0x03) :=
    illegalWordRejected.2.2 s i q u P w hu hform hP hidle h
  cases hd : decodeWord w with
  | error e => exact .inl ⟨_, by decide, by decide, illegal (.inl ((reservedWord_iff_decodeWord_error w).2 ⟨e, hd⟩))⟩
  | ok instr =>
    obtain ⟨hopc, -⟩ | ⟨-, c, hc⟩ := decodeWord_unit hd
    · exact .inl ⟨_, by decide, by decide, illegal (.inr hopc)⟩
    · have hu' : (setStrip i (setWPort q { P with cmd := some w } u) { s with sel := .ws i q }).strips[i]? =
          some (setWPort q { P with cmd := some w } u) := getElem?_set_of_some hu
      have hP' : (setWPort q { P with cmd := some w } u).ports[q]? = some { P with cmd := some w } :=
        getElem?_set_of_some hP
      have hrun : runWord (.ws i q) w s =
          issueWs c (setStrip i (setWPort q { P with cmd := some w } u) { s with sel := .ws i q }) := by
        simp only [runWord, hd, hc, storeCmd_ws hu hP]
        rfl
      rw [hrun]
      obtain hfit | hlong := le_or_gt c.count (ibufSize u.conf)
      · refine .inr ⟨c, ?_⟩
        rw [issueWs_accepted rfl hu' hP' hidle hfit]
        simp [setStrip]
      · refine .inl ⟨.bufferRange, by decide, by decide, ?_⟩
        rw [issueWs_rejected hu' hP' (idle_not_queued hform hP hidle) rfl hidle c hlong]
        simp [setStrip, setWPort]

/-- Settles O12: an accepted command leaves its port busy, so the word was rejected. -/
theorem rejectedChangesOnlyItsPort : Obligations.RejectedChangesOnlyItsPort := by
  refine ⟨fun s t p P Q w hP hidle ht hQ hQidle => ?pwm, fun s t i q u v P Q w hu hform hP hidle ht hv hQ hQidle => ?ws⟩
  case pwm =>
    obtain ⟨code, hok, hbus, hrun⟩ | ⟨c, hrun⟩ := runWord_pwm_idle hP hidle w
    · rw [hrun] at ht
      cases ht
      have hget := getElem?_set_of_some (y := { P with cmd := some w, seq := []
                                                       status := { busy := false, failStep := 0, err := code } }) hP
      cases hget.symm.trans hQ
      exact ⟨⟨hok, hbus, rfl⟩, rfl, rfl⟩
    · rw [hrun] at ht
      cases ht
      rw [(acceptPwm_ports p _ c _).1] at hQ
      cases (getElem?_set_of_some (getElem?_set_of_some hP)).symm.trans hQ
      cases hQidle
  case ws =>
    obtain ⟨code, hok, hbus, hrun⟩ | ⟨c, hrun⟩ := runWord_ws_idle hu hform hP hidle w
    · rw [hrun] at ht
      cases ht
      cases (getElem?_set_of_some hu).symm.trans hv
      cases (getElem?_set_of_some hP).symm.trans hQ
      exact ⟨⟨hok, hbus, rfl⟩, rfl, rfl⟩
    · rw [hrun] at ht
      cases ht
      cases (getElem?_set_of_some hu).symm.trans hv
      cases (getElem?_set_of_some (getElem?_set_of_some hP)).symm.trans hQ
      cases hQidle

/-! ### A busy port and a port that is not there -/

/-- An instruction with a command word issues a command of unit P or a W command. -/
theorem exec_of_encodeWord {i : Instr} {w : Word} (h : encodeWord i = some w) :
    (∃ c, ∀ s, exec i s = issuePwm c s) ∨ ∃ c, ∀ s, exec i s = issueWs c s := by
  cases i with
  | pwmInit a => exact .inl ⟨_, fun _ => rfl⟩
  | pwmFreq hz => exact .inl ⟨_, fun _ => rfl⟩
  | pwmChan ch duty => exact .inl ⟨_, fun _ => rfl⟩
  | pwmZero ch => exact .inl ⟨_, fun _ => rfl⟩
  | i2cWr a r d => cases h
  | i2cRd a r => cases h
  | i2cGc d => cases h
  | _ => exact .inr ⟨_, fun _ => rfl⟩

/-- What the issue of any command does by the status of its port: a busy port holds, an absent one faults. -/
theorem issue_of_portStatus (s : State) :
    (∀ st, portStatus s s.sel = some st → st.busy = true →
        issueIllegal s = .next s ∧ (∀ c, issuePwm c s = .next s) ∧ ∀ c, issueWs c s = .next s)
      ∧ (portStatus s s.sel = none →
        issueIllegal s = .fault .noSuchPort ∧ (∀ c, issuePwm c s = .fault .noSuchPort)
          ∧ ∀ c, issueWs c s = .fault .noSuchPort) := by
  cases hsel : s.sel with
  | pwm p =>
    cases hP : s.unitP.ports[p]? with
    | none => simp [portStatus, issueIllegal, issuePwm, issueWs, hsel, hP]
    | some P =>
      refine ⟨fun st hst hbusy => ?_, fun h => by simp [portStatus, hP] at h⟩
      have hb : P.status.busy = true := by simp_all [portStatus]
      simp [issueIllegal, issuePwm, issueWs, hsel, hP, hb]
  | ws i q =>
    cases hu : s.strips[i]? with
    | none => simp [portStatus, issueIllegal, issuePwm, issueWs, hsel, hu]
    | some u =>
      cases hP : u.ports[q]? with
      | none => simp [portStatus, issueIllegal, issuePwm, issueWs, hsel, hu, hP]
      | some P =>
        refine ⟨fun st hst hbusy => ?_, fun h => by simp [portStatus, hu, hP] at h⟩
        have hb : P.status.busy = true := by simp_all [portStatus]
        simp [issueIllegal, issuePwm, issueWs, hsel, hu, hP, hb]
  | direct => simp [portStatus, issueIllegal, issuePwm, issueWs, hsel]

section Scheduled

variable {s : State} {k : Nat} {rest : List Agent} {t : Thread} {ops : List HostOp} {π : PortSel} {offset width : Nat}
  {st : Status} (hsched : s.env.sched = .host k :: rest) (ht : s.host.threads[k]? = some t)
include hsched ht

theorem step_portWrite {w : Word} (hprog : t.prog = .portWrite π offset width w :: ops) :
    step s = portWrite k { t with prog := ops } π offset width w { s with env := { s.env with sched := rest } } := by
  simp only [step_of_sched hsched, agentStep, hostStep, ht, hprog]

theorem step_portRead (hprog : t.prog = .portRead π offset width :: ops) :
    step s = portRead k { t with prog := ops } π offset width { s with env := { s.env with sched := rest } } := by
  simp only [step_of_sched hsched, agentStep, hostStep, ht, hprog]

end Scheduled

/-- A write of `CMD` holds at a busy port and runs the word at an idle one (R190, R300). -/
theorem portWrite_cmd {s : State} {π : PortSel} {st : Status} (hst : portStatus s π = some st) (k : Nat) (t : Thread)
    (w : Word) :
    portWrite k t π 0 32 w s = if st.busy then .next s else runWord π w (setThread k t s) := by
  simp only [portWrite, hst, portReg]
  rfl

/-- Settles O13: the issue asks the port's status first, and so does the host's write. -/
theorem busyPortHoldsMissingPortFaults : Obligations.BusyPortHoldsMissingPortFaults := by
  refine ⟨fun s st i w hw hst hbusy => ?busy, fun s k rest t ops π w st hsched ht hprog hst hbusy => ?host,
    fun s i w hw hst => ?missing⟩
  case busy =>
    obtain ⟨-, hpwm, hws⟩ := (issue_of_portStatus s).1 st hst hbusy
    obtain ⟨c, hc⟩ | ⟨c, hc⟩ := exec_of_encodeWord hw
    · rw [hc, hpwm]
    · rw [hc, hws]
  case host =>
    have hst' : portStatus { s with env := { s.env with sched := rest } } π = some st := by rw [← hst]; cases π <;> rfl
    rw [step_portWrite hsched ht hprog, portWrite_cmd hst', if_pos hbusy]
  case missing =>
    obtain ⟨-, hpwm, hws⟩ := (issue_of_portStatus s).2 hst
    obtain ⟨c, hc⟩ | ⟨c, hc⟩ := exec_of_encodeWord hw
    · rw [hc, hpwm]
    · rw [hc, hws]

/-- Settles O27: the write of `CMD` at an idle port runs the word, and the decoder says which instruction that is. -/
theorem stepRunsWrittenWord : Obligations.StepRunsWrittenWord := by
  intro s k rest t ops π w st hsched ht hprog hst hidle s0
  have hst' : portStatus { s with env := { s.env with sched := rest } } π = some st := by rw [← hst]; cases π <;> rfl
  have hstep : step s = runWord π w s0 := by
    rw [step_portWrite hsched ht hprog, portWrite_cmd hst', if_neg (by simp [hidle])]
    rfl
  exact ⟨fun i hi => by simp only [hstep, runWord, hi], fun e he => by simp only [hstep, runWord, he]⟩

end Sys2Proof.Machine
end

section
/-! The values of the slave's register writes (spec/40_pwm_slave.md R142, R144, R146-R150): `MODE1` with its oscillator,
and the writes that store their bits. -/

namespace Sys2Proof.Machine

/-! ### `MODE1` -/

/-- Settles O16: a `MODE1` write is `mode1Write`, whose checks are two bits of the data. -/
theorem mode1WriteValue : Obligations.Mode1WriteValue := by
  intro sl d hwf
  have hwrite : slaveWrite 0x00 d sl = mode1Write d sl := rfl
  refine ⟨fun h => ?_, fun h6 h7 => ?_, fun h => ⟨_, slaveWrite_mode1 sl d h, ?_, fun r hr => ?_, ?_⟩⟩
  · rw [hwrite, mode1Write, if_pos ((getLsbD_7_iff d).2 h)]
  · rw [hwrite, mode1Write, if_neg (by rw [getLsbD_7_iff]; omega), if_pos ((getLsbD_6_iff d h7).2 h6)]
  · rw [srRead_osc, srRead_srWrite_same hwf]
  · rw [srRead_osc, srRead_srWrite_other hr]
  · rw [testBit_eq_getLsbD, testBit_eq_getLsbD, ← asleep]
    cases asleep sl <;> cases d.getLsbD 4 <;> rfl

/-! ### The registers that store their bits -/

/-- The byte an LED register stores: a low register all bits, a high one bits 4:0 (R148, R149). -/
def ledByte (r : Nat) (d : Byte) : Byte := if (r - 0x06) % 2 = 0 then d else d &&& 0x1F

theorem ledWrite_eq (r : Nat) (d : Byte) (sl : Slave) : ledWrite r d sl = srWrite r (ledByte r d) sl := by
  unfold ledWrite ledByte; split <;> rfl

theorem ledByte_low {r : Nat} (h : (r - 0x06) % 2 = 0) (d : Byte) : ledByte r d = d := if_pos h

theorem ledByte_high {r : Nat} (h : (r - 0x06) % 2 = 1) (d : Byte) : (ledByte r d).toNat = d.toNat % 32 := by
  rw [ledByte, if_neg (by omega), and_1F_toNat]

/-- The byte a register 0x01..0x45 stores (R146-R149). -/
def plainByte (reg d : Byte) : Byte :=
  if reg.toNat = 0x01 then d &&& 0x1F else if reg.toNat ≤ 0x05 then d else ledByte reg.toNat d

theorem slaveWrite_plain {reg : Byte} (hlo : 0x01 ≤ reg.toNat) (hhi : reg.toNat ≤ 0x45) (d : Byte) (sl : Slave) :
    slaveWrite reg d sl = .ok (srWrite reg.toNat (plainByte reg d) sl) := by
  simp only [slaveWrite, plainByte, if_neg (show ¬reg.toNat = 0x00 by omega)]
  split
  next h => rw [h]
  next =>
    split
    · rfl
    · rw [ledWrite_eq]

theorem slaveWrite_allLed {k : Nat} (hk : k < 4) (d : Byte) (sl : Slave) :
    slaveWrite (BitVec.ofNat 8 (0xFA + k)) d sl = .ok (allLedWrite k d 16 sl) := by
  have hreg : (BitVec.ofNat 8 (0xFA + k)).toNat = 0xFA + k := by rw [BitVec.toNat_ofNat]; omega
  simp only [slaveWrite, hreg]
  rw [if_neg (by omega), if_neg (by omega), if_neg (by omega), if_neg (by omega), if_neg (by omega),
    if_pos (by omega), Nat.add_sub_cancel_left]

section AllLed

variable (k : Nat) (d : Byte) (n : Nat) {sl : Slave}

theorem allLedWrite_succ (sl : Slave) :
    allLedWrite k d (n + 1) sl = srWrite (0x06 + 4 * n + k) (ledByte (0x06 + 4 * n + k) d) (allLedWrite k d n sl) :=
  ledWrite_eq ..

theorem allLedWrite_osc : (allLedWrite k d n sl).osc = sl.osc := by
  induction n with
  | zero => rfl
  | succ n ih => rw [allLedWrite_succ]; exact ih

theorem allLedWrite_wf (hwf : Memory.wf slaveReset sl.sr) : Memory.wf slaveReset (allLedWrite k d n sl).sr := by
  induction n with
  | zero => exact hwf
  | succ n ih => rw [allLedWrite_succ]; exact Memory.write_wf ih _ _

theorem srRead_allLedWrite_other {r : Nat} (hr : ∀ m < n, r ≠ 0x06 + 4 * m + k) :
    srRead (allLedWrite k d n sl) r = srRead sl r := by
  induction n with
  | zero => rfl
  | succ n ih =>
    rw [allLedWrite_succ, srRead_srWrite_other (hr n (by omega)), ih fun m hm => hr m (by omega)]

theorem srRead_allLedWrite_channel (hwf : Memory.wf slaveReset sl.sr) {m : Nat} (hm : m < n) :
    srRead (allLedWrite k d n sl) (0x06 + 4 * m + k) = ledByte (0x06 + 4 * m + k) d := by
  induction n with
  | zero => omega
  | succ n ih =>
    rw [allLedWrite_succ]
    obtain hlt | rfl := Nat.lt_succ_iff_lt_or_eq.1 hm
    · rw [srRead_srWrite_other (by omega), ih hlt]
    · exact srRead_srWrite_same (allLedWrite_wf k d m hwf) _ _

end AllLed

/-- Settles O17: a plain write stores its byte in its register; `ALL_LED` stores its byte on all sixteen channels. -/
theorem plainRegisterWriteValue : Obligations.PlainRegisterWriteValue := by
  refine ⟨fun sl reg d hwf hlo hhi => ?plain, fun sl k d hwf hk => ?all⟩
  case plain =>
    refine ⟨_, slaveWrite_plain hlo hhi d sl, rfl, fun r hr => srRead_srWrite_other hr _, fun h => ?_,
      fun h2 h5 => ?_, fun n hn h => ?_, fun n hn h => ?_⟩
    · subst h
      exact (congrArg _ (srRead_srWrite_same hwf 0x01 _)).trans (and_1F_toNat d)
    · rw [srRead_srWrite_same hwf, plainByte, if_neg (by omega), if_pos h5]
    · rw [srRead_srWrite_same hwf, plainByte, if_neg (by omega), if_neg (by omega), ledByte_low (by omega)]
    · rw [srRead_srWrite_same hwf, plainByte, if_neg (by omega), if_neg (by omega), ledByte_high (by omega)]
  case all =>
    refine ⟨_, slaveWrite_allLed hk d sl, allLedWrite_osc k d 16, fun n hn => ?_,
      fun r hr => srRead_allLedWrite_other k d 16 hr⟩
    rw [srRead_allLedWrite_channel k d 16 hwf hn]
    split
    · rw [ledByte_low (by omega)]
    · rw [ledByte_high (by omega)]

end Sys2Proof.Machine
end

section
/-! The outcomes of the three bus transactions (spec/40_pwm_slave.md R140-R142, R157; 41_pwm_commands.md R193-R195,
R231), each the transaction's return and the state it leaves, and what the return does to the waiting port (R191, R192). -/

namespace Sys2Proof.Machine

open Sys2Proof.Safety

/-! ### The states a transaction leaves -/

section Leaves

variable (s : State)

theorem refuse_afterDraw (r : RefuseReason) :
    refuse r (afterDraw s) = { s with refused := addMark r s.refused, env := (afterDraw s).env } := by
  rw [afterDraw_only_env s]; rfl

theorem logBus_afterDraw (e : BusEntry) :
    logBus e (afterDraw s) = { s with busLog := s.busLog ++ [e], env := (afterDraw s).env } := by
  rw [afterDraw_only_env s]; rfl

theorem logBus_withSlave_afterDraw (e : BusEntry) (sl : Slave) :
    logBus e (withSlave sl (afterDraw s)) =
      { s with
        slave := sl, busLog := s.busLog ++ [e]
        env := { (afterDraw s).env with count := (afterDraw s).env.count + 256 } } := by
  rw [afterDraw_only_env s]; rfl

theorem logBus_hangBus_afterDraw (e : BusEntry) :
    logBus e (hangBus (afterDraw s)) =
      { s with
        unitP := { s.unitP with i2cHung := true }, busLog := s.busLog ++ [e], env := (afterDraw s).env } := by
  rw [afterDraw_only_env s]; rfl

theorem logBus_hangBus_withSlave_afterDraw (e : BusEntry) (sl : Slave) :
    logBus e (hangBus (withSlave sl (afterDraw s))) =
      { s with
        slave := sl, unitP := { s.unitP with i2cHung := true }, busLog := s.busLog ++ [e]
        env := { (afterDraw s).env with count := (afterDraw s).env.count + 256 } } := by
  rw [afterDraw_only_env s]; rfl

end Leaves

theorem withHung_false {u : PwmUnit} (h : u.i2cHung = false) : { u with i2cHung := false } = u := by rw [← h]

/-! ### The draw and the address -/

section Transaction

variable {s : State} {a : BitVec 7} (hbus : s.unitP.i2cHung = false)
include hbus

theorem transactWr_unselected (h : ¬Selects s a) (reg d : Byte) :
    transactWr a reg d s =
      (.fail,
        logBus { kind := .wr, a7 := a, reg := some reg, data := some d, outcome := .nack } (afterDraw s)) := by
  obtain ha | ha := decodeAddr_unselected s a h <;> simp only [transactWr, hbus, ha, Bool.false_eq_true, if_false]

theorem transactRd_unselected (h : ¬Selects s a) (reg : Byte) :
    transactRd a reg s =
      (.fail, logBus { kind := .rd, a7 := a, reg := some reg, data := none, outcome := .nack } (afterDraw s)) := by
  obtain ha | ha := decodeAddr_unselected s a h <;> simp only [transactRd, hbus, ha, Bool.false_eq_true, if_false]

section Selected

variable (h : Selects s a) {reg : Byte}
include h

theorem transactWr_accepted (hdraw : nextDraw s = .ok) {d : Byte} {sl : Slave}
    (hw : slaveWrite reg d s.slave = .ok sl) :
    transactWr a reg d s =
      (.ok none,
        logBus { kind := .wr, a7 := a, reg := some reg, data := some d, outcome := .ok }
          (withSlave sl (afterDraw s))) := by
  simp only [transactWr, hbus, (decodeAddr_selected_iff s a).2 h, hdraw, hw, Bool.false_eq_true, if_false]

theorem transactWr_refused (hdraw : nextDraw s = .ok) {d : Byte} {r : RefuseReason}
    (hw : slaveWrite reg d s.slave = .error r) : transactWr a reg d s = (.refused, refuse r (afterDraw s)) := by
  simp only [transactWr, hbus, (decodeAddr_selected_iff s a).2 h, hdraw, hw, Bool.false_eq_true, if_false]

theorem transactWr_fail (hdraw : nextDraw s = .fail) (d : Byte) :
    transactWr a reg d s =
      (.fail,
        logBus { kind := .wr, a7 := a, reg := some reg, data := some d, outcome := .fail }
          (withSlave (scrambleWrite (afterDraw s).env.count reg s.slave) (afterDraw s))) := by
  simp only [transactWr, hbus, (decodeAddr_selected_iff s a).2 h, hdraw, Bool.false_eq_true, if_false]

theorem transactWr_hang (hdraw : nextDraw s = .hang) (d : Byte) :
    transactWr a reg d s =
      (.hang,
        logBus { kind := .wr, a7 := a, reg := some reg, data := some d, outcome := .hang }
          (hangBus (withSlave (scrambleWrite (afterDraw s).env.count reg s.slave) (afterDraw s)))) := by
  simp only [transactWr, hbus, (decodeAddr_selected_iff s a).2 h, hdraw, Bool.false_eq_true, if_false]

theorem transactRd_fail (hdraw : nextDraw s = .fail) :
    transactRd a reg s =
      (.fail, logBus { kind := .rd, a7 := a, reg := some reg, data := none, outcome := .fail } (afterDraw s)) := by
  simp only [transactRd, hbus, (decodeAddr_selected_iff s a).2 h, hdraw, Bool.false_eq_true, if_false]

theorem transactRd_hang (hdraw : nextDraw s = .hang) :
    transactRd a reg s =
      (.hang,
        logBus { kind := .rd, a7 := a, reg := some reg, data := none, outcome := .hang } (hangBus (afterDraw s))) := by
  simp only [transactRd, hbus, (decodeAddr_selected_iff s a).2 h, hdraw, Bool.false_eq_true, if_false]

omit hbus in
/-- An address the slave answers that is not its own is an alternate one, which refuses reads (R140). -/
theorem decodeAddr_alternate_read (hown : a ≠ s.cfg.slaveAddr) :
    decodeAddr s.cfg.slaveAddr s.slave a true = .refuse .subaddressRead := by
  obtain ⟨h0, halt⟩ := h
  rw [decodeAddr, if_neg h0, if_neg hown, if_pos ((alternateHit_iff s.slave a).2 (halt.resolve_left hown))]
  rfl

theorem transactRd_alternate (hdraw : nextDraw s = .ok) (hown : a ≠ s.cfg.slaveAddr) :
    transactRd a reg s = (.refused, refuse .subaddressRead (afterDraw s)) := by
  simp only [transactRd, hbus, (decodeAddr_selected_iff s a).2 h, hdraw, decodeAddr_alternate_read h hown,
    Bool.false_eq_true, if_false]

end Selected

theorem transactGc_refused {d : Byte} (h : d ≠ 0x06) :
    transactGc d s = (.refused, refuse .generalCallData (afterDraw s)) := by
  simp only [transactGc, hbus, generalCall, if_neg h, Bool.false_eq_true, if_false]

theorem transactGc_ok (hdraw : nextDraw s = .ok) :
    transactGc 0x06 s =
      (.ok none,
        logBus { kind := .gc, a7 := 0, reg := none, data := some 0x06, outcome := .ok }
          (withSlave Slave.reset (afterDraw s))) := by
  simp only [transactGc, hbus, hdraw, generalCall, Bool.false_eq_true, if_false, if_true]
  rfl

theorem transactGc_fail (hdraw : nextDraw s = .fail) :
    transactGc 0x06 s =
      (.fail,
        logBus { kind := .gc, a7 := 0, reg := none, data := some 0x06, outcome := .fail }
          (withSlave (scrambleAll (afterDraw s).env.count s.slave) (afterDraw s))) := by
  simp only [transactGc, hbus, hdraw, generalCall, Bool.false_eq_true, if_false, if_true]

theorem transactGc_hang (hdraw : nextDraw s = .hang) :
    transactGc 0x06 s =
      (.hang,
        logBus { kind := .gc, a7 := 0, reg := none, data := some 0x06, outcome := .hang }
          (hangBus (withSlave (scrambleAll (afterDraw s).env.count s.slave) (afterDraw s)))) := by
  simp only [transactGc, hbus, hdraw, generalCall, Bool.false_eq_true, if_false, if_true]

end Transaction

section Exec

variable {s t : State} {r : TxReturn}

theorem exec_wr {a : BitVec 7} {reg d : Byte} (h : transactWr a reg d s = (r, t)) :
    exec (.i2cWr a reg d) s = .next (deliver r t) := by
  rw [exec, execI2cWr, perform, h]

theorem exec_rd {a : BitVec 7} {reg : Byte} (h : transactRd a reg s = (r, t)) :
    exec (.i2cRd a reg) s = .next (deliver r t) := by
  rw [exec, execI2cRd, perform, h]

theorem exec_gc {d : Byte} (h : transactGc d s = (r, t)) : exec (.i2cGc d) s = .next (deliver r t) := by
  rw [exec, execI2cGc, perform, h]

end Exec

/-! ### Register writes -/

/-- Settles O15: the slave answers and the register admits the write. -/
theorem registerWriteCompletes : Obligations.RegisterWriteCompletes := by
  intro s a reg d hbus hdraw hsel hreg hmode1
  obtain ⟨sl, hw⟩ := slaveWrite_some s.slave hreg hmode1
  exact ⟨sl, hw, by rw [exec_wr (transactWr_accepted hbus hsel hdraw hw), logBus_withSlave_afterDraw]⟩

theorem slaveWrite_reserved {reg : Byte} (hlo : 0x46 ≤ reg.toNat) (hhi : reg.toNat ≤ 0xF9) (d : Byte) (sl : Slave) :
    slaveWrite reg d sl = .error .reservedRegWrite := by
  simp only [slaveWrite]
  rw [if_neg (by omega), if_neg (by omega), if_neg (by omega), if_neg (by omega), if_pos hhi]

theorem slaveWrite_mode1_restart {d : Byte} (h : 0x80 ≤ d.toNat) (sl : Slave) :
    slaveWrite 0x00 d sl = .error .restartWrite :=
  if_pos ((getLsbD_7_iff d).2 h)

theorem slaveWrite_mode1_extclk {d : Byte} (hlo : 0x40 ≤ d.toNat) (hhi : d.toNat < 0x80) (sl : Slave) :
    slaveWrite 0x00 d sl = .error .extclkWrite :=
  (if_neg (by rw [getLsbD_7_iff]; omega)).trans (if_pos ((getLsbD_6_iff d hhi).2 hlo))

/-- Settles O19: the slave answers, and its write is refused by the register or by the bits of `MODE1`. -/
theorem registerWriteRefused : Obligations.RegisterWriteRefused := by
  intro s a reg d hbus hdraw hsel refusedAs
  have refused {r : RefuseReason} (hw : slaveWrite reg d s.slave = .error r) : refusedAs r := by
    simp only [refusedAs]
    rw [exec_wr (transactWr_refused hbus hsel hdraw hw), refuse_afterDraw]
  refine ⟨fun hlo hhi => refused (slaveWrite_reserved hlo hhi d _), fun h => ?_, fun h h7 => ?_, fun h h6 h7 => ?_⟩
  · subst h; exact refused rfl
  · subst h; exact refused (slaveWrite_mode1_restart h7 _)
  · subst h; exact refused (slaveWrite_mode1_extclk h6 h7 _)

theorem scrambleRegs_osc (count : Nat) (rs : List Nat) (sl : Slave) : (scrambleRegs count rs sl).osc = sl.osc := by
  induction rs generalizing sl with
  | nil => rfl
  | cons r rs ih => exact ih _

theorem scrambleWrite_osc {reg : Byte} (h : reg ≠ 0x00) (count : Nat) (sl : Slave) :
    (scrambleWrite count reg sl).osc = sl.osc := by
  simp only [scrambleWrite, if_neg h, scrambleRegs_osc]

/-- Settles O20: the slave is left as `scrambleWrite` leaves it, which touches the registers a write reaches. -/
theorem failedWriteSpoilsOnlyItsRegisters : Obligations.FailedWriteSpoilsOnlyItsRegisters := by
  intro s a reg d hbus hsel _
  refine ⟨scrambleWrite (afterDraw s).env.count reg s.slave,
    fun r hr => scrambleWrite_other (mt (writeTargets_reach reg r) hr), fun h => scrambleWrite_osc h _ _,
    fun hdraw => ?fail, fun hdraw => ?hang⟩
  case fail => simp only [exec_wr (transactWr_fail hbus hsel hdraw d), logBus_withSlave_afterDraw, withHung_false hbus]
  case hang => rw [exec_wr (transactWr_hang hbus hsel hdraw d), deliver_hang, logBus_hangBus_withSlave_afterDraw]

/-- Settles O21: the address selects no device, so the transaction is not acknowledged. -/
theorem unansweredAddressFails : Obligations.UnansweredAddressFails := by
  intro s a reg d hbus hsel
  constructor
  · rw [exec_wr (transactWr_unselected hbus hsel reg d), logBus_afterDraw]
  · rw [exec_rd (transactRd_unselected hbus hsel reg), logBus_afterDraw]

/-! ### Register reads and general calls -/

/-- Settles O23: the slave answers, and the draw or the alternate address keeps the byte back. -/
theorem registerReadWithoutByte : Obligations.RegisterReadWithoutByte := by
  intro s a reg hbus after
  refine ⟨fun hsel hdraw => ?fail, fun hsel hdraw => ?hang, fun hsel hdraw hown => ?refused⟩
  case fail =>
    simp only [after, exec_rd (transactRd_fail hbus hsel hdraw), logBus_afterDraw, withHung_false hbus]
  case hang => rw [exec_rd (transactRd_hang hbus hsel hdraw), deliver_hang, logBus_hangBus_afterDraw]
  case refused => rw [exec_rd (transactRd_alternate hbus hsel hdraw hown), refuse_afterDraw]

/-- Settles O24: the software reset leaves `Slave.reset`, whose registers read as their reset values. -/
theorem generalCallResets : Obligations.GeneralCallResets := by
  intro s hbus hdraw
  refine ⟨Slave.reset, by rw [exec_gc (transactGc_ok hbus hdraw), logBus_withSlave_afterDraw], rfl, rfl, rfl, rfl, rfl,
    rfl, fun n hn => ?led, rfl, rfl⟩
  case led =>
    exact ⟨srRead_reset_led (k := 0) hn (by decide), srRead_reset_led (k := 1) hn (by decide),
      srRead_reset_led (k := 2) hn (by decide), srRead_reset_led (k := 3) hn (by decide)⟩

/-- Settles O25: another data byte is refused before the draw is asked; a failed reset leaves `scrambleAll`. -/
theorem generalCallWithoutReset : Obligations.GeneralCallWithoutReset := by
  intro s d hbus
  refine ⟨fun hd => ?refused, fun _ => ⟨scrambleAll (afterDraw s).env.count s.slave, fun hdraw => ?fail,
    fun hdraw => ?hang⟩⟩
  case refused => rw [exec_gc (transactGc_refused hbus hd), refuse_afterDraw]
  case fail => simp only [exec_gc (transactGc_fail hbus hdraw), logBus_withSlave_afterDraw, withHung_false hbus]
  case hang => rw [exec_gc (transactGc_hang hbus hdraw), deliver_hang, logBus_hangBus_withSlave_afterDraw]

/-! ### The hung bus -/

/-- While the bus is hung a transaction changes nothing (R231). -/
theorem exec_hung {s : State} (hbus : s.unitP.i2cHung = true) (a : BitVec 7) (reg d : Byte) :
    exec (.i2cWr a reg d) s = .next s ∧ exec (.i2cRd a reg) s = .next s ∧ exec (.i2cGc d) s = .next s := by
  refine ⟨?_, ?_, ?_⟩
  · rw [exec_wr (r := .held) (t := s) (by rw [transactWr, if_pos hbus]), deliver_held]
  · rw [exec_rd (r := .held) (t := s) (by rw [transactRd, if_pos hbus]), deliver_held]
  · rw [exec_gc (r := .held) (t := s) (by rw [transactGc, if_pos hbus]), deliver_held]

/-- Settles O26: no transaction is performed, and the context's step is one or is none at all. -/
theorem hungBusHolds : Obligations.HungBusHolds := by
  refine ⟨fun s a reg d hbus => exec_hung hbus a reg d, fun s p rest P m hbus hsched hP hm hwait => ?_⟩
  let s0 : State := { s with env := { s.env with sched := rest } }
  have hbus' : ({ s0 with sel := .pwm p } : State).unitP.i2cHung = true := hbus
  have performed {i : Instr} (hnext : nextMicroOp s0.unitP.ports p = some m)
      (hi : microInstr s0.unitP.devAddr (portTmp s0.unitP.ports p) (freeByte s0 0) m = some i)
      (hexec : exec i { s0 with sel := .pwm p } = .next { s0 with sel := .pwm p }) :
      ∃ t, step s = .next t ∧ t = { s with sel := t.sel, env := { s.env with sched := rest } } :=
    ⟨_, ((step_seq hsched).trans (seqStep_of_instr hnext hi)).trans hexec, rfl⟩
  cases hnext : nextMicroOp s0.unitP.ports p with
  | none => exact ⟨s0, (step_seq hsched).trans (seqStep_of_none hnext), rfl⟩
  | some m' =>
    obtain rfl : m = m' := Option.some.inj (hm.symm.trans (seq_of_nextMicroOp hnext hP))
    cases m with
    | wait us => exact absurd rfl (hwait us)
    | gc d => exact performed hnext rfl (exec_hung hbus' 0 0 d).2.2
    | rd reg => exact performed hnext rfl (exec_hung hbus' _ reg 0).2.1
    | wr reg v => exact performed hnext rfl (exec_hung hbus' _ reg _).1

/-! ### One step of an agent -/

/-- Settles O30: the scheduled step is `oscStep`, by the oscillator's state. -/
theorem oscillatorStep : Obligations.OscillatorStep := by
  intro s rest hsched
  rw [step_of_sched hsched]
  simp only [agentStep, oscStep]
  split
  next hosc => rw [if_pos hosc]
  next hosc => rw [if_neg (by simp [hosc])]
  next hosc => rw [if_neg (by simp [hosc])]

section Master

variable {s : State} {rest : List Agent} {f : List (List Byte)} {fs : List (List (List Byte))}
  (hsched : s.env.sched = .master :: rest) (hframes : s.frames = f :: fs) (hbus : s.unitP.i2cHung = false)
include hsched hframes hbus

theorem step_master_ok {i : Instr} (hf : decodeFrame f = .ok i) (hb : bareRefusal i = none) :
    step s = exec i { s with env := { s.env with sched := rest }, frames := fs, sel := .direct } := by
  simp only [step_of_sched hsched, agentStep, masterStep, hframes, hbus, hf, hb, Bool.false_eq_true, if_false]

theorem step_master_bare {i : Instr} {r : RefuseReason} (hf : decodeFrame f = .ok i) (hb : bareRefusal i = some r) :
    step s = .next (refuse r { s with env := { s.env with sched := rest }, frames := fs }) := by
  simp only [step_of_sched hsched, agentStep, masterStep, hframes, hbus, hf, hb, Bool.false_eq_true, if_false]

theorem step_master_error {e : DecodeError} (hf : decodeFrame f = .error e) :
    step s = .next (refuse (frameRefusal e) { s with env := { s.env with sched := rest }, frames := fs }) := by
  simp only [step_of_sched hsched, agentStep, masterStep, hframes, hbus, hf, Bool.false_eq_true, if_false]

end Master

/-- Settles O28: the context runs the instruction of its micro-op, the bare master that of its frame. -/
theorem stepRunsTransaction : Obligations.StepRunsTransaction := by
  constructor
  case left =>
    intro s p rest P m hsched hP hbusy hstuck hm hheld s0
    have hnext : nextMicroOp s.unitP.ports p = some m := (nextMicroOp_of_not_held hP hbusy hstuck hheld).trans hm
    have htmp : portTmp s.unitP.ports p = P.tmp := by simp [portTmp, hP]
    rw [step_seq hsched]
    refine ⟨fun d h => ?_, fun reg h => ?_, fun reg v h => ?_, fun reg mask set b h hb => ?_⟩
    · subst h; exact seqStep_of_instr hnext rfl
    · subst h; exact seqStep_of_instr hnext rfl
    · subst h; exact seqStep_of_instr hnext rfl
    · subst h
      refine seqStep_of_instr hnext ?_
      simp only [microInstr, htmp, hb, wrValue, Option.getD_some]
  case right =>
    intro s rest f fs hsched hframes hbus s0 refusedAs
    refine ⟨fun a reg d hf => ?_, fun a reg hf => ?_, fun d hf => step_master_ok hsched hframes hbus hf rfl,
      fun hf => step_master_error hsched hframes hbus hf, fun e hf he => ?_⟩
    · split
      next ha => exact step_master_bare hsched hframes hbus hf (if_pos ha)
      next ha => exact step_master_ok hsched hframes hbus hf (if_neg ha)
    · split
      next ha => exact step_master_bare hsched hframes hbus hf (if_pos ha)
      next ha => exact step_master_ok hsched hframes hbus hf (if_neg ha)
    · have hreason : frameRefusal e = .multibyteForm := by
        cases e with
        | generalCallRead => exact absurd rfl he
        | _ => rfl
      have := step_master_error hsched hframes hbus hf
      rw [hreason] at this
      exact this

/-! ### The outcome of a micro-op -/

theorem pending_iff (P : PwmPort) :
    P.pending = true ↔ P.status.busy = true ∧ P.upc.toNat < P.seq.length ∧ P.stuck = false := by
  simp [PwmPort.pending, and_assoc]

theorem settle_not_pending {s : State} {p : Nat} (h : ∀ P, s.unitP.ports[p]? = some P → P.pending = false)
    (r : TxReturn) : settle p r s = s := by
  unfold settle
  split
  · rfl
  next P hP => rw [h P hP, if_neg Bool.false_ne_true]

section Pending

variable {s : State} {p : Nat} {P : PwmPort} (hP : s.unitP.ports[p]? = some P) (hpend : P.pending = true)
include hP hpend

theorem settle_more (data : Option Byte) (hmore : P.upc.toNat + 1 < P.seq.length) :
    settle p (.ok data) s = setPort p { P with upc := P.upc + 1, tmp := data.or P.tmp } s := by
  simp only [settle, hP, hpend, if_true, if_neg hmore.ne]

theorem settle_last (data : Option Byte) (hlast : P.upc.toNat + 1 = P.seq.length) :
    settle p (.ok data) s =
      completePwm p .ok 0 (setPort p { P with upc := P.upc + 1, tmp := data.or P.tmp } s) := by
  simp only [settle, hP, hpend, if_true, if_pos hlast]

theorem settle_fail : settle p .fail s = completePwm p .busError P.upc s := by
  simp only [settle, hP, hpend, if_true]

theorem settle_refused : settle p .refused s = setPort p { P with stuck := true } s := by
  simp only [settle, hP, hpend, if_true]

theorem settle_stays : settle p .hang s = s ∧ settle p .held s = s := by
  simp only [settle, hP, hpend, if_true, and_self]

end Pending

theorem nextMicroOp_stuck {ports : List PwmPort} {p : Nat} {P : PwmPort} (hP : ports[p]? = some P)
    (hstuck : P.stuck = true) : nextMicroOp ports p = none := by
  simp [nextMicroOp, hP, PwmPort.pending, hstuck]

/-- Settles O32: a stuck port has no next micro-op, delivery is `settle` at the port `sel` names, and `settle` acts on a
port that waits. -/
theorem microOpOutcome : Obligations.MicroOpOutcome := by
  refine ⟨fun s p rest P hsched hP hstuck => ?stuck, fun s p r hsel => ?delivered, fun s r hsel => ?bare, ?settled⟩
  case stuck => rw [step_seq hsched]; exact seqStep_of_none (nextMicroOp_stuck hP hstuck)
  case delivered =>
    have hdeliver : deliver r s = settle p r s := by simp only [deliver, hsel]
    refine ⟨hdeliver, fun h => hdeliver.trans (settle_not_pending (fun P hP => ?_) r)⟩
    rw [← Bool.not_eq_true, pending_iff]
    exact h P hP
  case bare =>
    obtain h | ⟨p, hp, -⟩ := deliver_cases r s
    · exact h
    · exact absurd hp (hsel p)
  case settled =>
    intro s p P hP hbusy hlt hstuck portBecomes
    have hpend := (pending_iff P).2 ⟨hbusy, hlt, hstuck⟩
    refine ⟨fun data hmore => settle_more hP hpend data hmore, fun data hlast => ?_, ?_, (settle_stays hP hpend).1,
      (settle_stays hP hpend).2, settle_refused hP hpend⟩
    · rw [settle_last hP hpend data hlast, completePwm_some (getElem?_set_of_some hP)]
      simp [portBecomes, setPort, Status.completed]
    · rw [settle_fail hP hpend, completePwm_some hP]
      rfl

end Sys2Proof.Machine
end

section
/-! The steps of a W unit (spec/42_ws2812_encoder.md R250-R263): the encoder with its tables (30_encoding.md R120-R122),
the transfer, a unit that holds, and a whole `ws.show` (R260). -/

namespace Sys2Proof.Machine

open Sys2Proof.Safety

/-! ### The encoder's tables, read backwards -/

theorem unsym8_sym8 (b : Bool) : unsym8 (sym8 b) = some [b] := by cases b <;> rfl

theorem unsym4_nibs (a b : Bool) : unsym4 (nib a ++ nib b) = some [a, b] := by cases a <;> cases b <;> rfl

theorem unsymbols_map_sym8 (bs : List Bool) : unsymbols .m8 (bs.map sym8) = some bs := by
  induction bs with
  | nil => rfl
  | cons b bs ih => simp only [List.map_cons, unsymbols, unsym8_sym8, ih, List.singleton_append]

theorem unsymbols_map_nibs {α : Type} (hi lo : α → Bool) (l : List α) :
    unsymbols .m4 (l.map fun x => nib (hi x) ++ nib (lo x)) = some (l.flatMap fun x => [hi x, lo x]) := by
  induction l with
  | nil => rfl
  | cons x l ih => simp only [List.map_cons, unsymbols, unsym4_nibs, ih, List.flatMap_cons]

/-- The symbols of one byte decode to its bits, bit 7 first (R122). -/
theorem unsymbols_symbols (m : Packing) (b : Byte) : unsymbols m (symbols m b) = some (bitsOf b) := by
  cases m with
  | m8 =>
    have hmap : symbols .m8 b = (bitsOf b).map sym8 := by simp only [symbols, bitsOf, List.map_map]; rfl
    rw [hmap, unsymbols_map_sym8]
  | m4 => exact unsymbols_map_nibs (fun j => b.getLsbD (7 - 2 * j)) (fun j => b.getLsbD (6 - 2 * j)) (List.range 4)

theorem unsymbols_encodeBytes (m : Packing) (bytes : List Byte) :
    unsymbols m (encodeBytes m bytes) = some (bytes.flatMap bitsOf) := by
  induction bytes with
  | nil => rfl
  | cons b bytes ih =>
    have hcons : encodeBytes m (b :: bytes) = symbols m b ++ encodeBytes m bytes := List.flatMap_cons
    rw [hcons, unsymbols_append, unsymbols_symbols, ih, List.flatMap_cons]
    rfl

/-- Settles O39: byte by byte, each symbol is one the inverse table has. -/
theorem encodeRoundTrip : Obligations.EncodeRoundTrip := by
  intro packed bytes
  simp only [unsymbols_encodeBytes, testBit_eq_getLsbD]
  rfl

/-! ### The bytes of the output buffer -/

/-- A run of bytes just written reads back. -/
theorem readBytes_writeBytes {m : List Host.Cell} (h : Memory.wf unwritten m) (out : List Byte) :
    Memory.readBytes unwritten (Memory.writeBytes unwritten m 0 out) 0 out.length = some out := by
  have hget (i : Nat) (hi : i < out.length) :
      Memory.read unwritten (Memory.writeBytes unwritten m 0 out) (0 + i) = out[i]? :=
    Memory.read_writeBytes_inside h hi
  cases hread : Memory.readBytes unwritten (Memory.writeBytes unwritten m 0 out) 0 out.length with
  | none =>
    obtain ⟨i, hi, hnone⟩ := Memory.readBytes_none.1 hread
    rw [hget i hi, List.getElem?_eq_getElem hi] at hnone
    cases hnone
  | some vs =>
    have hlen := Memory.readBytes_length hread
    refine congrArg some (List.ext_getElem? fun i => ?_)
    obtain hi | hi := lt_or_ge i out.length
    · rw [← Memory.readBytes_get hread hi, hget i hi]
    · rw [List.getElem?_eq_none (by omega), List.getElem?_eq_none hi]

/-- The bytes a transfer sends are those of the output buffer (R258). -/
theorem frameBytes_of_readBytes {u : WUnit} {out : List Byte}
    (h : Memory.readBytes unwritten u.obuf 0 u.olen = some out) (s : State) : frameBytes s u = out := by
  have hlen := Memory.readBytes_length h
  refine List.ext_getElem (by simp [frameBytes, hlen]) fun i hi hi' => ?_
  have hget := Memory.readBytes_get h (i := i) (by omega)
  rw [Nat.zero_add, List.getElem?_eq_getElem hi'] at hget
  simp [frameBytes, hget]

/-! ### The step of the head command -/

section Head

variable {s : State} {i q : Nat} {u : WUnit} {P : WPort} {c : WsCmd}

theorem headStep_emptyTx (h : emptyTx c P u = true) :
    headStep i q P c u s = setStrip i (completeUnit q .ok 0 u) s := by
  simp only [headStep, h, if_true]

theorem headStep_xfer (hempty : emptyTx c P u = false) (h : (wsSteps c)[P.upc.toNat]? = some .xfer) :
    headStep i q P c u s = xferStep i q P u s := by
  simp only [headStep, hempty, h, Bool.false_eq_true, if_false]

/-- The first step of `ws.enc` and of `ws.show` is their `ENC` (R259). -/
theorem headStep_enc {mode : EncMode} {n : BitVec 16} (hupc : P.upc = 0)
    (hc : c = .enc mode n ∨ c = .display mode n) : headStep i q P c u s = encStep i q P c mode n u s := by
  obtain rfl | rfl := hc <;> simp [headStep, emptyTx, wsSteps, hupc]

end Head

/-- Settles O41: an empty `ws.tx` completes before any step. -/
theorem emptyTxCompletes : Obligations.EmptyTxCompletes := by
  intro s i q u P qs rest hsched hu hstop hhung hq hP hupc holen
  have hempty : emptyTx .tx P u = true := by simp [emptyTx, hupc, holen]
  rw [step_unit_head hsched hu hstop hhung hq hP, headStep_emptyTx hempty, completeUnit_some hP, hq, dropQueued_head]
  rfl

/-- A stopped unit, a unit whose bus is hung and one with an empty queue hold (R262, R267, R355). -/
theorem unitStep_holds {s : State} {i : Nat} {u : WUnit} (hu : s.strips[i]? = some u)
    (h : u.stopped = true ∨ u.spiHung = true ∨ u.queue = []) : unitStep i s = s := by
  by_cases hgate : (u.stopped || u.spiHung) = true
  · simp only [unitStep, hu, hgate, if_true]
  · have hq : u.queue = [] := by
      rw [Bool.or_eq_true, not_or] at hgate
      obtain hstop | hhung | hq := h
      · exact absurd hstop hgate.1
      · exact absurd hhung hgate.2
      · exact hq
    simp only [unitStep, hu, hq, ite_self]

/-- Settles O40: the `ENC` finds no byte to read, and a unit that may not step does not. -/
theorem stoppedUnitHolds : Obligations.StoppedUnitHolds := by
  intro s i u rest hsched hu s0
  refine ⟨fun q c qs P mode n k hstop hhung hq hP hupc hc hk hread => ?_, fun h => ?_⟩
  · have hnone : Memory.readBytes unwritten u.ibuf 0 n.toNat = none :=
      Memory.readBytes_none.2 ⟨k, hk, by rwa [Nat.zero_add]⟩
    rw [step_unit_head hsched hu hstop hhung hq hP, headStep_enc hupc hc]
    simp only [encStep, hnone]
    rfl
  · rw [step_of_sched hsched]
    exact congrArg _ (unitStep_holds (s := s0) hu h)

/-! ### The transfer -/

section Transfer

variable {s : State} {i q : Nat} {u : WUnit} {P : WPort} {out : List Byte} {draws : List Draw}
  (hread : Memory.readBytes unwritten u.obuf 0 u.olen = some out)
include hread

theorem xferStep_ok (hdraw : s.env.outcomes = .ok :: draws) :
    xferStep i q P u s =
      setStrip i (bumpStep q P { u with trace := u.trace ++ [.xfer out u.div .ok], txState := .latch })
        { s with env := { s.env with outcomes := draws, count := s.env.count + u.olen } } := by
  simp only [xferStep, nextDraw, afterDraw, hdraw, frameBytes_of_readBytes hread]
  rfl

theorem xferStep_fail (hdraw : s.env.outcomes = .fail :: draws) :
    xferStep i q P u s =
      setStrip i
        (completeUnit q .busError P.upc { u with trace := u.trace ++ [.xfer out u.div .fail], txState := .idle })
        { s with env := { s.env with outcomes := draws, count := s.env.count + u.olen } } := by
  simp only [xferStep, nextDraw, afterDraw, hdraw, frameBytes_of_readBytes hread]
  rfl

theorem xferStep_hang (hdraw : s.env.outcomes = .hang :: draws) :
    xferStep i q P u s =
      setStrip i { u with trace := u.trace ++ [.xfer out u.div .hang], txState := .sending, spiHung := true }
        { s with env := { s.env with outcomes := draws, count := s.env.count + u.olen } } := by
  simp only [xferStep, nextDraw, afterDraw, hdraw, frameBytes_of_readBytes hread]
  rfl

end Transfer

/-- Settles O43: the head command is at its `XFER`, whose effect is its draw's. -/
theorem transferOutcomes : Obligations.TransferOutcomes := by
  intro s i q u P c out qs rest draw draws hsched hu hstop hhung hq hP hat hread houtcomes becomes
  have hat' : emptyTx c P u = false ∧ (wsSteps c)[P.upc.toNat]? = some .xfer := by
    obtain ⟨rfl, hupc⟩ | ⟨⟨mode, n, rfl⟩, hupc⟩ := hat
    · exact ⟨emptyTx_eq_false fun h => by simp [hupc] at h, by rw [hupc]; rfl⟩
    · exact ⟨rfl, by rw [hupc]; rfl⟩
  let s0 : State := { s with env := { s.env with sched := rest } }
  have hdraw : s0.env.outcomes = draw :: draws := houtcomes
  have hstep : step s = .next (xferStep i q P u s0) := by
    rw [step_unit_head hsched hu hstop hhung hq hP, headStep_xfer hat'.1 hat'.2]
  rw [hstep]
  refine ⟨fun h => ?ok, fun h => ?fail, fun h => ?hang⟩
  case ok => subst h; rw [xferStep_ok hread hdraw]; rfl
  case fail =>
    subst h
    let v : WUnit := { u with trace := u.trace ++ [.xfer out u.div .fail], txState := .idle }
    rw [xferStep_fail hread hdraw, completeUnit_some (u := v) hP]
    simp only [v, hq, dropQueued_head]
    rfl
  case hang => subst h; rw [xferStep_hang hread hdraw]; rfl

/-! ### The encode step -/

section Encode

variable {s : State} {i q : Nat} {u : WUnit} {P : WPort} {c : WsCmd} {mode : EncMode} {n : BitVec 16}
  {bytes : List Byte} (hread : Memory.readBytes unwritten u.ibuf 0 n.toNat = some bytes)
include hread

theorem encodeInto_olen (m : Packing) : (encodeInto m bytes u).olen = bitsPerSymbol m * n.toNat := by
  rw [← Memory.readBytes_length hread]
  exact encodeBytes_length m bytes

theorem encodeInto_olen_eq_zero (m : Packing) : (encodeInto m bytes u).olen = 0 ↔ n = 0 := by
  rw [encodeInto_olen hread, Nat.mul_eq_zero, ← BitVec.toNat_inj]
  exact or_iff_right (by cases m <;> decide)

/-- An `ENC` with nothing to follow it: `ws.enc`, or a `ws.show` of no byte (R250, R260). -/
theorem encStep_last (hlast : c = .enc mode n ∨ n = 0) :
    encStep i q P c mode n u s =
      setStrip i
        (completeUnit q .ok 0 (bumpStep q P (encodeInto (packing s.cfg.encAutoThreshold mode n.toNat) bytes u))) s := by
  simp only [encStep, hread]
  rw [if_pos]
  rw [Bool.or_eq_true, beq_iff_eq, decide_eq_true_eq, encodeInto_olen_eq_zero hread]
  obtain rfl | hn := hlast
  · exact .inl rfl
  · exact .inr hn

/-- The `ENC` of a `ws.show` of some bytes goes on to its step 1 (R260). -/
theorem encStep_more (hc : c = .display mode n) (hn : n ≠ 0) :
    encStep i q P c mode n u s =
      setStrip i (bumpStep q P (encodeInto (packing s.cfg.encAutoThreshold mode n.toNat) bytes u)) s := by
  simp only [encStep, hread]
  rw [if_neg]
  rw [Bool.or_eq_true, beq_iff_eq, decide_eq_true_eq, encodeInto_olen_eq_zero hread, hc]
  exact not_or.2 ⟨by simp [wsSteps], hn⟩

omit hread in
/-- The output byte `k` of input byte `j` (R251). -/
theorem read_encodeInto (hwf : Memory.wf unwritten u.obuf) (m : Packing) {j k : Nat} {b : Byte}
    (hj : bytes[j]? = some b) (hk : k < bitsPerSymbol m) :
    Memory.read unwritten (encodeInto m bytes u).obuf (bitsPerSymbol m * j + k) = (symbols m b)[k]? := by
  have hget : (encodeBytes m bytes)[bitsPerSymbol m * j + k]? = (symbols m b)[k]? :=
    getElem?_flatMap (symbols m) _ (symbols_length m) bytes j k b hj hk
  have hlt : k < (symbols m b).length := by rwa [symbols_length]
  rw [← hget]
  rw [List.getElem?_eq_getElem hlt] at hget
  have := Memory.read_writeBytes_inside hwf (a := 0) (List.getElem?_eq_some_iff.1 hget).1
  rwa [Nat.zero_add] at this

end Encode

theorem packing_eq_m4_iff (threshold n : Nat) (mode : EncMode) :
    packing threshold mode n = .m4 ↔ mode = .m4 ∨ (mode = .auto ∧ 8 * n < threshold) := by
  cases mode <;> simp [packing, autoMode]

theorem symbols_m8_get (b : Byte) {k : Nat} (hk : k < 8) :
    (symbols .m8 b)[k]? = some (if b.toNat.testBit (7 - k) then 0xF8 else 0x80) := by
  simp only [symbols, List.getElem?_map, List.getElem?_range hk, testBit_eq_getLsbD]
  rfl

theorem symbols_m4_get (b : Byte) {k : Nat} (hk : k < 4) :
    (symbols .m4 b)[k]? =
      some
        (BitVec.ofNat 8
          (16 * (if b.toNat.testBit (7 - 2 * k) then 0xE else 0x8)
            + if b.toNat.testBit (6 - 2 * k) then 0xE else 0x8)) := by
  simp only [symbols, List.getElem?_map, List.getElem?_range hk, testBit_eq_getLsbD]
  exact congrArg some (nib_pair _ _)

/-- Settles O38: the buffer holds the symbols written by `encodeInto`; whether the command is done is `encStep_last` or
`encStep_more`. -/
theorem encodeStep : Obligations.EncodeStep := by
  intro s i q u P c mode n bytes qs rest hsched hu hstop hhung hq hP hupc hc hwf hread
  let m := packing s.cfg.encAutoThreshold mode n.toNat
  let v (Q : WPort) (left : List (Nat × WsCmd)) : WUnit :=
    { encodeInto m bytes u with ports := u.ports.set q Q, queue := left }
  have hone : P.upc + 1 = 1 := by rw [hupc]; rfl
  obtain ⟨Q, left, hstep, hdone, hmore⟩ : ∃ Q left,
      step s = .next { s with env := { s.env with sched := rest }, strips := s.strips.set i (v Q left) }
      ∧ (c = .enc mode n ∨ n = 0 →
          Q = { P with status := { busy := false, failStep := 0x00, err := .ok }, upc := 1 } ∧ left = qs)
      ∧ (c = .display mode n → n ≠ 0 → Q = { P with upc := 1 } ∧ left = u.queue) := by
    rw [step_unit_head hsched hu hstop hhung hq hP, headStep_enc hupc hc]
    by_cases hlast : c = .enc mode n ∨ n = 0
    · refine ⟨_, _, ?_, fun _ => ⟨rfl, rfl⟩, fun hd hn => ?_⟩
      · rw [encStep_last hread hlast, completeUnit_bumpStep (u := encodeInto m bytes u) hq hP, hone]
        rfl
      · exact absurd hlast (not_or.2 ⟨by simp [hd], hn⟩)
    · obtain ⟨hne, hn⟩ := not_or.1 hlast
      refine ⟨_, _, ?_, fun h => absurd h hlast, fun _ _ => ⟨rfl, rfl⟩⟩
      rw [encStep_more hread (hc.resolve_left hne) hn, bumpStep, hone]
      rfl
  refine ⟨v Q left, Q, left, hstep, rfl, packing_eq_m4_iff _ _ _, fun hm8 => ?m8, fun hm4 => ?m4, fun a ha => ?above,
    hdone, hmore⟩
  case m8 =>
    have hm : m = .m8 := hm8
    refine ⟨(encodeInto_olen hread m).trans (by rw [hm]; rfl), fun j b hj k hk => ?_⟩
    rw [← symbols_m8_get b hk, ← read_encodeInto hwf .m8 hj hk]
    exact congrArg (fun p => Memory.read unwritten (encodeInto p bytes u).obuf _) hm
  case m4 =>
    have hm : m = .m4 := hm4
    refine ⟨(encodeInto_olen hread m).trans (by rw [hm]; rfl), fun j b hj k hk => ?_⟩
    rw [← symbols_m4_get b hk, ← read_encodeInto hwf .m4 hj hk]
    exact congrArg (fun p => Memory.read unwritten (encodeInto p bytes u).obuf _) hm
  case above => exact Memory.read_writeBytes_outside (.inr (by rw [Nat.zero_add]; exact ha))

end Sys2Proof.Machine
end

section
/-! A whole `ws.show` (spec/42_ws2812_encoder.md R260): its issue and the four steps of its W unit, each on a unit whose
only queued command it is. -/

namespace Sys2Proof.Machine

open Sys2Proof.Safety

/-! ### Runs of several steps -/

theorem run_succ {s t : State} (h : step s = .next t) (k : Nat) :
    Host.Core.run core (k + 1) s = Host.Core.run core k t := by
  have hstep : core.step s = .next t := h
  simp only [Host.Core.run, hstep]

theorem run_zero (s : State) : Host.Core.run core 0 s = .next s := rfl

/-! ### The states of a run of one W unit -/

/-- The state in which strip `i` is `v` and the environment is `e`. -/
def withUnit (i : Nat) (v : WUnit) (e : Env) (s : State) : State :=
  { s with strips := s.strips.set i v, env := e }

/-- Unit `v` may step, and the only queued command is `c` of its port `q`, whose contents are `P`. -/
structure Runs (q : Nat) (c : WsCmd) (P : WPort) (v : WUnit) : Prop where
  notStopped : v.stopped = false
  notHung : v.spiHung = false
  queue : v.queue = [(q, c)]
  port : v.ports[q]? = some P

section Run

variable {s : State} {i q : Nat} {c : WsCmd} {P : WPort} {v : WUnit} {e : Env} {rest : List Agent}

theorem withUnit_strips_get (h : i < s.strips.length) : (withUnit i v e s).strips[i]? = some v :=
  List.getElem?_set_self h

theorem setStrip_withUnit (v' : WUnit) : setStrip i v' (withUnit i v e s) = withUnit i v' e s := by
  simp only [setStrip, withUnit, List.set_set]

theorem Runs.bumpStep (h : Runs q c P v) : Runs q c { P with upc := P.upc + 1 } (bumpStep q P v) where
  notStopped := h.notStopped
  notHung := h.notHung
  queue := h.queue
  port := List.getElem?_set_self (List.getElem?_eq_some_iff.1 h.port).1

/-- The step of the unit is that of its command. -/
theorem Runs.step_withUnit (h : Runs q c P v) (hi : i < s.strips.length) (hsched : e.sched = .unit i :: rest) :
    step (withUnit i v e s) = .next (headStep i q P c v (withUnit i v { e with sched := rest } s)) :=
  step_unit_head (s := withUnit i v e s) hsched (withUnit_strips_get hi) h.notStopped h.notHung h.queue h.port

/-- The unit once its `ws.show` has sent `out`, port `q` having been `P` at its issue. -/
def shown (m : Packing) (bytes : List Byte) (q : Nat) (P : WPort) (v : WUnit) : WUnit :=
  { encodeInto m bytes v with
    div := divider v.conf m, txState := .idle, queue := []
    trace := v.trace ++ [.xfer (encodeBytes m bytes) (divider v.conf m) .ok, .latch]
    ports := v.ports.set q { P with status := Status.completed .ok 0, upc := 4 } }

/-- The four steps of a `ws.show` of some bytes whose transfer is drawn `OK` (R260). -/
theorem Runs.run_display {mode : EncMode} {n : BitVec 16} {bytes : List Byte} {draws : List Draw}
    (h : Runs q (.display mode n) P v) (hupc : P.upc = 0) (hi : i < s.strips.length) (hn : n ≠ 0)
    (hwf : Memory.wf unwritten v.obuf) (hread : Memory.readBytes unwritten v.ibuf 0 n.toNat = some bytes)
    (hdraws : e.outcomes = .ok :: draws) (hsched : e.sched = .unit i :: .unit i :: .unit i :: .unit i :: rest) :
    ∃ e', Host.Core.run core 4 (withUnit i v e s) =
      .next (withUnit i (shown (packing s.cfg.encAutoThreshold mode n.toNat) bytes q P v) e' s) := by
  let m := packing s.cfg.encAutoThreshold mode n.toNat
  let v1 := Machine.bumpStep q P (encodeInto m bytes v)
  let P1 : WPort := { P with upc := P.upc + 1 }
  have h1 : Runs q (.display mode n) P1 v1 :=
    Runs.bumpStep (v := encodeInto m bytes v) ⟨h.notStopped, h.notHung, h.queue, h.port⟩
  let v2 := Machine.bumpStep q P1 (synth v1)
  let P2 : WPort := { P1 with upc := P1.upc + 1 }
  have h2 : Runs q (.display mode n) P2 v2 :=
    Runs.bumpStep (v := synth v1) ⟨h1.notStopped, h1.notHung, h1.queue, h1.port⟩
  let sent : WUnit :=
    { v2 with trace := v2.trace ++ [.xfer (encodeBytes m bytes) v2.div .ok], txState := .latch }
  let v3 := Machine.bumpStep q P2 sent
  let P3 : WPort := { P2 with upc := P2.upc + 1 }
  have h3 : Runs q (.display mode n) P3 v3 :=
    Runs.bumpStep (v := sent) ⟨h2.notStopped, h2.notHung, h2.queue, h2.port⟩
  let e2 : Env := { e with sched := .unit i :: .unit i :: rest }
  let e3 : Env := { e with sched := .unit i :: rest, outcomes := draws, count := e.count + v2.olen }
  have step1 : step (withUnit i v e s) =
      .next (withUnit i v1 { e with sched := .unit i :: .unit i :: .unit i :: rest } s) := by
    rw [h.step_withUnit hi hsched, headStep_enc hupc (.inr rfl), encStep_more hread rfl hn, setStrip_withUnit]
    rfl
  have step2 : step (withUnit i v1 { e with sched := .unit i :: .unit i :: .unit i :: rest } s) =
      .next (withUnit i v2 e2 s) := by
    rw [h1.step_withUnit hi rfl, headStep_synth rfl (by simp only [P1, hupc]; rfl), setStrip_withUnit]
  have step3 : step (withUnit i v2 e2 s) = .next (withUnit i v3 e3 s) := by
    have hout : Memory.readBytes unwritten v2.obuf 0 v2.olen = some (encodeBytes m bytes) :=
      readBytes_writeBytes hwf _
    rw [h2.step_withUnit hi rfl, headStep_xfer rfl (by simp only [P2, P1, hupc]; rfl), xferStep_ok hout hdraws]
    exact congrArg Host.Outcome.next (setStrip_withUnit (s := s) (i := i) (v := v2) (e := e3) v3)
  have step4 : step (withUnit i v3 e3 s) = .next (withUnit i (latchUnit q P3 v3) { e3 with sched := rest } s) := by
    rw [h3.step_withUnit hi rfl, headStep_latch rfl (by simp only [P3, P2, P1, hupc]; rfl), setStrip_withUnit]
  have hlatch : latchUnit q P3 v3 = shown m bytes q P v := by
    have htrace : v3.trace ++ [.latch] =
        v.trace ++ [.xfer (encodeBytes m bytes) (divider v.conf m) .ok, .latch] := List.append_assoc ..
    have hports : v3.ports.set q { P3 with status := Status.completed .ok 0, upc := P3.upc + 1 } =
        v.ports.set q { P with status := Status.completed .ok 0, upc := 4 } := by
      have hupc4 : P3.upc + 1 = 4 := by simp only [P3, P2, P1, hupc]; rfl
      simp only [hupc4, v3, v2, v1, sent, Machine.bumpStep, setWPort, synth, encodeInto, List.set_set]
      rfl
    rw [latchUnit_head h3.queue h3.port, htrace, hports]
    rfl
  exact ⟨_, by rw [run_succ step1, run_succ step2, run_succ step3, run_succ step4, run_zero, hlatch]⟩

end Run

/-- Settles O37: the issue queues the command, and its four steps are `Runs.run_display`. -/
theorem wsShowRun : Obligations.WsShowRun := by
  intro s i q u P mode n bytes rest draws hsel hu hP hidle hqueue hstop hhung hwf hpos hfits hread hdraws hsched
    packed out command
  have hi : i < s.strips.length := (List.getElem?_eq_some_iff.1 hu).1
  have hq : q < u.ports.length := (List.getElem?_eq_some_iff.1 hP).1
  have hn : n ≠ 0 := by rintro rfl; exact absurd hpos (by decide)
  let c : WsCmd := .display mode n
  let P0 : WPort := { P with status := P.status.active, upc := 0 }
  have hissue : exec command s = .next (withUnit i (acceptWs q P c u) s.env s) := by
    have haccept := issueWs_accepted hsel hu hP hidle (c := c) hfits
    cases mode with
    | m8 => exact haccept
    | m4 => exact haccept
    | auto => exact haccept
  have hruns : Runs q c P0 (acceptWs q P c u) :=
    ⟨hstop, hhung, by rw [acceptWs, hqueue]; rfl, List.getElem?_set_self hq⟩
  obtain ⟨e', hrun⟩ := hruns.run_display rfl hi hn hwf hread hdraws hsched
  refine ⟨_, _, shown packed bytes q P0 (acceptWs q P c u), { P0 with status := Status.completed .ok 0, upc := 4 },
    hissue, hrun, withUnit_strips_get hi, rfl, rfl, rfl, rfl, rfl, rfl, hhung, rfl, ?port, rfl, rfl, ?others, ?strips,
    rfl, rfl, rfl, rfl, rfl⟩
  case port => exact List.getElem?_set_self (by simpa [acceptWs] using hq)
  case others =>
    intro q' hne
    simp only [shown, acceptWs, List.getElem?_set_ne hne.symm]
  case strips => exact fun j hne => List.getElem?_set_ne hne.symm

end Sys2Proof.Machine
end

section
/-! Whole commands of unit P (spec/41_pwm_commands.md R202, R214, R223): the states of a run of one PWM port, the rule
of each kind of micro-op on them, and the three commands. -/

namespace Sys2Proof.Machine

open Sys2Proof.Safety

/-! ### The states of a run of one PWM port -/

/-- The state in which port `p` is `Q` and the slave, `BUSLOG` and the environment are the given ones. -/
def withPort (p : Nat) (Q : PwmPort) (sl : Slave) (log : List BusEntry) (e : Env) (s : State) : State :=
  { s with
    unitP := { s.unitP with ports := s.unitP.ports.set p Q }
    slave := sl, busLog := log, env := e, sel := .pwm p }

/-- Port `p`, holding `Q`, may take its next micro-op. -/
structure Moving (p : Nat) (Q : PwmPort) (s : State) : Prop where
  there : p < s.unitP.ports.length
  busy : Q.status.busy = true
  notStuck : Q.stuck = false
  notHeld : heldByChannel (s.unitP.ports.set p Q) p Q = false

section Rules

variable {s : State} {p n : Nat} {Q : PwmPort} {sl : Slave} {log : List BusEntry} {e : Env} {rest : List Agent}
  {draws : List Draw} {m : MicroOp} (h : Moving p Q s)
include h

theorem Moving.port : (withPort p Q sl log e s).unitP.ports[p]? = some Q := List.getElem?_set_self h.there

theorem Moving.next : nextMicroOp (withPort p Q sl log e s).unitP.ports p = Q.seq[Q.upc.toNat]? :=
  nextMicroOp_of_not_held (h.port (sl := sl) (log := log) (e := e)) h.busy h.notStuck h.notHeld

theorem Moving.pending (hin : Q.upc.toNat < Q.seq.length) : Q.pending = true :=
  (pending_iff Q).2 ⟨h.busy, hin, h.notStuck⟩

theorem Moving.settle_more (data : Option Byte) (hmore : Q.upc.toNat + 1 < Q.seq.length) :
    settle p (.ok data) (withPort p Q sl log e s) =
      withPort p { Q with upc := Q.upc + 1, tmp := data.or Q.tmp } sl log e s := by
  rw [Machine.settle_more h.port (h.pending (by omega)) data hmore]
  simp only [setPort, withPort, List.set_set]

/-- After the last micro-op the command completes with `OK` (R191). -/
theorem Moving.settle_last (hlast : Q.upc.toNat + 1 = Q.seq.length) :
    settle p (.ok none) (withPort p Q sl log e s) =
      withPort p { Q with upc := Q.upc + 1, status := Status.completed .ok 0, seq := [] } sl log e
        { s with unitP := { s.unitP with fConf := completeEffect Q.op .ok s.unitP.fConf } } := by
  have hport : (setPort p { Q with upc := Q.upc + 1, tmp := none.or Q.tmp }
      (withPort p Q sl log e s)).unitP.ports[p]? = some { Q with upc := Q.upc + 1, tmp := none.or Q.tmp } :=
    getElem?_set_of_some h.port
  rw [Machine.settle_last h.port (h.pending (by omega)) none hlast, completePwm_some hport]
  simp only [setPort, withPort, List.set_set]
  rfl

theorem Moving.step_wait {us : Nat} (hm : Q.seq[Q.upc.toNat]? = some (.wait us)) (hosc : sl.osc ≠ .waking) :
    step (withPort p Q sl log ⟨.seq p :: rest, draws, n⟩ s) =
      .next (settle p (.ok none) (withPort p Q sl log ⟨rest, draws, n⟩ s)) := by
  let s0 := withPort p Q sl log ⟨rest, draws, n⟩ s
  calc step (withPort p Q sl log ⟨.seq p :: rest, draws, n⟩ s)
      = .next (if waitEnabled sl.osc us then settle p (.ok none) s0 else s0) :=
        (step_seq rfl).trans (seqStep_of_wait (s := s0) (h.next.trans hm))
    _ = _ := congrArg _ (if_pos ((waitEnabled_iff _ us).2 fun hw => hosc hw.2))

variable (hbus : s.unitP.i2cHung = false)
include hbus

theorem Moving.step_gc (hm : Q.seq[Q.upc.toNat]? = some (.gc 0x06)) :
    step (withPort p Q sl log ⟨.seq p :: rest, .ok :: draws, n⟩ s) =
      .next
        (settle p (.ok none)
          (withPort p Q Slave.reset
            (log ++ [{ kind := .gc, a7 := 0, reg := none, data := some 0x06, outcome := .ok }])
            ⟨rest, draws, n + freePerTransaction⟩ s)) := by
  let s0 := withPort p Q sl log ⟨rest, .ok :: draws, n⟩ s
  calc step (withPort p Q sl log ⟨.seq p :: rest, .ok :: draws, n⟩ s)
      = exec (.i2cGc 0x06) s0 := (step_seq rfl).trans (seqStep_of_instr (s := s0) (h.next.trans hm) rfl)
    _ = _ := exec_gc (transactGc_ok (s := s0) hbus rfl)

theorem Moving.step_rd {reg : Byte} (hown : s.unitP.devAddr = s.cfg.slaveAddr) (haddr : s.cfg.slaveAddr ≠ 0)
    (hm : Q.seq[Q.upc.toNat]? = some (.rd reg)) :
    ∃ free, step (withPort p Q sl log ⟨.seq p :: rest, .ok :: draws, n⟩ s) =
      .next
        (settle p (.ok (some (slaveRead reg free sl)))
          (withPort p Q sl
            (log ++ [{ kind := .rd, a7 := s.cfg.slaveAddr, reg := some reg, data := some (slaveRead reg free sl)
                       outcome := .ok }])
            ⟨rest, draws, n + freePerTransaction⟩ s)) := by
  let s0 := withPort p Q sl log ⟨rest, .ok :: draws, n⟩ s
  have hi : microInstr s0.unitP.devAddr (portTmp s0.unitP.ports p) (freeByte s0 0) (.rd reg) =
      some (.i2cRd s.cfg.slaveAddr reg) := congrArg (fun a => some (Instr.i2cRd a reg)) hown
  refine ⟨freeByte (afterDraw s0) 0, ?_⟩
  calc step (withPort p Q sl log ⟨.seq p :: rest, .ok :: draws, n⟩ s)
      = exec (.i2cRd s.cfg.slaveAddr reg) s0 :=
        (step_seq rfl).trans (seqStep_of_instr (s := s0) (h.next.trans hm) hi)
    _ = _ := exec_rd (transactRd_own s0 reg hbus rfl haddr)

theorem Moving.step_wr {reg d : Byte} {v : WrVal} {sl' : Slave}
    (hsel : Selects { s with slave := sl } s.unitP.devAddr) (hm : Q.seq[Q.upc.toNat]? = some (.wr reg v))
    (hd : ∀ free, wrValue Q.tmp free v = d) (hw : slaveWrite reg d sl = .ok sl') :
    step (withPort p Q sl log ⟨.seq p :: rest, .ok :: draws, n⟩ s) =
      .next
        (settle p (.ok none)
          (withPort p Q sl'
            (log ++ [{ kind := .wr, a7 := s.unitP.devAddr, reg := some reg, data := some d, outcome := .ok }])
            ⟨rest, draws, n + freePerTransaction⟩ s)) := by
  let s0 := withPort p Q sl log ⟨rest, .ok :: draws, n⟩ s
  have htmp : portTmp s0.unitP.ports p = Q.tmp := by simp [portTmp, s0, h.port]
  have hi : microInstr s0.unitP.devAddr (portTmp s0.unitP.ports p) (freeByte s0 0) (.wr reg v) =
      some (.i2cWr s.unitP.devAddr reg d) := by
    rw [htmp, microInstr, hd]
    rfl
  calc step (withPort p Q sl log ⟨.seq p :: rest, .ok :: draws, n⟩ s)
      = exec (.i2cWr s.unitP.devAddr reg d) s0 :=
        (step_seq rfl).trans (seqStep_of_instr (s := s0) (h.next.trans hm) hi)
    _ = _ := exec_wr (transactWr_accepted (s := s0) hbus hsel rfl hw)

end Rules

theorem step_osc_withPort (s : State) (p n : Nat) (Q : PwmPort) {sl : Slave} (hosc : sl.osc = .waking)
    (log : List BusEntry) (rest : List Agent) (draws : List Draw) :
    step (withPort p Q sl log ⟨.osc :: rest, draws, n⟩ s) =
      .next (withPort p Q { sl with osc := .running } log ⟨rest, draws, n⟩ s) := by
  rw [step_of_sched (s := withPort p Q sl log ⟨.osc :: rest, draws, n⟩ s) rfl]
  simp only [agentStep, oscStep, withPort, hosc]

/-! ### The issue -/

/-- The state after an accepted issue, its port apart (R190). -/
def issued (p : Nat) (c : PwmCmd) (s : State) : State :=
  { s with
    faults := if conflicts s.unitP.ports p c then addMark .seqConflict s.faults else s.faults
    unitP := issueEffect c { s.unitP with issueCtr := s.unitP.issueCtr + 1 } }

theorem issued_ports (p : Nat) (c : PwmCmd) (s : State) : (issued p c s).unitP.ports = s.unitP.ports := by
  cases c <;> rfl

theorem issuePwm_withPort {s : State} {p : Nat} {P : PwmPort} (hsel : s.sel = .pwm p)
    (hP : s.unitP.ports[p]? = some P) (hidle : P.status.busy = false) {c : PwmCmd} (hc : validate c = none)
    {sched : List Agent} {draws : List Draw} (hsched : s.env.sched = sched) (hdraws : s.env.outcomes = draws) :
    issuePwm c s =
      .next
        (withPort p (acceptedPort s.cfg c s.unitP.issueCtr P) s.slave s.busLog ⟨sched, draws, s.env.count⟩
          (issued p c s)) := by
  subst hsched hdraws
  have hmark : acceptPwm p P c s =
      { withPort p (acceptedPort s.cfg c s.unitP.issueCtr P) s.slave s.busLog s.env (issued p c s) with
        sel := s.sel } := by
    rw [acceptPwm_eq]; cases c <;> rfl
  rw [issuePwm_accepted hsel hP hidle hc, hmark, hsel]
  rfl

/-! ### `pwm.chan` -/

theorem lowDuty_bounds (cfg : Params) (ch : Nat) :
    0x06 ≤ lowDuty cfg ch ∧ lowDuty cfg ch ≤ 0x08 + 4 * ch ∧ lowDuty cfg ch % 2 = 0 := by
  unfold lowDuty; split <;> omega

section Duty

variable {cfg : Params} {ch : Nat} (hch : ch ≤ 15)
include hch

theorem slaveWrite_lowDuty (b : Byte) (sl : Slave) :
    slaveWrite (BitVec.ofNat 8 (lowDuty cfg ch)) b sl = .ok (srWrite (lowDuty cfg ch) b sl) := by
  obtain ⟨hlo, hhi, heven⟩ := lowDuty_bounds cfg ch
  have hreg : (BitVec.ofNat 8 (lowDuty cfg ch)).toNat = lowDuty cfg ch := by rw [BitVec.toNat_ofNat]; omega
  have hbyte : plainByte (BitVec.ofNat 8 (lowDuty cfg ch)) b = b := by
    rw [plainByte, hreg, if_neg (by omega), if_neg (by omega), ledByte_low (by omega)]
  rw [slaveWrite_plain (by omega) (by omega), hreg, hbyte]

theorem slaveWrite_highDuty {b : Byte} (hb : b.toNat < 32) (sl : Slave) :
    slaveWrite (BitVec.ofNat 8 (lowDuty cfg ch + 1)) b sl = .ok (srWrite (lowDuty cfg ch + 1) b sl) := by
  obtain ⟨hlo, hhi, heven⟩ := lowDuty_bounds cfg ch
  have hreg : (BitVec.ofNat 8 (lowDuty cfg ch + 1)).toNat = lowDuty cfg ch + 1 := by rw [BitVec.toNat_ofNat]; omega
  have hbyte : plainByte (BitVec.ofNat 8 (lowDuty cfg ch + 1)) b = b := by
    rw [plainByte, hreg, if_neg (by omega), if_neg (by omega)]
    exact BitVec.eq_of_toNat_eq (by rw [ledByte_high (by omega)]; omega)
  rw [slaveWrite_plain (by omega) (by omega), hreg, hbyte]

end Duty

theorem duty_eq_of_bytes {cfg : Params} {sl : Slave} {ch : Nat} {d : BitVec 12}
    (hlo : (srRead sl (lowDuty cfg ch)).toNat = d.toNat % 256)
    (hhi : (srRead sl (lowDuty cfg ch + 1)).toNat = d.toNat / 256) : duty cfg.dutyPair sl ch = d := by
  have := d.isLt
  refine BitVec.eq_of_toNat_eq ?_
  rw [duty, dutyReg_eq_lowDuty, toNat_append_sum, BitVec.extractLsb'_toNat, hlo, hhi]
  omega

/-- The registers an address selects the slave by lie below the LED registers (R140). -/
theorem selects_srWrite {s : State} {sl : Slave} {a : BitVec 7} {r : Nat} (hr : 0x05 < r) (v : Byte)
    (h : Selects { s with slave := sl } a) : Selects { s with slave := srWrite r v sl } a := by
  have hkeep {r' : Nat} (hr' : r' ≤ 0x05) : srRead (srWrite r v sl) r' = srRead sl r' :=
    srRead_srWrite_other (by omega) v
  simpa only [Selects, hkeep (Nat.le_refl 5), hkeep (show 0 ≤ 5 by decide), hkeep (show 2 ≤ 5 by decide),
    hkeep (show 3 ≤ 5 by decide), hkeep (show 4 ≤ 5 by decide)] using h

theorem heldByChannel_of_idle {ports : List PwmPort} {p k : Nat} {Q : PwmPort} {ch : BitVec 8} {d : BitVec 12}
    (hidle : ∀ (q : Nat) (R : PwmPort), ports[q]? = some R → R.status.busy = false)
    (hop : Q.op = some (.chan ch d)) (hstamp : Q.stamp = some k) : heldByChannel (ports.set p Q) p Q = false := by
  rw [← Bool.not_eq_true, heldByChannel_iff hop hstamp]
  rintro ⟨q, R, d', k', hne, hR, hbusy, -⟩
  rw [List.getElem?_set_ne hne.symm] at hR
  simp [hidle q R hR] at hbusy

theorem conflicts_of_idle {ports : List PwmPort} (p : Nat) (c : PwmCmd)
    (hidle : ∀ (q : Nat) (R : PwmPort), ports[q]? = some R → R.status.busy = false) : conflicts ports p c = false := by
  have hnone (f : Option PwmCmd → Bool) : otherActive ports p f = false := by
    rw [← Bool.not_eq_true, otherActive_iff]
    rintro ⟨q, R, -, hR, hbusy, -⟩
    simp [hidle q R hR] at hbusy
  rw [conflicts, hnone, hnone, ite_self]

/-- Settles O36: the issue and the two writes of the duty's bytes, low register first. -/
theorem pwmChanRun : Obligations.PwmChanRun := by
  intro s p P ch d rest draws hsel hP hidle hch hothers haddr hbus hwf hdraws hsched
  let c : PwmCmd := .chan ch d
  let lo := lowDuty s.cfg ch.toNat
  let b0 : Byte := BitVec.ofNat 8 (d.toNat % 256)
  let b1 : Byte := BitVec.ofNat 8 (d.toNat / 256)
  have hd := d.isLt
  have hb0 : b0.toNat = d.toNat % 256 := by simp only [b0, BitVec.toNat_ofNat]; omega
  have hb1 : b1.toNat = d.toNat / 256 := by simp only [b1, BitVec.toNat_ofNat]; omega
  let Q0 := acceptedPort s.cfg c s.unitP.issueCtr P
  let Q1 : PwmPort := { Q0 with upc := Q0.upc + 1, tmp := none.or Q0.tmp }
  have hseq : Q0.seq = [.wr (BitVec.ofNat 8 lo) (.imm b0), .wr (BitVec.ofNat 8 (lo + 1)) (.imm b1)] :=
    commandSeq_chan s.cfg ch d
  have moving {Q : PwmPort} (hbusy : Q.status.busy = true) (hstuck : Q.stuck = false) (hop : Q.op = some c)
      (hstamp : Q.stamp = some s.unitP.issueCtr) : Moving p Q (issued p c s) :=
    ⟨(List.getElem?_eq_some_iff.1 hP).1, hbusy, hstuck, heldByChannel_of_idle hothers hop hstamp⟩
  have h0 : Moving p Q0 (issued p c s) := moving rfl rfl rfl rfl
  have h1 : Moving p Q1 (issued p c s) := moving rfl rfl rfl rfl
  have hlo : 0x05 < lo := (lowDuty_bounds s.cfg ch.toNat).1
  have step0 := h0.step_wr (n := s.env.count) (log := s.busLog) (rest := .seq p :: rest) (draws := .ok :: draws) hbus
    haddr (by rw [hseq]; rfl) (fun _ => rfl) (slaveWrite_lowDuty hch b0 s.slave)
  rw [h0.settle_more none (by rw [hseq]; exact Nat.one_lt_two)] at step0
  have step1 := h1.step_wr (n := s.env.count + freePerTransaction)
    (log := s.busLog ++ [{ kind := .wr, a7 := s.unitP.devAddr, reg := some (BitVec.ofNat 8 lo), data := some b0
                           outcome := .ok }])
    (rest := rest) (draws := draws) hbus (selects_srWrite hlo b0 haddr) (by simp only [Q1, hseq]; rfl) (fun _ => rfl)
    (slaveWrite_highDuty hch (b := b1) (by omega) _)
  rw [h1.settle_last (by simp only [Q1, hseq]; rfl), List.append_assoc] at step1
  have hlast : srRead (srWrite (lo + 1) b1 (srWrite lo b0 s.slave)) (lo + 1) = b1 :=
    srRead_srWrite_same (Memory.write_wf hwf _ _) _ _
  have hfirst : srRead (srWrite (lo + 1) b1 (srWrite lo b0 s.slave)) lo = b0 := by
    rw [srRead_srWrite_other (by omega), srRead_srWrite_same hwf]
  refine ⟨_, _, { Q1 with upc := Q1.upc + 1, status := Status.completed .ok 0, seq := [] },
    issuePwm_withPort hsel hP hidle (validate_chan hch d) hsched hdraws,
    (run_succ step0 1).trans (run_succ step1 0), ?duty, ?low, ?high, ?others, rfl, rfl, ?port, rfl, ?ports, rfl, rfl,
    rfl, ?faults, rfl⟩
  case low => exact (congrArg _ hfirst).trans hb0
  case high => exact (congrArg _ hlast).trans hb1
  case duty => exact duty_eq_of_bytes ((congrArg _ hfirst).trans hb0) ((congrArg _ hlast).trans hb1)
  case others =>
    intro r hr hr'
    exact (srRead_srWrite_other hr' _).trans (srRead_srWrite_other hr _)
  case port => exact getElem?_set_of_some hP
  case ports => exact fun q hq => List.getElem?_set_ne hq.symm
  case faults =>
    have hconf := conflicts_of_idle p c hothers
    show (if conflicts s.unitP.ports p c then _ else s.faults) = s.faults
    rw [hconf, if_neg Bool.false_ne_true]

end Sys2Proof.Machine
end

section
/-! The two commands of unit P that read `MODE1` and wait for the oscillator (spec/41_pwm_commands.md R202, R214). -/

namespace Sys2Proof.Machine

open Sys2Proof.Safety

/-- The contents of a port at micro-op `k` of its command, with `TMP`. -/
def PwmPort.atStep (Q : PwmPort) (k : Byte) (tmp : Option Byte) : PwmPort := { Q with upc := k, tmp := tmp }

theorem heldByChannel_exclusive {Q : PwmPort} (h : exclusive Q.op = true) (ports : List PwmPort) (p : Nat) :
    heldByChannel ports p Q = false := by
  unfold heldByChannel
  split
  next hop => simp [exclusive, hop] at h
  all_goals rfl

/-- An exclusive command just issued moves, at each of its micro-ops. -/
theorem moving_exclusive {s : State} {p : Nat} {P : PwmPort} (hP : s.unitP.ports[p]? = some P) {c : PwmCmd}
    (hc : exclusive (some c) = true) (k : Byte) (tmp : Option Byte) :
    Moving p ((acceptedPort s.cfg c s.unitP.issueCtr P).atStep k tmp) (issued p c s) where
  there := by rw [issued_ports]; exact (List.getElem?_eq_some_iff.1 hP).1
  busy := rfl
  notStuck := rfl
  notHeld := heldByChannel_exclusive hc _ _

/-- The slave's own address selects it (R140). -/
theorem selects_own {s : State} (h : s.cfg.slaveAddr ≠ 0) (hown : s.unitP.devAddr = s.cfg.slaveAddr) (sl : Slave) :
    Selects { s with slave := sl } s.unitP.devAddr := ⟨hown ▸ h, .inl hown⟩

/-- A `MODE1` write that clears `SLEEP` of a sleeping slave wakes it (R144). -/
theorem slaveWrite_wake {sl : Slave} {d : Byte} (hasleep : asleep sl = true) (hlt : d.toNat < 0x40)
    (hsleep : d.getLsbD 4 = false) : slaveWrite 0x00 d sl = .ok { srWrite 0x00 d sl with osc := .waking } := by
  rw [slaveWrite_mode1 sl d hlt, hasleep, hsleep]; rfl

/-- What the mask of R201 and R211 keeps of a `MODE1` byte read is what it keeps of the byte stored, bit 6 apart. -/
theorem and_6F_of_read {v x : Byte} (h : v.toNat % 128 = x.toNat % 64) : v &&& 0x6F = x &&& 0x2F := by
  have hv : v.toNat &&& 0x7F = v.toNat % 128 := Nat.and_two_pow_sub_one_eq_mod _ 7
  have hx : x.toNat &&& 0x3F = x.toNat % 64 := Nat.and_two_pow_sub_one_eq_mod _ 6
  refine BitVec.eq_of_toNat_eq ?_
  calc (v &&& 0x6F).toNat = (v.toNat &&& 0x7F) &&& 0x6F := by rw [Nat.and_assoc]; rfl
    _ = (x.toNat &&& 0x3F) &&& 0x6F := by rw [hv, hx, h]
    _ = (x &&& 0x2F).toNat := by rw [Nat.and_assoc]; rfl

/-! ### `pwm.init` -/

/-- A `MODE1` byte read after the software reset, as the mask of R201 leaves it. -/
theorem mode1_read_after_reset (free : Byte) :
    (slaveRead 0x00 free Slave.reset = 0x11 ∨ slaveRead 0x00 free Slave.reset = 0x91)
      ∧ slaveRead 0x00 free Slave.reset &&& 0x6F ||| 0x00 = 0x01 := by
  have hread : (slaveRead 0x00 free Slave.reset).toNat % 128 = (0x11 : Byte).toNat % 64 :=
    slaveRead_mode1 free Slave.reset
  refine ⟨?_, by rw [and_6F_of_read hread]; rfl⟩
  generalize slaveRead 0x00 free Slave.reset = v at hread
  have := v.isLt
  obtain h | h : v.toNat = 0x11 ∨ v.toNat = 0x91 := by simp at hread; omega
  · exact .inl (BitVec.eq_of_toNat_eq h)
  · exact .inr (BitVec.eq_of_toNat_eq h)

/-- Settles O34: the software reset, then `MODE1` read and written back without `SLEEP`. -/
theorem pwmInitRun : Obligations.PwmInitRun := by
  intro s p P a rest draws hsel hP hidle ha hown hbus hdraws hsched
  let c : PwmCmd := .init a
  let s' := issued p c s
  let Q := acceptedPort s.cfg c s.unitP.issueCtr P
  have moving := moving_exclusive hP (c := c) rfl
  have haddr : s'.cfg.slaveAddr ≠ 0 := hown ▸ ha
  have hown' : s'.unitP.devAddr = s'.cfg.slaveAddr := hown
  let n := s.env.count
  let f := freePerTransaction
  let sl3 : Slave := { srWrite 0x00 0x01 Slave.reset with osc := .waking }
  let sl4 : Slave := { sl3 with osc := .running }
  let log1 := s.busLog ++ [{ kind := .gc, a7 := 0, reg := none, data := some 0x06, outcome := .ok }]
  have step0 : step (withPort p (Q.atStep 0 none) s.slave s.busLog
        ⟨.seq p :: .seq p :: .seq p :: .seq p :: .osc :: .seq p :: rest, .ok :: .ok :: .ok :: draws, n⟩ s') =
      .next (withPort p (Q.atStep 1 none) Slave.reset log1
        ⟨.seq p :: .seq p :: .seq p :: .osc :: .seq p :: rest, .ok :: .ok :: draws, n + f⟩ s') :=
    ((moving 0 none).step_gc hbus rfl).trans (congrArg _ ((moving 0 none).settle_more none (show 0 + 1 < 5 by decide)))
  have step1 : step (withPort p (Q.atStep 1 none) Slave.reset log1
        ⟨.seq p :: .seq p :: .seq p :: .osc :: .seq p :: rest, .ok :: .ok :: draws, n + f⟩ s') =
      .next (withPort p (Q.atStep 2 none) Slave.reset log1
        ⟨.seq p :: .seq p :: .osc :: .seq p :: rest, .ok :: .ok :: draws, n + f⟩ s') :=
    ((moving 1 none).step_wait rfl (by decide)).trans
      (congrArg _ ((moving 1 none).settle_more none (show 1 + 1 < 5 by decide)))
  obtain ⟨free, hrd⟩ := (moving 2 none).step_rd (sl := Slave.reset) (log := log1) (n := n + f)
    (rest := .seq p :: .osc :: .seq p :: rest) (draws := .ok :: draws) hbus hown' haddr rfl
  obtain ⟨hv, hmask⟩ := mode1_read_after_reset free
  let v := slaveRead 0x00 free Slave.reset
  let log2 := log1 ++ [{ kind := .rd, a7 := s.cfg.slaveAddr, reg := some 0x00, data := some v, outcome := .ok }]
  let log3 := log2 ++ [{ kind := .wr, a7 := a, reg := some 0x00, data := some 0x01, outcome := .ok }]
  have step2 : step (withPort p (Q.atStep 2 none) Slave.reset log1
        ⟨.seq p :: .seq p :: .osc :: .seq p :: rest, .ok :: .ok :: draws, n + f⟩ s') =
      .next (withPort p (Q.atStep 3 (some v)) Slave.reset log2
        ⟨.seq p :: .osc :: .seq p :: rest, .ok :: draws, n + f + f⟩ s') :=
    hrd.trans (congrArg _ ((moving 2 none).settle_more (some v) (show 2 + 1 < 5 by decide)))
  have step3 : step (withPort p (Q.atStep 3 (some v)) Slave.reset log2
        ⟨.seq p :: .osc :: .seq p :: rest, .ok :: draws, n + f + f⟩ s') =
      .next (withPort p (Q.atStep 4 (some v)) sl3 log3 ⟨.osc :: .seq p :: rest, draws, n + f + f + f⟩ s') :=
    ((moving 3 (some v)).step_wr hbus (selects_own haddr hown' _) rfl (fun _ => hmask)
      (slaveWrite_wake rfl (by decide) rfl)).trans
      (congrArg _ ((moving 3 (some v)).settle_more none (show 3 + 1 < 5 by decide)))
  have step4 := step_osc_withPort s' p (n + f + f + f) (Q.atStep 4 (some v)) (sl := sl3) rfl log3 (.seq p :: rest) draws
  have step5 := ((moving 4 (some v)).step_wait (sl := sl4) (log := log3) (n := n + f + f + f) (rest := rest)
    (draws := draws) rfl (show Osc.running ≠ .waking by decide)).trans
    (congrArg _ ((moving 4 (some v)).settle_last rfl))
  refine ⟨_, _, v, { Q.atStep 5 (some v) with status := Status.completed .ok 0, seq := [] },
    issuePwm_withPort hsel hP hidle (validate_init ha) hsched hdraws,
    (run_succ step0 5).trans <| (run_succ step1 4).trans <| (run_succ step2 3).trans <| (run_succ step3 2).trans <|
      (run_succ step4 1).trans (run_succ step5 0), hv, ?log, rfl, ?others, rfl, rfl, rfl, ?port, rfl, ?ports, rfl, rfl⟩
  case log =>
    show log3 = _
    simp only [log3, log2, log1, v, hown, List.append_assoc, List.singleton_append]
  case others => exact fun r hr => srRead_srWrite_other hr _
  case port => exact getElem?_set_of_some hP
  case ports => exact fun q hq => List.getElem?_set_ne hq.symm

/-! ### `pwm.freq` -/

theorem prescaleWrite_wf {sl : Slave} (h : Memory.wf slaveReset sl.sr) (d : Byte) :
    Memory.wf slaveReset (prescaleWrite d sl).sr := by
  unfold prescaleWrite
  split
  · exact Memory.write_wf h _ _
  · exact h

/-- A prescale is at least 3, so a sleeping slave stores it as it is (R150, R212). -/
theorem srRead_prescaleWrite_prescale {sl : Slave} (hwf : Memory.wf slaveReset sl.sr) (hasleep : asleep sl = true)
    (num hz : Nat) : srRead (prescaleWrite (prescale num hz) sl) 0xFE = prescale num hz := by
  have hmin := prescale_toNat num hz
  refine BitVec.eq_of_toNat_eq ?_
  rw [srRead_prescaleWrite_asleep _ hwf hasleep]
  omega

/-- The two bytes `pwm.freq` writes to `MODE1` from the stored `x` (R211): its bits 5 and 3:0, with `SLEEP` and
without. -/
theorem mode1_freq_bytes (x : Byte) :
    ((x &&& 0x2F ||| 0x10).toNat < 0x40 ∧ (x &&& 0x2F ||| 0x10).getLsbD 4 = true)
      ∧ (x &&& 0x2F).toNat < 0x40 ∧ (x &&& 0x2F).getLsbD 4 = false := by
  have hlt : (x &&& 0x2F).toNat < 2 ^ 6 := Nat.and_lt_two_pow _ (by decide)
  exact ⟨⟨Nat.or_lt_two_pow (n := 6) hlt (by decide), by simp⟩, hlt, by simp⟩

/-- Settles O35: `MODE1` is read and written back with `SLEEP`, the prescale is written, and `SLEEP` is cleared. -/
theorem pwmFreqRun : Obligations.PwmFreqRun := by
  intro s p P hz rest draws hsel hP hidle hhz hown haddr hbus hwf hdraws hsched p8 kept wrote
  let c : PwmCmd := .freq hz
  let s' := issued p c s
  let Q := acceptedPort s.cfg c s.unitP.issueCtr P
  have moving := moving_exclusive hP (c := c) rfl
  have hown' : s'.unitP.devAddr = s'.cfg.slaveAddr := hown
  let n := s.env.count
  let f := freePerTransaction
  obtain ⟨⟨hslept, hslept4⟩, hkept, hkept4⟩ := mode1_freq_bytes (srRead s.slave 0x00)
  let sl1 : Slave :=
    { srWrite 0x00 (kept ||| 0x10) s.slave with osc := oscAfter (asleep s.slave) true s.slave.osc }
  let sl2 := prescaleWrite p8 sl1
  let sl3 : Slave := { srWrite 0x00 kept sl2 with osc := .waking }
  let sl4 : Slave := { sl3 with osc := .running }
  have hwf1 : Memory.wf slaveReset sl1.sr := Memory.write_wf hwf _ _
  have hwf2 : Memory.wf slaveReset sl2.sr := prescaleWrite_wf hwf1 p8
  have hasleep1 : asleep sl1 = true := by
    rw [asleep, show srRead sl1 0x00 = kept ||| 0x10 from srRead_srWrite_same hwf 0x00 _, hslept4]
  have hasleep2 : asleep sl2 = true := by
    rw [asleep, srRead_prescaleWrite_other p8 (by decide)]
    exact hasleep1
  obtain ⟨free, hrd⟩ := (moving 0 none).step_rd (sl := s.slave) (log := s.busLog) (n := n)
    (rest := .seq p :: .seq p :: .seq p :: .osc :: .seq p :: rest) (draws := .ok :: .ok :: .ok :: draws) hbus hown'
    haddr rfl
  let v := slaveRead 0x00 free s.slave
  have hv : v.toNat % 128 = (srRead s.slave 0x00).toNat % 64 := slaveRead_mode1 free s.slave
  have hmask : v &&& 0x6F = kept := and_6F_of_read hv
  let log1 := s.busLog ++ [{ kind := .rd, a7 := s.cfg.slaveAddr, reg := some 0x00, data := some v, outcome := .ok }]
  let wr (reg d : Byte) : BusEntry :=
    { kind := .wr, a7 := s.unitP.devAddr, reg := some reg, data := some d, outcome := .ok }
  let log2 := log1 ++ [wr 0x00 (kept ||| 0x10)]
  let log3 := log2 ++ [wr 0xFE p8]
  let log4 := log3 ++ [wr 0x00 kept]
  have step0 : step (withPort p (Q.atStep 0 none) s.slave s.busLog
        ⟨.seq p :: .seq p :: .seq p :: .seq p :: .osc :: .seq p :: rest, .ok :: .ok :: .ok :: .ok :: draws, n⟩ s') =
      .next (withPort p (Q.atStep 1 (some v)) s.slave log1
        ⟨.seq p :: .seq p :: .seq p :: .osc :: .seq p :: rest, .ok :: .ok :: .ok :: draws, n + f⟩ s') :=
    hrd.trans (congrArg _ ((moving 0 none).settle_more (some v) (show 0 + 1 < 5 by decide)))
  have step1 : step (withPort p (Q.atStep 1 (some v)) s.slave log1
        ⟨.seq p :: .seq p :: .seq p :: .osc :: .seq p :: rest, .ok :: .ok :: .ok :: draws, n + f⟩ s') =
      .next (withPort p (Q.atStep 2 (some v)) sl1 log2
        ⟨.seq p :: .seq p :: .osc :: .seq p :: rest, .ok :: .ok :: draws, n + f + f⟩ s') :=
    ((moving 1 (some v)).step_wr hbus (selects_own haddr hown' _) rfl (fun _ => congrArg (· ||| 0x10) hmask)
      ((slaveWrite_mode1 _ _ hslept).trans (by rw [hslept4]))).trans
      (congrArg _ ((moving 1 (some v)).settle_more none (show 1 + 1 < 5 by decide)))
  have step2 : step (withPort p (Q.atStep 2 (some v)) sl1 log2
        ⟨.seq p :: .seq p :: .osc :: .seq p :: rest, .ok :: .ok :: draws, n + f + f⟩ s') =
      .next (withPort p (Q.atStep 3 (some v)) sl2 log3
        ⟨.seq p :: .osc :: .seq p :: rest, .ok :: draws, n + f + f + f⟩ s') :=
    ((moving 2 (some v)).step_wr hbus (selects_own haddr hown' _) rfl (fun _ => rfl)
      (slaveWrite_prescale p8 sl1)).trans
      (congrArg _ ((moving 2 (some v)).settle_more none (show 2 + 1 < 5 by decide)))
  have step3 : step (withPort p (Q.atStep 3 (some v)) sl2 log3
        ⟨.seq p :: .osc :: .seq p :: rest, .ok :: draws, n + f + f + f⟩ s') =
      .next (withPort p (Q.atStep 4 (some v)) sl3 log4 ⟨.osc :: .seq p :: rest, draws, n + f + f + f + f⟩ s') :=
    ((moving 3 (some v)).step_wr hbus (selects_own haddr hown' _) rfl
      (fun _ => (BitVec.or_zero).trans hmask) (slaveWrite_wake hasleep2 hkept hkept4)).trans
      (congrArg _ ((moving 3 (some v)).settle_more none (show 3 + 1 < 5 by decide)))
  have step4 := step_osc_withPort s' p (n + f + f + f + f) (Q.atStep 4 (some v)) (sl := sl3) rfl log4 (.seq p :: rest)
    draws
  have step5 := ((moving 4 (some v)).step_wait (sl := sl4) (log := log4) (n := n + f + f + f + f) (rest := rest)
    (draws := draws) rfl (show Osc.running ≠ .waking by decide)).trans
    (congrArg _ ((moving 4 (some v)).settle_last rfl))
  refine ⟨_, _, v, { Q.atStep 5 (some v) with status := Status.completed .ok 0, seq := [] },
    issuePwm_withPort hsel hP hidle (validate_freq hhz) hsched hdraws,
    (run_succ step0 5).trans <| (run_succ step1 4).trans <| (run_succ step2 3).trans <| (run_succ step3 2).trans <|
      (run_succ step4 1).trans (run_succ step5 0), hv, ?log, ?prescale, ?mode1, ?others, rfl, rfl, ?port, rfl, ?ports,
    rfl, rfl, rfl⟩
  case log =>
    show log4 = _
    simp only [log4, log3, log2, log1, wr, hown, List.append_assoc, List.cons_append, List.nil_append]
    rfl
  case prescale =>
    exact (srRead_srWrite_other (by decide) _).trans (srRead_prescaleWrite_prescale hwf1 hasleep1 _ _)
  case mode1 => exact srRead_srWrite_same hwf2 _ _
  case others =>
    intro r hr hr'
    calc srRead sl4 r = srRead sl2 r := srRead_srWrite_other hr _
      _ = srRead sl1 r := srRead_prescaleWrite_other p8 hr'
      _ = srRead s.slave r := srRead_srWrite_other hr _
  case port => exact getElem?_set_of_some hP
  case ports => exact fun q hq => List.getElem?_set_ne hq.symm

end Sys2Proof.Machine
end

section
/-! Host accesses to the port windows (spec/20_memory.md R81, R86): the registers as numbers, the window an address lies
in, and what each access does. -/

namespace Sys2Proof.Machine

/-! ### The words the host reads -/

theorem statusWord_toNat (st : Status) :
    (statusWord st).toNat = (if st.busy then 1 else 0) * 2 ^ 31 + st.failStep.toNat * 2 ^ 8 + st.err.code.toNat := by
  simp only [statusWord, toNat_append_sum, BitVec.toNat_ofBool]
  cases st.busy with
  | false => simp
  | true => simp; omega

theorem freqWord_toNat (f : FConf) : (freqWord f).toNat = (if f.valid then 2 ^ 16 else 0) + f.hz.toNat := by
  simp only [freqWord, toNat_append_sum, BitVec.toNat_ofBool]
  cases f.valid <;> simp

theorem statusWord_fields (st : Status) :
    (statusWord st).toNat / 2 ^ 31 = (if st.busy then 1 else 0) ∧ (statusWord st).toNat / 2 ^ 16 % 2 ^ 15 = 0
      ∧ (statusWord st).toNat / 2 ^ 8 % 2 ^ 8 = st.failStep.toNat
      ∧ (statusWord st).toNat % 2 ^ 8 = st.err.code.toNat := by
  have hword := statusWord_toNat st
  have hstep := st.failStep.isLt
  have hcode := st.err.code.isLt
  generalize (if st.busy then 1 else 0) = b at hword ⊢
  omega

/-! ### The register an access reaches -/

theorem portReg_status (π : PortSel) : portReg π 4 32 = .ok .status := by cases π <;> rfl

theorem portReg_cmd (π : PortSel) : portReg π 0 32 = .ok .cmd := by cases π <;> rfl

theorem portReg_misaligned {offset width : Nat} (h : ¬(width = 32 ∧ offset % 4 = 0)) (π : PortSel) :
    portReg π offset width = .error .portWidth :=
  if_pos (by omega)

theorem portReg_outside {π : PortSel} {offset : Nat} (halign : offset % 4 = 0)
    (h : ¬(offset = 0 ∨ offset = 4 ∨ (offset = 8 ∧ ∃ p, π = .pwm p))) :
    portReg π offset 32 = .error .portOffset := by
  simp only [not_or] at h
  obtain ⟨h0, h4, h8⟩ := h
  simp only [portReg, if_neg h0, if_neg h4, if_neg (show ¬(32 ≠ 32 ∨ offset % 4 ≠ 0) by omega)]
  split
  next hoff =>
    split
    next p => exact absurd ⟨hoff, p, rfl⟩ h8
    · rfl
    · rfl
  · rfl

/-- `CMD` is reached by aligned 32-bit accesses of the window's first word alone. -/
theorem portReg_eq_cmd {π : PortSel} {offset width : Nat} (h : portReg π offset width = .ok .cmd) :
    offset = 0 ∧ width = 32 := by
  by_cases halign : width = 32 ∧ offset % 4 = 0
  · obtain ⟨rfl, halign⟩ := halign
    by_cases hin : offset = 0 ∨ offset = 4 ∨ (offset = 8 ∧ ∃ p, π = .pwm p)
    · obtain rfl | rfl | ⟨rfl, p, rfl⟩ := hin
      · exact ⟨rfl, rfl⟩
      · rw [portReg_status] at h; cases h
      · cases h
    · rw [portReg_outside halign hin] at h; cases h
  · rw [portReg_misaligned halign] at h; cases h

/-! ### The window an address lies in -/

/-- The window of a `PORT_BASE` entry holds the address (R81). -/
def Holds (addr : Nat) (e : PortSel × Nat) : Prop := e.2 ≤ addr ∧ addr < e.2 + windowSize e.1

theorem portAt_none {bases : List (PortSel × Nat)} {addr : Nat} (h : ∀ e ∈ bases, ¬Holds addr e) :
    portAt bases addr = none := by
  induction bases with
  | nil => rfl
  | cons e rest ih =>
    obtain ⟨hhead, hrest⟩ := List.forall_mem_cons.1 h
    exact (if_neg hhead).trans (ih hrest)

theorem portAt_of_unique {bases : List (PortSel × Nat)} {addr base : Nat} {π : PortSel} (hmem : (π, base) ∈ bases)
    (hholds : Holds addr (π, base)) (hone : ∀ e ∈ bases, Holds addr e → e = (π, base)) :
    portAt bases addr = some (π, addr - base) := by
  induction bases with
  | nil => cases hmem
  | cons e rest ih =>
    obtain ⟨hhead, hrest⟩ := List.forall_mem_cons.1 hone
    by_cases he : Holds addr e
    · obtain rfl := hhead he
      exact if_pos he
    · have hne : (π, base) ≠ e := fun heq => he (heq ▸ hholds)
      exact (if_neg he).trans (ih ((List.mem_cons.1 hmem).resolve_left hne) hrest)

/-! ### An access does not ask what the thread still had to do -/

section Thread

variable (k : Nat) (t t' : Thread) (s : State) (π : PortSel) (offset width : Nat)

@[simp] theorem setThread_setThread : setThread k t (setThread k t' s) = setThread k t s := by
  simp only [setThread, List.set_set]

@[simp] theorem portStatus_setThread : portStatus (setThread k t s) π = portStatus s π := by cases π <;> rfl

theorem portRead_setThread : portRead k t π offset width (setThread k t' s) = portRead k t π offset width s := by
  simp only [portRead, portStatus_setThread, setThread_setThread, setThread_unitP]

theorem portWrite_setThread (w : Word)
    (h : ¬(offset = 0 ∧ width = 32 ∧ ∃ st, portStatus s π = some st ∧ st.busy = true)) :
    portWrite k t π offset width w (setThread k t' s) = portWrite k t π offset width w s := by
  simp only [portWrite, portStatus_setThread, setThread_setThread]
  split
  · rfl
  next st hst =>
    split
    · rfl
    next hreg =>
      obtain ⟨h0, h32⟩ := portReg_eq_cmd hreg
      have hidle : ¬st.busy = true := fun hbusy => h ⟨h0, h32, st, hst, hbusy⟩
      rw [if_neg hidle, if_neg hidle]
    · rfl
    · rfl

end Thread

section Scheduled

variable {s : State} {k : Nat} {rest : List Agent} {t : Thread} {ops : List HostOp} {addr width : Nat}
  (hsched : s.env.sched = .host k :: rest) (ht : s.host.threads[k]? = some t)
include hsched ht

theorem step_addrRead (hprog : t.prog = .addrRead addr width :: ops) :
    step s = addrRead k { t with prog := ops } addr width { s with env := { s.env with sched := rest } } := by
  simp only [step_of_sched hsched, agentStep, hostStep, ht, hprog]

theorem step_addrWrite {w : Word} (hprog : t.prog = .addrWrite addr width w :: ops) :
    step s = addrWrite k { t with prog := ops } addr width w { s with env := { s.env with sched := rest } } := by
  simp only [step_of_sched hsched, agentStep, hostStep, ht, hprog]

end Scheduled

section Address

variable {s : State} {addr : Nat} (k : Nat) (t : Thread) (width : Nat)

theorem addrRead_at {e : PortSel × Nat} (h : portAt s.cfg.portBase addr = some e) :
    addrRead k t addr width s = portRead k t e.1 e.2 width s := by
  simp only [addrRead, h]

theorem addrRead_outside (h : portAt s.cfg.portBase addr = none) :
    addrRead k t addr width s =
      .next (refuse (outsideWindow addr width) (setThread k { t with got := none } s)) := by
  simp only [addrRead, h]

theorem addrWrite_at {e : PortSel × Nat} (h : portAt s.cfg.portBase addr = some e) (w : Word) :
    addrWrite k t addr width w s = portWrite k t e.1 e.2 width w s := by
  simp only [addrWrite, h]

theorem addrWrite_outside (h : portAt s.cfg.portBase addr = none) (w : Word) :
    addrWrite k t addr width w s = .next (refuse (outsideWindow addr width) (setThread k t s)) := by
  simp only [addrWrite, h]

end Address

theorem outsideWindow_eq (addr width : Nat) :
    outsideWindow addr width = if width = 32 ∧ addr % 4 = 0 then .portOffset else .portWidth := by
  unfold outsideWindow
  by_cases h : width = 32 ∧ addr % 4 = 0
  · rw [if_pos h, if_neg (by omega)]
  · rw [if_neg h, if_pos (by omega)]

theorem lookup_code (e : ErrCode) :
    ([(.ok, 0), (.busError, 1), (.invalidChannel, 2), (.invalidFrequency, 3), (.illegalCommand, 4), (.bufferRange, 5),
      (.invalidAddress, 6)] : List (ErrCode × Nat)).lookup e = some e.code.toNat := by
  cases e <;> rfl

/-- Settles O53: an access at an address is that of the window that holds it; an access of a window acts by
`portReg`. -/
theorem portAccesses : Obligations.PortAccesses := by
  constructor
  case left =>
    intro s k rest t ops addr width w hsched ht holds withProg refusedNow
    let s0 : State := { s with env := { s.env with sched := rest } }
    have ht' {ops' : List HostOp} : (withProg ops').host.threads[k]? = some { t with prog := ops' } :=
      getElem?_set_of_some ht
    have unique {π : PortSel} {base : Nat} (hmem : (π, base) ∈ s.cfg.portBase) (hholds : holds (π, base))
        (hone : ∀ e ∈ s.cfg.portBase, holds e → e = (π, base)) :
        portAt s0.cfg.portBase addr = some (π, addr - base) :=
      portAt_of_unique hmem hholds hone
    have outside (hnone : ∀ e ∈ s.cfg.portBase, ¬holds e) : portAt s0.cfg.portBase addr = none := portAt_none hnone
    refine ⟨fun hprog => ⟨fun π base hmem hholds hone => ?read, fun hnone => ?readNone⟩,
      fun hprog => ⟨?write, fun hnone => ?writeNone⟩⟩
    case read =>
      rw [step_portRead (s := withProg _) hsched ht' rfl, step_addrRead hsched ht hprog]
      exact (addrRead_at (s := s0) k _ width (unique hmem hholds hone)).trans
        (portRead_setThread k _ _ s0 π (addr - base) width).symm
    case readNone =>
      rw [step_addrRead hsched ht hprog]
      refine (addrRead_outside (s := s0) k _ width (outside hnone)).trans ?_
      rw [outsideWindow_eq]
      rfl
    case write =>
      intro π base hmem hholds hone held
      have hst : portStatus s0 π = portStatus s π := by cases π <;> rfl
      have hat := unique hmem hholds hone
      have hwrite := (step_addrWrite hsched ht hprog).trans (addrWrite_at (s := s0) k _ width hat w)
      refine ⟨fun hheld => ?_, fun hnot => ?_⟩
      · obtain ⟨rfl, rfl, st, hst', hbusy⟩ := hheld
        rw [hwrite, Nat.sub_self, portWrite_cmd (hst.trans hst'), if_pos hbusy]
      · have hbase : base ≤ addr := hholds.1
        rw [hwrite, step_portWrite (s := withProg _) hsched ht' rfl]
        refine (portWrite_setThread k _ _ s0 π (addr - base) width w ?_).symm
        rintro ⟨h0, h32, st, hbusy⟩
        exact hnot ⟨by omega, h32, st, hst ▸ hbusy⟩
    case writeNone =>
      rw [step_addrWrite hsched ht hprog]
      refine (addrWrite_outside (s := s0) k _ width (outside hnone) w).trans ?_
      rw [outsideWindow_eq]
      rfl
  case right =>
    intro s k rest t ops π offset width w st hsched ht hst after refusedAs aligned hasFreq inWindow
    have hst' : portStatus { s with env := { s.env with sched := rest } } π = some st := by rw [← hst]; cases π <;> rfl
    refine ⟨fun hprog => ?read, fun hprog => ?write⟩
    case read =>
      have hstep := step_portRead hsched ht hprog
      simp only [portRead, hst'] at hstep
      refine ⟨fun ha h => ?status, fun ha h hf => ?freq, fun ha h => ?cmd, fun ha h => ?outside, fun ha => ?narrow⟩
      case status =>
        obtain ⟨rfl, -⟩ := ha
        subst h
        obtain ⟨hbusy, hzero, hfail, herr⟩ := statusWord_fields st
        exact ⟨statusWord st, by rw [hstep, portReg_status]; rfl, hbusy, hzero, hfail, by rw [lookup_code, herr]⟩
      case freq =>
        obtain ⟨rfl, -⟩ := ha
        obtain ⟨p, rfl⟩ := hf
        subst h
        exact ⟨freqWord s.unitP.fConf, hstep, freqWord_toNat _⟩
      case cmd =>
        obtain ⟨rfl, -⟩ := ha
        subst h
        rw [hstep, portReg_cmd]; rfl
      case outside =>
        obtain ⟨rfl, ha⟩ := ha
        rw [hstep, portReg_outside ha h]; rfl
      case narrow => rw [hstep, portReg_misaligned ha]; rfl
    case write =>
      have hstep := step_portWrite hsched ht hprog
      simp only [portWrite, hst'] at hstep
      refine ⟨fun ha h => ?status, fun ha h hf => ?freq, fun ha h => ?outside, fun ha => ?narrow⟩
      case status =>
        obtain ⟨rfl, -⟩ := ha
        subst h
        rw [hstep, portReg_status]; rfl
      case freq =>
        obtain ⟨rfl, -⟩ := ha
        obtain ⟨p, rfl⟩ := hf
        subst h
        rw [hstep]; rfl
      case outside =>
        obtain ⟨rfl, ha⟩ := ha
        rw [hstep, portReg_outside ha h]; rfl
      case narrow => rw [hstep, portReg_misaligned ha]; rfl

end Sys2Proof.Machine
end

section
/-! The host's operations (spec/48_host_reference.md R301-R316): a step puts what the operation stands for in its place.
Here the servo operations and the pixels; the animations and the configuration load follow. -/

namespace Sys2Proof.Machine

open Sys2Proof.Safety

/-! ### The step of an operation -/

section Scheduled

variable {s : State} {k : Nat} {rest : List Agent} {t : Thread} {op : HostOp} {ops : List HostOp}
  (hsched : s.env.sched = .host k :: rest) (ht : s.host.threads[k]? = some t)
include hsched ht

theorem step_expand (hprog : t.prog = op :: ops) {e : HostEffect}
    (he : expandOp k { t with prog := ops } { s with env := { s.env with sched := rest } } op = some e) :
    step s = .next (applyEffect k e { s with env := { s.env with sched := rest } }) := by
  simp only [step_of_sched hsched, agentStep, hostStep, ht, hprog]
  cases op with
  | portWrite π offset width v => cases he
  | portRead π offset width => cases he
  | await π tag => cases he
  | ibufWrite i j v => cases he
  | ibufRead i j => cases he
  | addrRead addr width => cases he
  | addrWrite addr width v => cases he
  | loadConfig => cases he
  | _ => simp only [he]

theorem step_await {π : PortSel} {tag : Option String} (hprog : t.prog = .await π tag :: ops) {st : Status}
    (hst : portStatus s π = some st) :
    step s =
      .next
        (if st.busy then { s with env := { s.env with sched := rest } }
        else
          setThread k (({ t with prog := ops, got := some (statusWord st) } : Thread).returns tag (.status st.err))
            { s with env := { s.env with sched := rest } }) := by
  have hst' : portStatus { s with env := { s.env with sched := rest } } π = some st := by rw [← hst]; cases π <;> rfl
  simp only [step_of_sched hsched, agentStep, hostStep, ht, hprog, await, hst']

end Scheduled

/-! ### Commands and their words -/

theorem decodeWord_of_encodeWord {i : Instr} {w : Word} (h : encodeWord i = some w) : decodeWord w = .ok i.expand := by
  have hdec := decode_encode_of_encodeWord h
  unfold encodeWord at h
  split at h
  next x hx => cases h; rwa [hx] at hdec
  next => cases h

theorem commandLine_of_encodeWord {i : Instr} {w : Word} (h : encodeWord i = some w) (π : PortSel) :
    commandLine π i = [.command π w] := by
  simp only [commandLine, h]

/-! ### The calibration table -/

theorem findActuator_none {table : List Actuator} {name : String} (h : ∀ e ∈ table, e.name ≠ name) :
    findActuator table name = none :=
  List.find?_eq_none.2 fun e he => by simpa using h e he

theorem findActuator_unique {table : List Actuator} {e : Actuator} {name : String} (he : e ∈ table)
    (hname : e.name = name) (hone : ∀ e' ∈ table, e'.name = name → e' = e) : findActuator table name = some e := by
  cases hfind : findActuator table name with
  | none => exact absurd hname (by simpa using List.find?_eq_none.1 hfind e he)
  | some e' =>
    have hname' : e'.name = name := by simpa using List.find?_some hfind
    exact congrArg some (hone e' (List.mem_of_find?_eq_some hfind) hname')

theorem isError_iff (r : HostResult) : r.isError = true ↔ r ≠ .ok ∧ r ≠ .status .ok := by
  cases r <;> simp [HostResult.isError]

/-- The report of `home_all()` is an error exactly if one of its moves' results is (R307). -/
theorem homeResult_isError {t : Thread} {before moves : List (Option String × HostResult)}
    (h : t.results = before ++ moves) :
    (homeResult moves.length t).isError = true ↔ ∃ m ∈ moves, m.2.isError = true := by
  have hdrop : t.results.drop (t.results.length - moves.length) = moves := by
    rw [h, List.length_append, Nat.add_sub_cancel, List.drop_left]
  rw [homeResult, hdrop]
  cases hfind : (moves.map (·.2)).find? HostResult.isError with
  | none =>
    have hnone := List.find?_eq_none.1 hfind
    refine ⟨fun herr => by simp [HostResult.isError] at herr, ?_⟩
    rintro ⟨m, hm, herr⟩
    exact absurd herr (hnone m.2 (List.mem_map_of_mem hm))
  | some r =>
    obtain ⟨m, hm, rfl⟩ := List.mem_map.1 (List.mem_of_find?_eq_some hfind)
    have herr : m.2.isError = true := List.find?_some hfind
    exact ⟨fun _ => ⟨m, hm, herr⟩, fun _ => herr⟩

section Moves

variable {s : State} {name : String} (k : Nat) (t : Thread) (π : PortSel)

theorem expandOp_moveToAngle_unknown (h : findActuator (calibration s) name = none) (tag : Option String) (a : Rat) :
    expandOp k t s (.moveToAngle π tag name a) = some { thread := t.returns tag .unknownActuator } := by
  simp only [expandOp, h]

theorem expandOp_moveToAngle {e : Actuator} (h : findActuator (calibration s) name = some e) (tag : Option String)
    (a : Rat) :
    expandOp k t s (.moveToAngle π tag name a) =
      some { thread := { t with prog := moveOps π tag e.channel (anglePulse e a) ++ t.prog } } := by
  simp only [expandOp, h]

theorem expandOp_moveToPulse_unknown (h : findActuator (calibration s) name = none) (u : Rat) :
    expandOp k t s (.moveToPulse π name u) = some { thread := t.returns none .unknownActuator } := by
  simp only [expandOp, h]

theorem expandOp_moveToPulse {e : Actuator} (h : findActuator (calibration s) name = some e) (u : Rat) :
    expandOp k t s (.moveToPulse π name u) =
      some { thread := { t with prog := moveOps π none e.channel (clampPulse e u) ++ t.prog } } := by
  simp only [expandOp, h]

theorem expandOp_chanPulse {ch : BitVec 8} {u : Rat} {cmd : Word}
    (h : encodeWord (.pwmChan ch (pulseToDuty (assumedFreq s.cfg.defaultFreq t.got) u)) = some cmd) :
    expandOp k t s (.chanPulse π ch u) = some { thread := { t with prog := .portWrite π 0 32 cmd :: t.prog } } := by
  simp only [expandOp, h]
  rfl

end Moves

/-- Settles O56: the table has no entry of the name or one, and the moves are the operations `expandOp` gives. -/
theorem servoMove : Obligations.ServoMove := by
  intro s k rest t ops π tag hsched ht after failed
  let s0 : State := { s with env := { s.env with sched := rest } }
  have unknown {name : String} (h : ∀ e ∈ calibration s, e.name ≠ name) :
      findActuator (calibration s0) name = none := findActuator_none h
  have found {name : String} {e : Actuator} (he : e ∈ calibration s) (hname : e.name = name)
      (hone : ∀ e' ∈ calibration s, e'.name = name → e' = e) : findActuator (calibration s0) name = some e :=
    findActuator_unique he hname hone
  refine ⟨fun name a hprog => ⟨fun hnone => ?_, fun e he hname hone => ?_⟩,
    fun name u hprog => ⟨fun hnone => ?_, fun e he hname hone => ?_⟩, fun ch u w hprog hgot => ?pulse,
    fun st hprog hst => ?await, fun hprog => ?home, fun before moves hprog hres => ?report⟩
  · exact step_expand hsched ht hprog (expandOp_moveToAngle_unknown k _ π (unknown hnone) tag a)
  · exact step_expand hsched ht hprog (expandOp_moveToAngle k _ π (found he hname hone) tag a)
  · exact step_expand hsched ht hprog (expandOp_moveToPulse_unknown k _ π (unknown hnone) u)
  · exact step_expand hsched ht hprog (expandOp_moveToPulse k _ π (found he hname hone) u)
  case pulse =>
    obtain ⟨cmd, hcmd⟩ : ∃ cmd,
        encodeWord (.pwmChan ch (pulseToDuty (assumedFreq s.cfg.defaultFreq (some w)) u)) = some cmd := ⟨_, rfl⟩
    exact ⟨cmd, step_expand hsched ht hprog (expandOp_chanPulse k { t with prog := ops } π (s := s0) (by rwa [hgot])),
      decodeWord_of_encodeWord hcmd⟩
  case await =>
    rw [step_await hsched ht hprog hst]
    exact ⟨fun hbusy => by rw [if_pos hbusy], fun hidle => by rw [if_neg (by simp [hidle])]; rfl⟩
  case home => exact (step_expand hsched ht hprog rfl).trans (by rw [List.append_assoc]; rfl)
  case report =>
    refine ⟨_, step_expand hsched ht hprog rfl, ?_⟩
    simp only [failed, ← isError_iff]
    exact homeResult_isError (t := { t with prog := ops }) hres

/-! ### Pixels -/

/-- The writes of a pixel are those of R310, in the strip's channel order. -/
theorem pixelOps_eq (i : Nat) (c : StripConfig) (j : Nat) (r g b : Byte) :
    pixelOps i c j r g b = pixelWrites i c j r g b := by
  simp only [pixelOps, pixelBytes, pixelWrites, storedPixel, scaled]
  cases c.channelOrder <;> rfl

theorem fillOps_eq (i : Nat) (c : StripConfig) (r g b : Byte) :
    fillOps i c r g b = (List.range c.pixelCount).flatMap fun j => pixelWrites i c j r g b := by
  simp only [fillOps, pixelOps_eq]

/-- No brightness and no channel order make black another colour (R311). -/
theorem storedPixel_black (c : StripConfig) : storedPixel c 0 0 0 = (0, 0, 0) := by
  have hzero : BitVec.ofNat 8 ((0 : Byte).toNat * c.brightness.toNat / 255) = 0 := by simp
  simp only [storedPixel, hzero]
  cases c.channelOrder <;> rfl

theorem clearOps_eq (i : Nat) (c : StripConfig) : clearOps i c = blackWrites i c := by
  simp only [clearOps, fillOps_eq, pixelWrites, storedPixel_black]

section Strip

variable {s : State} {i : Nat} {c : StripConfig} {a : Anim} (hstrip : stripAnim s i = some (c, a)) (k : Nat)
  (t : Thread) (r g b : Byte)
include hstrip

theorem expandOp_setPixel_outside {idx : Nat} (h : c.pixelCount ≤ idx) :
    expandOp k t s (.setPixel i idx r g b) = some { thread := t.returns none .indexOutOfRange } := by
  simp only [expandOp, hstrip, if_neg h.not_gt]

theorem expandOp_setPixel {idx : Nat} (h : idx < c.pixelCount) :
    expandOp k t s (.setPixel i idx r g b) =
      some { thread := { t with prog := pixelWrites i c idx r g b ++ .ret none .ok :: t.prog } } := by
  simp only [expandOp, hstrip, if_pos h, pixelOps_eq, List.append_assoc]
  rfl

theorem expandOp_fill :
    expandOp k t s (.fill i r g b) =
      some
        { thread :=
            { t with
              prog :=
                ((List.range c.pixelCount).flatMap fun j => pixelWrites i c j r g b)
                  ++ .ret none .ok :: t.prog } } := by
  simp only [expandOp, hstrip, fillOps_eq, List.append_assoc]
  rfl

theorem expandOp_clear :
    expandOp k t s (.clear i) =
      some { thread := { t with prog := blackWrites i c ++ .ret none .ok :: t.prog } } := by
  simp only [expandOp, hstrip, clearOps_eq, List.append_assoc]
  rfl

end Strip

/-- Settles O57: the strip is there, so each operation is its pixel writes and then its result. -/
theorem setPixel : Obligations.SetPixel := by
  intro s k rest t ops i idx r g b u anim hsched ht hu hanim after writesThenOk
  have hstrip : stripAnim { s with env := { s.env with sched := rest } } i = some (u.conf, anim) :=
    stripAnim_some hu hanim
  exact ⟨fun hprog =>
      ⟨fun hout => step_expand hsched ht hprog (expandOp_setPixel_outside hstrip k _ r g b hout),
        fun hin => step_expand hsched ht hprog (expandOp_setPixel hstrip k _ r g b hin)⟩,
    fun hprog => step_expand hsched ht hprog (expandOp_fill hstrip k _ r g b),
    fun hprog => step_expand hsched ht hprog (expandOp_clear hstrip k _),
    fun hprog => step_expand hsched ht hprog rfl⟩

end Sys2Proof.Machine
end

section
/-! The animation of a strip (spec/48_host_reference.md R312-R316): its operations, and the frames of its task. -/

namespace Sys2Proof.Machine

open Sys2Proof.Safety

/-! ### Frames -/

theorem wheelOps_eq (i : Nat) (c : StripConfig) (offset : Nat) :
    wheelOps i c offset =
      (List.range c.pixelCount).flatMap fun j =>
        pixelWrites i c j (wheel ((j * 256 / c.pixelCount + offset) % 256)).1
          (wheel ((j * 256 / c.pixelCount + offset) % 256)).2.1
          (wheel ((j * 256 / c.pixelCount + offset) % 256)).2.2 := by
  simp only [wheelOps, pixelOps_eq, wheelPos]

/-- The writes of pixel `j` in a demo frame (R315). -/
def demoPixel (i : Nat) (c : StripConfig) (f : DemoFrame) (j : Nat) : List HostOp :=
  match f with
  | .fill r g b => pixelWrites i c j r g b
  | .wheel offset =>
    let x := wheel ((j * 256 / c.pixelCount + offset) % 256)
    pixelWrites i c j x.1 x.2.1 x.2.2

theorem demoOps_eq (i : Nat) (c : StripConfig) (f : DemoFrame) :
    demoOps i c f = (List.range c.pixelCount).flatMap (demoPixel i c f) := by
  cases f with
  | fill r g b => exact fillOps_eq i c r g b
  | wheel offset => exact wheelOps_eq i c offset

theorem showOps_of_encodeWord {c : StripConfig} {w : Word}
    (h : encodeWord (.wsShowAuto (BitVec.ofNat 16 (3 * c.pixelCount))) = some w) (π : PortSel) :
    showOps π c = [.command π w] :=
  commandLine_of_encodeWord h π

/-! ### The operations -/

section Strip

variable {s : State} {i : Nat} {c : StripConfig} {a : Anim} (hstrip : stripAnim s i = some (c, a)) (k : Nat)
  (t : Thread)
include hstrip

theorem expandOp_start_held (h : a.demo = .running) : expandOp k t s (.start i) = none := by
  simp only [expandOp, hstrip, if_pos h]

theorem expandOp_start (h : a.demo ≠ .running) :
    expandOp k t s (.start i) = some (animRun .stopped i t a) := by
  simp only [expandOp, hstrip, if_neg h]

theorem expandOp_resume : expandOp k t s (.resume i) = some (animRun .paused i t a) := by
  simp only [expandOp, hstrip]

theorem expandOp_pause_held (h : a.lock ≠ none) (π : PortSel) : expandOp k t s (.pause π i) = none := by
  simp only [expandOp, hstrip, if_neg h]

theorem expandOp_pause (h : a.lock = none) (π : PortSel) :
    expandOp k t s (.pause π i) = some (animPause k π i c t a) := by
  simp only [expandOp, hstrip, if_pos h]

theorem expandOp_unlock :
    expandOp k t s (.unlock i) = some { thread := t, anim := some (i, { a with lock := none }) } := by
  simp only [expandOp, hstrip]

theorem expandOp_startupDemo (π : PortSel) (frames : List DemoFrame) :
    expandOp k t s (.startupDemo π i frames) = some (animDemo π i c frames t a) := by
  simp only [expandOp, hstrip]

theorem expandOp_demoDone :
    expandOp k t s (.demoDone i) = some { thread := t, anim := some (i, { a with demo := .done }) } := by
  simp only [expandOp, hstrip]

theorem expandOp_frameDone :
    expandOp k t s (.frameDone i) = some { thread := t, anim := some (i, frameDoneAnim a) } := by
  simp only [expandOp, hstrip]

end Strip

/-- An effect on a thread alone, in a state in which the strip's animation is `a`. -/
theorem applyEffect_thread {s : State} {i : Nat} {a : Anim} (ha : s.host.anim[i]? = some a) (k : Nat) (t : Thread) :
    applyEffect k { thread := t } s =
      { s with host := { s.host with threads := s.host.threads.set k t, anim := s.host.anim.set i a } } := by
  rw [set_self ha]
  rfl

section Held

variable {s : State} {k i : Nat} {rest : List Agent} {t : Thread} {ops : List HostOp} {u : WUnit} {a : Anim}
  (hsched : s.env.sched = .host k :: rest) (ht : s.host.threads[k]? = some t)
  (hu : s.strips[i]? = some u) (ha : s.host.anim[i]? = some a)
include hsched ht hu ha

theorem step_start_held (hprog : t.prog = .start i :: ops) (h : a.demo = .running) :
    step s = .next { s with env := { s.env with sched := rest } } := by
  have hexp := expandOp_start_held (s := { s with env := { s.env with sched := rest } })
    (stripAnim_some hu ha) k { t with prog := ops } h
  simp only [step_of_sched hsched, agentStep, hostStep, ht, hprog, hexp]

theorem step_pause_held {π : PortSel} (hprog : t.prog = .pause π i :: ops) (h : a.lock ≠ none) :
    step s = .next { s with env := { s.env with sched := rest } } := by
  have hexp := expandOp_pause_held (s := { s with env := { s.env with sched := rest } })
    (stripAnim_some hu ha) k { t with prog := ops } h π
  simp only [step_of_sched hsched, agentStep, hostStep, ht, hprog, hexp]

end Held

/-- Settles O58: each operation is what `expandOp` puts in its place, by the animation's mode and lock. -/
theorem animationOperations : Obligations.AnimationOperations := by
  intro s k rest t ops i u a π hsched ht hu ha s0 after ok
  have hstrip : stripAnim s0 i = some (u.conf, a) := stripAnim_some hu ha
  have unchanged (th : Thread) : applyEffect k { thread := th } s0 = after th a :=
    applyEffect_thread (s := s0) ha k th
  obtain ⟨w, hw⟩ : ∃ w, encodeWord (.wsShowAuto (BitVec.ofNat 16 (3 * u.conf.pixelCount))) = some w := ⟨_, rfl⟩
  have hshow := showOps_of_encodeWord hw π
  refine ⟨w, decodeWord_of_encodeWord hw, fun hprog => ?start, fun hprog => ?resume, fun hprog => ?pause,
    fun hprog => step_expand hsched ht hprog (expandOp_unlock hstrip k _), fun frames hprog => ?demo,
    fun hprog => step_expand hsched ht hprog (expandOp_demoDone hstrip k _)⟩
  case start =>
    refine ⟨fun h => step_start_held hsched ht hu ha hprog h, fun hd h => ?_, fun hd h => ?_⟩
    · rw [step_expand hsched ht hprog (expandOp_start hstrip k _ hd), animRun, if_pos h]
      rfl
    · rw [step_expand hsched ht hprog (expandOp_start hstrip k _ hd), animRun, if_neg h]
      exact congrArg _ (unchanged ok)
  case resume =>
    refine ⟨fun h => ?_, fun h => ?_⟩
    · rw [step_expand hsched ht hprog (expandOp_resume hstrip k _), animRun, if_pos h]
      rfl
    · rw [step_expand hsched ht hprog (expandOp_resume hstrip k _), animRun, if_neg h]
      exact congrArg _ (unchanged ok)
  case pause =>
    refine ⟨fun h => step_pause_held hsched ht hu ha hprog h, fun hl h => ?_, fun hl h => ?_⟩
    · rw [step_expand hsched ht hprog (expandOp_pause hstrip k _ hl π), animPause, if_pos h]
      simp only [clearOps_eq, hshow, List.append_assoc]
      rfl
    · rw [step_expand hsched ht hprog (expandOp_pause hstrip k _ hl π), animPause, if_neg h]
      exact congrArg _ (unchanged ok)
  case demo =>
    refine ⟨fun h hd => ?_, fun h => ?_⟩
    · rw [step_expand hsched ht hprog (expandOp_startupDemo hstrip k _ π frames), animDemo, if_pos ⟨h, hd⟩]
      simp only [startupOps, clearOps_eq, hshow, demoOps_eq, List.append_assoc]
      rfl
    · rw [step_expand hsched ht hprog (expandOp_startupDemo hstrip k _ π frames), animDemo, if_neg h]
      exact congrArg _ (unchanged ok)

/-! ### The task -/

/-- The three ranges of `wheel` (R316). -/
theorem wheel_ranges {p : Nat} (hp : p < 256) :
    (p < 85 → (wheel p).1.toNat = 255 - 3 * p ∧ (wheel p).2.1.toNat = 3 * p ∧ (wheel p).2.2.toNat = 0)
      ∧ (85 ≤ p → p < 170 → (wheel p).1.toNat = 0 ∧ (wheel p).2.1.toNat = 255 - 3 * (p - 85)
          ∧ (wheel p).2.2.toNat = 3 * (p - 85))
      ∧ (170 ≤ p → (wheel p).1.toNat = 3 * (p - 170) ∧ (wheel p).2.1.toNat = 0
          ∧ (wheel p).2.2.toNat = 255 - 3 * (p - 170)) := by
  have byte {n : Nat} (h : n < 256) : (BitVec.ofNat 8 n).toNat = n := by rw [BitVec.toNat_ofNat]; omega
  refine ⟨fun h => ?_, fun h h' => ?_, fun h => ?_⟩
  · rw [wheel, if_pos h]
    exact ⟨byte (by omega), byte (by omega), rfl⟩
  · rw [wheel, if_neg (by omega), if_pos h']
    exact ⟨rfl, byte (by omega), byte (by omega)⟩
  · rw [wheel, if_neg (by omega), if_neg (by omega)]
    exact ⟨byte (by omega), rfl, byte (by omega)⟩

theorem step_idle {s : State} {k : Nat} {rest : List Agent} {t : Thread} (hsched : s.env.sched = .host k :: rest)
    (ht : s.host.threads[k]? = some t) (hprog : t.prog = []) :
    step s = .next (idleStep k t { s with env := { s.env with sched := rest } }) := by
  simp only [step_of_sched hsched, agentStep, hostStep, ht, hprog]

/-- Settles O59: an idle task takes its turn or rests, and the end of a frame is an operation like the others. -/
theorem animationFrame : Obligations.AnimationFrame := by
  refine ⟨fun s k rest t i u a hsched ht hu ha => ?_, fun p hp => wheel_ranges hp⟩
  intro s0 after
  refine ⟨fun hprog htask hload => ⟨fun hmode hlock => ?frame, fun hrest => ?rest⟩, fun ops hprog => ?done⟩
  case frame =>
    obtain ⟨w, hw⟩ : ∃ w, encodeWord (.wsShowAuto (BitVec.ofNat 16 (3 * u.conf.pixelCount))) = some w := ⟨_, rfl⟩
    refine ⟨w, decodeWord_of_encodeWord hw, ?_⟩
    rw [step_idle hsched ht hprog, idleStep_frame (s := s0) htask hload hu ha hlock, animFrame, if_pos hmode]
    simp only [wheelOps_eq, showOps_of_encodeWord hw, hprog, List.append_assoc]
    rfl
  case rest =>
    rw [step_idle hsched ht hprog]
    refine congrArg _ (idleStep_resting (s := s0) ht fun j b hj hb => ?_)
    rw [htask] at hj
    cases hj
    cases ha.symm.trans hb
    exact hrest
  case done =>
    have hstrip : stripAnim s0 i = some (u.conf, a) := stripAnim_some hu ha
    exact step_expand hsched ht hprog (expandOp_frameDone hstrip k _)

end Sys2Proof.Machine
end

section
/-! Configuration load and boot (spec/48_host_reference.md R302, R303, R309): which actuators pass the checks, the table
they make, and the operations boot stands for. -/

namespace Sys2Proof.Machine

open Sys2Proof.Safety

/-! ### One actuator -/

/-- The checks of R302 items 1-4: every key present, an integer channel in range, both limits in order. -/
def Passes (r : RawActuator) : Prop :=
  ∃ ch lo hi dflt,
    r.channel = some (.int ch) ∧ r.minPulse = some lo ∧ r.maxPulse = some hi ∧ r.defaultAngle = some dflt
    ∧ 0 ≤ ch ∧ ch ≤ 15 ∧ lo < hi ∧ r.minAngle.getD 0 < r.maxAngle.getD 180

/-- The table entry `e` says what the configuration `r` says (R303). -/
structure Says (r : RawActuator) (e : Actuator) : Prop where
  name : e.name = r.name
  channel : r.channel = some (.int e.channel.toNat)
  minPulse : r.minPulse = some e.minPulse
  maxPulse : r.maxPulse = some e.maxPulse
  defaultAngle : r.defaultAngle = some e.defaultAngle
  minAngle : e.minAngle = r.minAngle.getD 0
  maxAngle : e.maxAngle = r.maxAngle.getD 180

theorem loadActuator_of_passes {r : RawActuator} (h : Passes r) : ∃ e, loadActuator r = some e ∧ Says r e := by
  obtain ⟨ch, lo, hi, dflt, hch, hlo, hhi, hdflt, hmin, hmax, hpulse, hangle⟩ := h
  have hload : loadActuator r =
      some { name := r.name, channel := BitVec.ofInt 8 ch, minPulse := lo, maxPulse := hi
             minAngle := r.minAngle.getD 0, maxAngle := r.maxAngle.getD 180, defaultAngle := dflt } := by
    simp only [loadActuator, hch, hlo, hhi, hdflt]
    exact if_pos ⟨hmin, hmax, hpulse, hangle⟩
  have hbyte : ((BitVec.ofInt 8 ch).toNat : Int) = ch := by rw [BitVec.toNat_ofInt]; omega
  exact ⟨_, hload, rfl, by rw [hbyte, hch], hlo, hhi, hdflt, rfl, rfl⟩

theorem passes_of_loadActuator {r : RawActuator} {e : Actuator} (h : loadActuator r = some e) : Passes r := by
  simp only [loadActuator] at h
  split at h
  next ch lo hi dflt hch hlo hhi hdflt =>
    split at h
    next hok => exact ⟨ch, lo, hi, dflt, hch, hlo, hhi, hdflt, hok⟩
    next => cases h
  next => cases h

/-! ### The table -/

theorem loadActuators_of_passes {rs : List RawActuator} (h : ∀ r ∈ rs, Passes r) :
    ∃ table, loadActuators rs = some table ∧ List.Forall₂ Says rs table := by
  induction rs with
  | nil => exact ⟨[], rfl, .nil⟩
  | cons r rs ih =>
    obtain ⟨hhead, htail⟩ := List.forall_mem_cons.1 h
    obtain ⟨e, he, hsays⟩ := loadActuator_of_passes hhead
    obtain ⟨table, htable, hall⟩ := ih htail
    exact ⟨e :: table, by simp only [loadActuators, he, htable], .cons hsays hall⟩

theorem passes_of_loadActuators {rs : List RawActuator} {table : List Actuator} (h : loadActuators rs = some table) :
    ∀ r ∈ rs, Passes r := by
  induction rs generalizing table with
  | nil => exact List.forall_mem_nil _
  | cons r rs ih =>
    simp only [loadActuators] at h
    split at h
    next e table' he htable => exact List.forall_mem_cons.2 ⟨passes_of_loadActuator he, ih htable⟩
    next => cases h

/-- The channels of the table are those of the configuration, as numbers. -/
theorem channels_of_says {rs : List RawActuator} {table : List Actuator} (h : List.Forall₂ Says rs table) :
    rs.map (·.channel) = (table.map (·.channel)).map fun ch => some (.int ch.toNat) := by
  induction h with
  | nil => rfl
  | cons hsays _ ih => simp only [List.map_cons, hsays.channel, ih]

theorem channels_nodup_iff {rs : List RawActuator} {table : List Actuator} (h : List.Forall₂ Says rs table) :
    (rs.map (·.channel)).Nodup ↔ (table.map (·.channel)).Nodup := by
  rw [channels_of_says h]
  refine List.nodup_map_iff fun ch ch' heq => BitVec.eq_of_toNat_eq ?_
  simpa using heq

theorem loadCalibration_of_passes {rs : List RawActuator} (h : ∀ r ∈ rs, Passes r)
    (hnodup : (rs.map (·.channel)).Nodup) :
    ∃ table, loadCalibration rs = some table ∧ List.Forall₂ Says rs table := by
  obtain ⟨table, htable, hall⟩ := loadActuators_of_passes h
  refine ⟨table, ?_, hall⟩
  simp only [loadCalibration, htable, if_pos ((channels_nodup_iff hall).1 hnodup)]

theorem loadCalibration_none {rs : List RawActuator} (h : ¬((∀ r ∈ rs, Passes r) ∧ (rs.map (·.channel)).Nodup)) :
    loadCalibration rs = none := by
  cases hload : loadActuators rs with
  | none => simp only [loadCalibration, hload]
  | some table =>
    have hpass := passes_of_loadActuators hload
    obtain ⟨table', htable', hall⟩ := loadActuators_of_passes hpass
    cases hload.symm.trans htable'
    have hdup : ¬(table.map (·.channel)).Nodup := fun hn => h ⟨hpass, (channels_nodup_iff hall).2 hn⟩
    simp only [loadCalibration, hload, if_neg hdup]

/-! ### The steps -/

theorem lastOk_iff (t : Thread) :
    lastOk t = true ↔ ∀ tag r, t.results.getLast? = some (tag, r) → r = .ok ∨ r = .status .ok := by
  unfold lastOk
  split
  next h => simp [h]
  next tag r h =>
    rw [h, Bool.not_eq_true', ← Bool.not_eq_true, isError_iff]
    constructor
    · rintro hok tag' r' heq
      cases heq
      tauto
    · intro hok
      have := hok tag r rfl
      tauto

theorem bootOps_eq {s : State} {π : PortSel} {initWord freqWord : Word}
    (hinit : encodeWord (.pwmInit s.cfg.cfgPwmAddr) = some initWord)
    (hfreq : encodeWord (.pwmFreq s.cfg.defaultFreq) = some freqWord) (demos : List (PortSel × Nat × List DemoFrame)) :
    bootOps π demos s =
      [.loadConfig, .command π initWord, .checkOk, .command π freqWord, .checkOk]
        ++ (s.strips.mapIdx fun i u => blackWrites i u.conf).flatten
        ++ (demos.map fun d => .startupDemo d.1 d.2.1 d.2.2)
        ++ (List.range s.strips.length).map .start := by
  simp only [bootOps, commandLine_of_encodeWord hinit, commandLine_of_encodeWord hfreq, clearOps_eq]
  rfl

/-- Settles O60: the load is `loadCalibration`, and the other steps put in what the operation stands for. -/
theorem loadAndBoot : Obligations.LoadAndBoot := by
  intro s k rest t ops hsched ht s0 after good
  refine ⟨fun hprog => ?load, fun hload hprog => ?failed, fun π w hprog => step_expand hsched ht hprog rfl,
    fun hprog => ?check, fun π demos hprog => ?boot⟩
  case load =>
    have hstep : step s = .next (loadConfig k { t with prog := ops } s0) := by
      simp only [step_of_sched hsched, agentStep, hostStep, ht, hprog, s0]
    refine ⟨fun hgood => ?_, fun hbad => ?_⟩
    · obtain ⟨table, htable, hall⟩ := loadCalibration_of_passes (rs := s0.cfg.servos) hgood.1 hgood.2
      refine ⟨table, ?_, hall.length_eq.symm, fun j r e hr he => ?_⟩
      · rw [hstep, loadConfig, htable]
        rfl
      · obtain ⟨hj, rfl⟩ := List.getElem?_eq_some_iff.1 hr
        obtain ⟨hj', rfl⟩ := List.getElem?_eq_some_iff.1 he
        obtain ⟨hname, hch, hlo, hhi, hdflt, hmin, hmax⟩ := hall.get hj hj'
        exact ⟨hname, hch, hlo, hhi, hdflt, hmin, hmax⟩
    · have hnone : loadCalibration s0.cfg.servos = none := loadCalibration_none hbad
      refine ⟨_, by rw [hstep, loadConfig, hnone], ?_, ?_, ?_⟩
      · simp [s0]
      · simp only [List.mem_map, forall_exists_index, and_imp]
        rintro th x - rfl
        rfl
      · have hk := (List.getElem?_eq_some_iff.1 ht).1
        simp [s0, hk, Thread.returns]
  case failed =>
    rw [step_idle hsched ht hprog, idleStep_failed (s := s0) hload]
  case check =>
    refine ⟨fun hlast => ?_, fun hlast => ?_⟩
    · obtain ⟨tag, r, hr, hne⟩ := hlast
      have hnot : ¬lastOk { t with prog := ops } = true := fun h => by
        have := (lastOk_iff _).1 h tag r hr
        tauto
      exact (step_expand hsched ht hprog rfl).trans (by rw [if_neg hnot]; rfl)
    · have hok : lastOk { t with prog := ops } = true := (lastOk_iff _).2 hlast
      exact (step_expand hsched ht hprog rfl).trans (by rw [if_pos hok]; rfl)
  case boot =>
    obtain ⟨w, hw⟩ : ∃ w, encodeWord (.pwmInit s.cfg.cfgPwmAddr) = some w := ⟨_, rfl⟩
    obtain ⟨w', hw'⟩ : ∃ w, encodeWord (.pwmFreq s.cfg.defaultFreq) = some w := ⟨_, rfl⟩
    refine ⟨w, w', decodeWord_of_encodeWord hw, decodeWord_of_encodeWord hw',
      (step_expand hsched ht hprog rfl).trans ?_⟩
    rw [bootOps_eq (s := s0) hw hw']
    rfl

end Sys2Proof.Machine
end

section
/-! The reset state (spec/70_reset_and_hazards.md R390, R391, R415): the invariants hold in it, and without programs it
is the final end of a run. -/

namespace Sys2Proof.Machine

open Sys2Proof.Safety

section Reset

variable {c : Config}

/-! ### The invariants -/

theorem memoryForm_resetOf : MemoryForm (State.resetOf c) := by
  refine ⟨Memory.wf_nil, fun u hu => ?_⟩
  obtain ⟨conf, n, rfl⟩ := eq_wUnitReset_of_mem_resetOf_strips hu
  exact ⟨Memory.wf_nil, Memory.wf_nil⟩

theorem slaveForm_resetOf : SlaveForm (State.resetOf c) := List.forall_mem_nil _

theorem portsForm_resetOf : PortsForm (State.resetOf c) := by
  refine ⟨fun P hP => ?_, fun p q P Q _ hP _ hbusy _ => ?_⟩
  · rw [eq_reset_of_mem_resetOf_ports hP]
    exact ⟨fun _ => rfl, Nat.zero_le 5, fun _ => ⟨rfl, rfl⟩, fun hbusy => nomatch hbusy⟩
  · rw [eq_reset_of_mem_resetOf_ports (List.mem_of_getElem? hP)] at hbusy
    cases hbusy

theorem unitsForm_resetOf : UnitsForm (State.resetOf c) := by
  intro u hu
  obtain ⟨conf, n, rfl⟩ := eq_wUnitReset_of_mem_resetOf_strips hu
  have hport {P : WPort} (hP : P ∈ (WUnit.reset conf n).ports) : P = WPort.reset := eq_reset_of_mem_wUnitReset_ports hP
  refine ⟨⟨List.nodup_nil, List.forall_mem_nil _, fun q P hP hbusy => ?_, List.forall_mem_nil _⟩,
    ⟨List.forall_mem_nil _, List.forall_mem_nil _, Nat.zero_le _, fun i hi => absurd hi (Nat.not_lt_zero i),
      Nat.zero_le _, by simp [WUnit.reset]⟩, fun P hP => ?_⟩
  · rw [hport (List.mem_of_getElem? hP)] at hbusy
    cases hbusy
  · rw [hport hP]
    exact ⟨fun _ => rfl, Nat.zero_le 4⟩

/-! ### No agent has an enabled step -/

theorem prog_of_mem_resetOf_threads {t : Thread} (h : t ∈ (State.resetOf c).host.threads) : t.prog = [] := by
  obtain h | h := List.mem_append.1 h
  · rw [List.eq_of_mem_replicate h]
    rfl
  · obtain ⟨l, hl, ht⟩ := List.mem_flatten.1 h
    obtain ⟨i, hi, rfl⟩ := List.mem_mapIdx.1 hl
    obtain ⟨q, -, rfl⟩ := List.mem_map.1 ht
    rfl

theorem hostStep_resetOf (k : Nat) : hostStep k (State.resetOf c) = .next (State.resetOf c) := by
  cases ht : (State.resetOf c).host.threads[k]? with
  | none => simp only [hostStep, ht]
  | some t =>
    have hprog := prog_of_mem_resetOf_threads (List.mem_of_getElem? ht)
    have hrest : idleStep k t (State.resetOf c) = State.resetOf c := by
      refine idleStep_resting ht fun i a _ ha => .inl ?_
      rw [List.eq_of_mem_replicate (List.mem_of_getElem? ha)]
      decide
    simp only [hostStep, ht, hprog, hrest]

theorem seqStep_resetOf (p : Nat) : seqStep p (State.resetOf c) = .next (State.resetOf c) := by
  refine seqStep_of_none ?_
  cases hP : (State.resetOf c).unitP.ports[p]? with
  | none => simp only [nextMicroOp, hP]
  | some P =>
    have hreset := eq_reset_of_mem_resetOf_ports (List.mem_of_getElem? hP)
    simp only [nextMicroOp, hP, hreset]
    rfl

theorem unitStep_resetOf (i : Nat) : unitStep i (State.resetOf c) = State.resetOf c := by
  cases hu : (State.resetOf c).strips[i]? with
  | none => simp only [unitStep, hu]
  | some u =>
    obtain ⟨conf, n, rfl⟩ := eq_wUnitReset_of_mem_resetOf_strips (List.mem_of_getElem? hu)
    exact unitStep_holds hu (.inr (.inr rfl))

theorem agentStep_resetOf (a : Agent) : agentStep a (State.resetOf c) = .next (State.resetOf c) := by
  cases a with
  | host k => exact hostStep_resetOf k
  | seq p => exact seqStep_resetOf p
  | osc => rfl
  | unit i => exact congrArg _ (unitStep_resetOf i)
  | master => rfl

theorem final_resetOf : Final (State.resetOf c) := by
  refine ⟨fun a henabled => henabled _ (agentStep_resetOf a) rfl, fun t ht => prog_of_mem_resetOf_threads ht,
    fun P hP => ?_, fun u hu => ?_, (fun h => nomatch h), rfl, rfl, rfl⟩
  · rw [eq_reset_of_mem_resetOf_ports hP]
    rfl
  · obtain ⟨conf, n, rfl⟩ := eq_wUnitReset_of_mem_resetOf_strips hu
    refine ⟨fun P hP => ?_, rfl, rfl⟩
    rw [eq_reset_of_mem_wUnitReset_ports hP]
    rfl

end Reset

/-- Settles O2: `State.reset` is the reset state of the standard configuration. -/
theorem invariantsAtReset : Obligations.InvariantsAtReset :=
  ⟨⟨memoryForm_resetOf, slaveForm_resetOf, portsForm_resetOf, unitsForm_resetOf⟩,
    fun _ => ⟨memoryForm_resetOf, slaveForm_resetOf, portsForm_resetOf, unitsForm_resetOf, final_resetOf⟩⟩

end Sys2Proof.Machine
end
